-- ==== Sys2Proof/Word.lean ====
section
/-! DEFINITION. The two bit-vector types of the core: 32-bit host registers and hash words, and bytes (00_scope.md R7, R8). Every
value is unsigned (R8); `+` on `Word` is the wrapping addition `+32` of R9. -/

namespace Sys2Proof

/-- A 32-bit word: a host register, a hash word or an MM address (R7 `WORD_BITS`, `MM_AW`). -/
abbrev Word := BitVec 32

/-- A byte of message memory, of a buffer or of a clock image. -/
abbrev Byte := BitVec 8

end Sys2Proof
end

