-- ==== Sys2Proof/Machine/Codec.lean ====
section
/-! DEFINITION. The byte/word codec (40_codec.md R71, R72), the rotation of R9 and the lane order of byte buffers held in
registers (20_memory.md R49). -/

namespace Sys2Proof.Machine

/-- R9: `rotl32(x, n)` for 0 < n < 32. -/
def rotl32 (x : Word) (n : Nat) : Word := (x <<< n) ||| (x >>> (32 - n))

/-- R71: `beNbytes(v)` for N = 8 n bits, the most significant byte first. -/
def beBytes (n v : Nat) : List Byte :=
  (List.range n).map fun k => BitVec.ofNat 8 (v >>> (8 * (n - (k + 1))))

/-- R72: `BEN(s)`, the big-endian number a byte sequence stands for. -/
def beNat (s : List Byte) : Nat := s.foldl (fun acc b => acc * 256 + b.toNat) 0

/-- R73: `be32bytes`, for the Digest. -/
def be32bytes (v : Word) : List Byte := beBytes 4 v.toNat

/-- R73: `be64bytes`, for the length suffix and the counter. -/
def be64bytes (v : Nat) : List Byte := beBytes 8 v

/-- R73: `BE32`, for schedule words and the truncation word. -/
def be32 (s : List Byte) : Word := BitVec.ofNat 32 (beNat s)

/-- R49: byte `k` (0..3) of a register that holds four bytes of a buffer, byte 0 in bits 7:0. -/
def lane (x : Word) (k : Nat) : Byte := x.extractLsb' (8 * k) 8

/-- R49: the register that holds the bytes `b0`, `b1`, `b2`, `b3` of a buffer, `b0` in bits 7:0. -/
def ofLanes (b0 b1 b2 b3 : Byte) : Word := b3 ++ b2 ++ b1 ++ b0

end Sys2Proof.Machine
end

