-- ==== Sys2Proof/Config.lean ====
section
/-! DEFINITION. The fixed parameters of the core (00_scope.md R7), each with the value the spec gives it. The three OPEN
parameters are not here: `BASE` and `MM_ADMITS` are plain data of the state (log entries 4 and 5), and `LATENCY` is the schedule
the state holds (log entry 2). The core has no free value: every result of every command is stated by a rule. -/

namespace Sys2Proof.Config

/-- R7 `BLOCK_BYTES`. -/
abbrev blockBytes : Nat := 64
/-- R7 `SCHED_WORDS`. -/
abbrev schedWords : Nat := 80
/-- R7 `ROUNDS`. -/
abbrev rounds : Nat := 80
/-- R7 `DIGEST_BYTES`. -/
abbrev digestBytes : Nat := 20
/-- R7 `HMAC_KEY_MAX`, in bytes. -/
abbrev hmacKeyMax : Nat := 64
/-- R7 `HOTP_KEY_MAX`, in bytes (90_conflicts.md C4: one limit, 64). -/
abbrev hotpKeyMax : Nat := 64
/-- R7 `DIGITS_MIN`. -/
abbrev digitsMin : Nat := 1
/-- R7 `DIGITS_MAX`. -/
abbrev digitsMax : Nat := 9
/-- R7 `TOTP_STEP`, in seconds (R109). -/
abbrev totpStep : Nat := 30
/-- R7 `EPOCH`: the year of 1970-01-01T00:00:00Z. -/
abbrev epochYear : Nat := 1970
/-- R7 `CAL_YEAR_MIN`. -/
abbrev calYearMin : Nat := 1900
/-- R7 `CAL_YEAR_MAX`. -/
abbrev calYearMax : Nat := 2099
/-- R7 `TS_MAX`, 2099-12-31T23:59:59Z. -/
abbrev tsMax : Nat := 4102444799
/-- R7 `RTC_DEST_REG`. -/
abbrev rtcDestReg : Byte := 0x00#8
/-- R7 `DOW_FILL`. -/
abbrev dowFill : Byte := 0x01#8
/-- R7 `ID_VALUE`, the bytes "OTP1" (R17). -/
abbrev idValue : Word := 0x4F545031#32
/-- R15: the window is 256 bytes. -/
abbrev windowBytes : Nat := 256

end Sys2Proof.Config
end

