-- ==== Sys2Proof/Syntax.lean ====
section
/-! DEFINITION. The syntax of the command set: one constructor per row of spec/opcode_table.json (30_encoding.md R60). The only
operands a command word encodes are `DIG` and `APP` (R59); every other operand is a fixed register of the window. -/

namespace Sys2Proof

/-- The ten commands of R60. -/
inductive Instr where
  /-- SHA1 (0x01, R75); `app` is the APP bit: the appendix segment is present. -/
  | sha1 (app : Bool)
  /-- HMAC (0x02, R94). -/
  | hmac
  /-- HOTP (0x03, R108); `dig` is the DIG field, the number of digits. -/
  | hotp (dig : Nat)
  /-- TOTP (0x04, R110); `dig` is the DIG field, the number of digits. -/
  | totp (dig : Nat)
  /-- RTC_DECODE (0x05, R120). -/
  | rtcDecode
  /-- RTC_ENCODE (0x06, R122). -/
  | rtcEncode
  /-- DT_TO_UNIX (0x07, R124). -/
  | dtToUnix
  /-- UNIX_TO_DT (0x08, R126). -/
  | unixToDt
  /-- RTC_TO_UNIX (0x09, R127). -/
  | rtcToUnix
  /-- LEAP (0x0A, R128). -/
  | leap
deriving DecidableEq, Repr

end Sys2Proof
end

