-- ==== Sys2Proof/Machine/State.lean ====
section
/-! DEFINITION. The state of the machine as plain data (10_state.md, 20_memory.md section 1, 00_scope.md R12, R13): the register
window, the core's internal state, message memory with the platform's admission map, and the host's schedule with what its
reads returned. Also the state after reset (R39, R40) and the reasons a step can stop. -/

namespace Sys2Proof.Machine

/-- The registers of the window (R15). -/
inductive Reg where
  | id | ctrl | status | cmd
  | keyAddr | keyLen | priAddr | priLen | appAddr | appLen
  | cntLo | cntHi | tsLo | tsHi
  | dt0 | dt1 | rtcimg0 | rtcimg1
  | rtcout0 | rtcout1
  | digest0 | digest1 | digest2 | digest3 | digest4
  | otp | leap
deriving DecidableEq, Repr

/-- The error codes of R130. The last two are the hex kinds: they have numbers and no command raises them (R74). The codes
7 to 15 are reserved and never raised, so they have no constructor. -/
inductive ErrCode where
  | none | inputSize | processing | illegalCmd | busError | invalidHexChar | sizing
deriving DecidableEq, Repr

/-- STATUS (R19): its flags, each under its own name; the reserved bits read as zero and have no storage. -/
structure Status where
  busy : Bool
  done : Bool
  err : Bool
  ovr : Bool
  errcode : ErrCode
deriving DecidableEq, Repr

/-- The register window (R15). ID is a constant and has no storage (R17). CTRL stores only IE: SRST is write-only and reads 0
(R18). The word registers with reserved bits (DT1, RTCIMG1, LEAP) are masked where they are written and read (`Window.put`,
`Window.get`). -/
structure Window where
  /-- CTRL.IE (R18). -/
  ie : Bool
  status : Status
  cmd : Word
  keyAddr : Word
  keyLen : Word
  priAddr : Word
  priLen : Word
  appAddr : Word
  appLen : Word
  cntLo : Word
  cntHi : Word
  tsLo : Word
  tsHi : Word
  dt0 : Word
  dt1 : Word
  rtcimg0 : Word
  rtcimg1 : Word
  rtcout0 : Word
  rtcout1 : Word
  digest0 : Word
  digest1 : Word
  digest2 : Word
  digest3 : Word
  digest4 : Word
  otp : Word
  leap : Word
deriving DecidableEq, Repr

/-- HashState: the five words H[0..5] (R32). -/
structure HashState where
  h0 : Word
  h1 : Word
  h2 : Word
  h3 : Word
  h4 : Word
deriving DecidableEq, Repr

/-- The working variables a, b, c, d, e (R33). -/
structure Working where
  a : Word
  b : Word
  c : Word
  d : Word
  e : Word
deriving DecidableEq, Repr

/-- The sequencer's phases (R35). -/
inductive Phase where
  | idle | check | keyload | hash | trunc | cal | commit
deriving DecidableEq, Repr

/-- Which engine invocation is running (R35). -/
inductive Pass where
  | single | inner | outer
deriving DecidableEq, Repr

/-- Where a segment's bytes come from (R36). -/
inductive Src where
  | mm | ipad | opad | inner | cntbuf | none
deriving DecidableEq, Repr

/-- A segment descriptor `(src, base, len)` (R36); `base` is used only when `src` is message memory. -/
structure Segment where
  src : Src
  base : Word
  len : Nat
deriving DecidableEq, Repr

/-- The HMAC and OTP buffers IPAD, OPAD (64 bytes each), INNER (20) and CNTBUF (8) (R37). -/
structure Buffers where
  ipad : List Byte
  opad : List Byte
  inner : List Byte
  cntbuf : List Byte
deriving DecidableEq, Repr

/-- The internal state of the core, which no register reads (10_state.md section 4, R31 to R37). -/
structure Engine where
  /-- The sequencer's phase (R35). -/
  phase : Phase
  /-- The engine invocation that is running (R35). -/
  pass : Pass
  /-- The index of the current block (R35). -/
  blkidx : Nat
  /-- The round index, 0..=80 (R35). -/
  t : Nat
  /-- The latched command word (R35, R63). -/
  op : Word
  /-- H[0..5] (R32). -/
  h : HashState
  /-- a, b, c, d, e (R33). -/
  work : Working
  /-- The schedule W[0..80] (R34). -/
  w : List Word
  /-- The current block blk[0..64] (R34). -/
  blk : List Byte
  /-- The engine's first segment (R36). -/
  seg1 : Segment
  /-- The engine's second segment (R36). -/
  seg2 : Segment
  /-- IPAD, OPAD, INNER, CNTBUF (R37). -/
  bufs : Buffers
  /-- PEND: the (register, value) pairs completion writes (R37). -/
  pend : List (Reg × Word)
  /-- MODEL'S OWN (log entry 8): the error a phase before COMMIT found, until the completion step reports it. -/
  perr : ErrCode
deriving DecidableEq, Repr

/-- Message memory's contents: (address, byte) pairs in one canonical form (`Memory.wf`): addresses strictly rising, and no
entry equal to what an unlisted address reads as. -/
abbrev Memory := List Host.Cell

/-- A range of MM addresses the platform admits: `size` addresses from `first` on. -/
structure Region where
  first : Nat
  size : Nat
deriving DecidableEq, Repr

/-- Message memory as the core meets it (R41, R42): the bytes, and the platform's predicate `MM_ADMITS` as a list of ranges
(log entry 4). -/
structure MsgMem where
  cells : Memory
  admits : List Region
deriving DecidableEq, Repr

/-- One event of the schedule: an access of the host (R69), or a turn of the core (R65). -/
inductive Event where
  /-- A host write of `v` at bus address `addr`, `bytes` bytes wide; `WR` of R69 where `bytes` is 4. -/
  | write (bytes : Nat) (addr : Word) (v : Word)
  /-- A host read at bus address `addr`, `bytes` bytes wide; `RD` of R69 where `bytes` is 4. -/
  | read (bytes : Nat) (addr : Word)
  /-- `MEM addr, data` of R69: the host writes the bytes into message memory. -/
  | mem (addr : Word) (data : List Byte)
  /-- `WAIT` of R70: read STATUS until BUSY is 0. -/
  | wait
  /-- The platform's reset input is asserted (R143 (1)). -/
  | resetInput
  /-- An internal step of the core (R65 (a)). -/
  | tick
  /-- The completion step of the core (R65 (b), R67). -/
  | finish
deriving DecidableEq, Repr

/-- The machine: the two agents of R12 and what they share. -/
structure State where
  /-- The register window (R15). -/
  win : Window
  /-- The core's internal state (R31). -/
  eng : Engine
  /-- Message memory and its admission map (R41, R42). -/
  mm : MsgMem
  /-- `BASE`: the bus address of the window (R7, R15; log entry 5). -/
  base : Word
  /-- MODEL'S OWN (log entry 2): the events still to happen, the first one next. -/
  script : List Event
  /-- MODEL'S OWN (log entry 13): the values the host's register reads returned, the first read first (R13). -/
  observed : List Word
deriving DecidableEq, Repr

/-- Why the machine stops with a fault. -/
inductive Fault where
  /-- OPERAND_RACE (R151): the host wrote an MM byte that the command in flight reads. Raised by the `mem` event. Safe: the model
  stops where an implementation would go on with some mix of old and new bytes. -/
  | operandRace
deriving DecidableEq, Repr

/-- Why the model has no meaning for a step. -/
inductive Refusal where
  /-- Raised by an arm of `exec` for a command with no meaning yet. No arm raises it now. Safe. -/
  | notModelled (mnemonic : String)
  /-- A window access that is not an aligned 32-bit one (R51). Raised by the `write` and `read` events. Safe. -/
  | accessNotAligned32
  /-- A bus access outside the 256 bytes of the window (R15): it reaches some other device of the platform. Raised by the
  `write` and `read` events. Safe. -/
  | outsideWindow
deriving DecidableEq, Repr

/-- STATUS after reset (R40): 0x00000000. -/
def Status.reset : Status :=
  { busy := false, done := false, err := false, ovr := false, errcode := .none }

/-- The window after reset (R40): every stored register is zero. -/
def Window.reset : Window :=
  { ie := false, status := Status.reset, cmd := 0#32
    keyAddr := 0#32, keyLen := 0#32, priAddr := 0#32, priLen := 0#32, appAddr := 0#32, appLen := 0#32
    cntLo := 0#32, cntHi := 0#32, tsLo := 0#32, tsHi := 0#32
    dt0 := 0#32, dt1 := 0#32, rtcimg0 := 0#32, rtcimg1 := 0#32, rtcout0 := 0#32, rtcout1 := 0#32
    digest0 := 0#32, digest1 := 0#32, digest2 := 0#32, digest3 := 0#32, digest4 := 0#32
    otp := 0#32, leap := 0#32 }

/-- The internal state after reset (R39): IDLE, SINGLE, PEND empty; the rest is unspecified and set to 0 as R39 allows (log
entry 6). -/
def Engine.reset : Engine :=
  { phase := .idle, pass := .single, blkidx := 0, t := 0, op := 0#32
    h := ⟨0#32, 0#32, 0#32, 0#32, 0#32⟩
    work := ⟨0#32, 0#32, 0#32, 0#32, 0#32⟩
    w := List.replicate 80 0#32
    blk := List.replicate 64 0#8
    seg1 := ⟨.none, 0#32, 0⟩
    seg2 := ⟨.none, 0#32, 0⟩
    bufs := { ipad := List.replicate 64 0#8, opad := List.replicate 64 0#8,
              inner := List.replicate 20 0#8, cntbuf := List.replicate 8 0#8 }
    pend := []
    perr := .none }

/-- Message memory when the platform starts: nothing listed, so every byte reads 0 (log entry 7), and the admission map of the
platform of 95_test_vectors.md section 6, which admits the addresses below 0x01000000 (log entry 4). -/
def MsgMem.reset : MsgMem :=
  { cells := [], admits := [{ first := 0, size := 0x01000000 }] }

/-- The machine right after reset (R40, R144), with nothing scheduled and nothing observed. -/
def State.reset : State :=
  { win := Window.reset, eng := Engine.reset, mm := MsgMem.reset, base := 0#32, script := [], observed := [] }

end Sys2Proof.Machine
end

