-- ==== Sys2Proof/Machine/Flags.lean ====
section
/-! DEFINITION. The flags of the core: the STATUS word and what sets and clears its bits (10_state.md R19), the error codes
(60_exceptions.md R130) and the interrupt line (R134). -/

namespace Sys2Proof.Machine

/-- The number of an error code (R130). -/
def ErrCode.toBits : ErrCode → BitVec 4
  | .none => 0#4
  | .inputSize => 1#4
  | .processing => 2#4
  | .illegalCmd => 3#4
  | .busError => 4#4
  | .invalidHexChar => 5#4
  | .sizing => 6#4

/-- STATUS as the host reads it (R19): ERRCODE in [11:8], OVR, ERR, DONE and BUSY in bits 3 to 0, the rest zero. -/
def Status.toWord (f : Status) : Word :=
  0#20 ++ f.errcode.toBits ++ 0#4 ++ BitVec.ofBool f.ovr ++ BitVec.ofBool f.err ++ BitVec.ofBool f.done ++ BitVec.ofBool f.busy

/-- A host write of STATUS (R19): W1C of DONE, ERR and OVR; every other bit of the written value is ignored. -/
def Status.clear (f : Status) (v : Word) : Status :=
  { f with
    done := f.done && !v.getLsbD 1
    err := f.err && !v.getLsbD 2
    ovr := f.ovr && !v.getLsbD 3 }

/-- STATUS at the acceptance of a command (R63). -/
def Status.accepted (f : Status) : Status :=
  { f with busy := true, done := false, err := false, errcode := .none }

/-- STATUS after a CMD write that is not accepted (R64). -/
def Status.overrun (f : Status) : Status := { f with ovr := true }

/-- STATUS after a command that succeeded (R67). -/
def Status.succeeded (f : Status) : Status :=
  { f with busy := false, done := true, err := false, errcode := .none }

/-- STATUS after a command that failed with `code` (R67, R131). -/
def Status.failed (f : Status) (code : ErrCode) : Status :=
  { f with busy := false, done := true, err := true, errcode := code }

/-- CTRL as the host reads it (R18): IE in bit 0, all else zero. -/
def ctrlWord (ie : Bool) : Word := 0#31 ++ BitVec.ofBool ie

/-- The interrupt line, combinational (R38, R134): `irq = CTRL.IE ∧ STATUS.DONE`. -/
def State.irq (s : State) : Bool := s.win.ie && s.win.status.done

end Sys2Proof.Machine
end

