-- ==== Sys2Proof/Machine/Ops.lean ====
section
/-! DEFINITION. The named operations over message memory and the register window, the completion step with its two endings, the
acceptance of a command and the reset. A failing completion is what stands in this core for taking an exception (60_exceptions.md
R131, R135); the host's acknowledgement, a W1C of STATUS, is its only return (R136) and is `Status.clear`. -/

namespace Sys2Proof.Machine

/-! ## Message memory -/

/-- What an address the host never wrote reads as (R42 "the platform's initial content"; log entry 7). -/
def Memory.unlisted : Byte := 0#8

/-- The canonical form from address `lo` on: addresses strictly rising and below 2^32, no entry equal to `Memory.unlisted`. -/
def Memory.wfFrom (lo : Nat) : Memory → Bool
  | [] => true
  | (a, v) :: rest => decide (lo ≤ a) && decide (a < 2 ^ 32) && v != Memory.unlisted && Memory.wfFrom (a + 1) rest

/-- The canonical form of message memory. -/
def Memory.wf (m : Memory) : Bool := Memory.wfFrom 0 m

/-- The byte at an address. -/
def Memory.read (m : Memory) (a : Nat) : Byte :=
  match m with
  | [] => Memory.unlisted
  | (b, v) :: rest => if a = b then v else Memory.read rest a

/-- One byte written; the canonical form is kept. -/
def Memory.write (m : Memory) (a : Nat) (v : Byte) : Memory :=
  match m with
  | [] => if v = Memory.unlisted then [] else [(a, v)]
  | (b, u) :: rest =>
    if a < b then (if v = Memory.unlisted then (b, u) :: rest else (a, v) :: (b, u) :: rest)
    else if a = b then (if v = Memory.unlisted then rest else (a, v) :: rest)
    else (b, u) :: Memory.write rest a v

/-- A host memory write of consecutive bytes (R69 `MEM`); the address wraps mod 2^32 (R41; log entry 12). -/
def Memory.writeBytes (m : Memory) (a : Word) : List Byte → Memory
  | [] => m
  | v :: rest => Memory.writeBytes (Memory.write m a.toNat v) (a + 1#32) rest

/-- The address lies in the range. -/
def Region.holds (r : Region) (a : Nat) : Bool := decide (r.first ≤ a) && decide (a < r.first + r.size)

/-- `MM_ADMITS(a)` (R42). -/
def MsgMem.admitted (m : MsgMem) (a : Word) : Bool := m.admits.any fun r => r.holds a.toNat

/-- The byte at an MM address, admitted or not. -/
def MsgMem.byte (m : MsgMem) (a : Word) : Byte := Memory.read m.cells a.toNat

/-- R42: `MemRead(addr, 1)`: the byte, or BUS_ERROR where the address is not admitted. -/
def MsgMem.read (m : MsgMem) (a : Word) : Except ErrCode Byte :=
  if m.admitted a then .ok (m.byte a) else .error .busError

/-! ## The register window -/

/-- The bits of DT1 that are not reserved: YEAR [31:16] and MON [7:0] (R25). -/
def dt1Mask : Word := 0xFFFF00FF#32

/-- The bits of RTCIMG1 that are not reserved: [23:0] (R26). -/
def rtcimg1Mask : Word := 0x00FFFFFF#32

/-- The bit of LEAP that is not reserved: bit 0 (R30). -/
def leapMask : Word := 0x00000001#32

/-- A read of a register (R15 to R30): the stored value, its reserved bits zero (R16). -/
def Window.get (w : Window) : Reg → Word
  | .id => Config.idValue
  | .ctrl => ctrlWord w.ie
  | .status => w.status.toWord
  | .cmd => w.cmd
  | .keyAddr => w.keyAddr
  | .keyLen => w.keyLen
  | .priAddr => w.priAddr
  | .priLen => w.priLen
  | .appAddr => w.appAddr
  | .appLen => w.appLen
  | .cntLo => w.cntLo
  | .cntHi => w.cntHi
  | .tsLo => w.tsLo
  | .tsHi => w.tsHi
  | .dt0 => w.dt0
  | .dt1 => w.dt1 &&& dt1Mask
  | .rtcimg0 => w.rtcimg0
  | .rtcimg1 => w.rtcimg1 &&& rtcimg1Mask
  | .rtcout0 => w.rtcout0
  | .rtcout1 => w.rtcout1
  | .digest0 => w.digest0
  | .digest1 => w.digest1
  | .digest2 => w.digest2
  | .digest3 => w.digest3
  | .digest4 => w.digest4
  | .otp => w.otp
  | .leap => w.leap &&& leapMask

/-- A value stored in an operand or result register, less its reserved bits (R16, R21). ID, CTRL, STATUS and CMD are not stored
this way and stay as they are. -/
def Window.put (w : Window) (r : Reg) (v : Word) : Window :=
  match r with
  | .id => w
  | .ctrl => w
  | .status => w
  | .cmd => w
  | .keyAddr => { w with keyAddr := v }
  | .keyLen => { w with keyLen := v }
  | .priAddr => { w with priAddr := v }
  | .priLen => { w with priLen := v }
  | .appAddr => { w with appAddr := v }
  | .appLen => { w with appLen := v }
  | .cntLo => { w with cntLo := v }
  | .cntHi => { w with cntHi := v }
  | .tsLo => { w with tsLo := v }
  | .tsHi => { w with tsHi := v }
  | .dt0 => { w with dt0 := v }
  | .dt1 => { w with dt1 := v &&& dt1Mask }
  | .rtcimg0 => { w with rtcimg0 := v }
  | .rtcimg1 => { w with rtcimg1 := v &&& rtcimg1Mask }
  | .rtcout0 => { w with rtcout0 := v }
  | .rtcout1 => { w with rtcout1 := v }
  | .digest0 => { w with digest0 := v }
  | .digest1 => { w with digest1 := v }
  | .digest2 => { w with digest2 := v }
  | .digest3 => { w with digest3 := v }
  | .digest4 => { w with digest4 := v }
  | .otp => { w with otp := v }
  | .leap => { w with leap := v &&& leapMask }

/-- The pairs of a pending result set, written one after the other (R67). -/
def Window.putAll (w : Window) : List (Reg × Word) → Window
  | [] => w
  | (r, v) :: rest => Window.putAll (w.put r v) rest

/-! ## Acceptance, completion and reset -/

/-- The acceptance of a command word (R63). -/
def acceptCommand (v : Word) (s : State) : State :=
  { s with
    win := { s.win with cmd := v, status := s.win.status.accepted }
    eng := { s.eng with op := v, phase := .check, pend := [], perr := .none } }

/-- Completion of a command that succeeded with the pending result set `pend` (R67). -/
def succeedWith (pend : List (Reg × Word)) (s : State) : State :=
  { s with
    win := { s.win.putAll pend with status := s.win.status.succeeded }
    eng := { s.eng with phase := .idle } }

/-- Completion of a command that failed with `code` (R67, R131): STATUS alone changes in the window. -/
def failWith (code : ErrCode) (s : State) : State :=
  { s with
    win := { s.win with status := s.win.status.failed code }
    eng := { s.eng with phase := .idle } }

/-- The completion step (R67) for what `Exec` returned. -/
def complete (r : Except ErrCode (List (Reg × Word))) (s : State) : State :=
  match r with
  | .ok pend => succeedWith pend s
  | .error code => failWith code s

/-- The effect of either reset (R143, R144): the window and the internal state. Message memory and the host are not the core's. -/
def resetCore (s : State) : State :=
  { s with win := Window.reset, eng := Engine.reset }

end Sys2Proof.Machine
end

