-- ==== Sys2Proof/Machine/Operands.lean ====
section
/-! DEFINITION. How a command assembles its implicit operands from the registers of the window (30_encoding.md R59, R60;
10_state.md R22 to R26). -/

namespace Sys2Proof.Machine

/-- The key segment (R22). -/
def keySegment (w : Window) : Segment := ⟨.mm, w.keyAddr, w.keyLen.toNat⟩

/-- The primary segment, which is also the HMAC message (R22). -/
def priSegment (w : Window) : Segment := ⟨.mm, w.priAddr, w.priLen.toNat⟩

/-- The appendix segment (R22). -/
def appSegment (w : Window) : Segment := ⟨.mm, w.appAddr, w.appLen.toNat⟩

/-- The absent segment `(NONE, 0, 0)` (R75). -/
def noSegment : Segment := ⟨.none, 0#32, 0⟩

/-- The second segment of the SHA1 command (R75): the appendix if APP = 1. -/
def appendixOf (app : Bool) (w : Window) : Segment := if app then appSegment w else noSegment

/-- The HOTP counter `CNT_HI * 2^32 + CNT_LO` (R23). -/
def counterOf (w : Window) : Nat := w.cntHi.toNat * 2 ^ 32 + w.cntLo.toNat

/-- The timestamp `TS_HI * 2^32 + TS_LO` (R24). -/
def timestampOf (w : Window) : Nat := w.tsHi.toNat * 2 ^ 32 + w.tsLo.toNat

/-- A Datetime (R116): its fields as numbers. -/
structure Datetime where
  sec : Nat
  min : Nat
  hour : Nat
  day : Nat
  mon : Nat
  year : Nat
deriving DecidableEq, Repr

/-- The Datetime in DT0 and DT1 (R25). -/
def datetimeOf (w : Window) : Datetime :=
  { sec := (lane w.dt0 0).toNat
    min := (lane w.dt0 1).toNat
    hour := (lane w.dt0 2).toNat
    day := (lane w.dt0 3).toNat
    mon := (lane w.dt1 0).toNat
    year := (w.dt1.extractLsb' 16 16).toNat }

/-- DT0 of a Datetime (R120): `sec | min << 8 | hour << 16 | day << 24`. -/
def dt0Of (d : Datetime) : Word :=
  ofLanes (BitVec.ofNat 8 d.sec) (BitVec.ofNat 8 d.min) (BitVec.ofNat 8 d.hour) (BitVec.ofNat 8 d.day)

/-- DT1 of a Datetime (R120): `mon | year << 16`. -/
def dt1Of (d : Datetime) : Word :=
  BitVec.ofNat 16 d.year ++ 0#8 ++ BitVec.ofNat 8 d.mon

/-- The clock register image `img[0..7]` (R26, R49). -/
structure ClockImage where
  b0 : Byte
  b1 : Byte
  b2 : Byte
  b3 : Byte
  b4 : Byte
  b5 : Byte
  b6 : Byte
deriving DecidableEq, Repr

/-- The image in RTCIMG0 and RTCIMG1 (R26). -/
def clockImageOf (w : Window) : ClockImage :=
  { b0 := lane w.rtcimg0 0
    b1 := lane w.rtcimg0 1
    b2 := lane w.rtcimg0 2
    b3 := lane w.rtcimg0 3
    b4 := lane w.rtcimg1 0
    b5 := lane w.rtcimg1 1
    b6 := lane w.rtcimg1 2 }

/-- The pending writes of DT0 and DT1 (R120). -/
def pendDatetime (d : Datetime) : List (Reg × Word) := [(.dt0, dt0Of d), (.dt1, dt1Of d)]

/-- The pending writes of TS_LO and TS_HI (R124). -/
def pendTimestamp (ts : Nat) : List (Reg × Word) :=
  [(.tsLo, BitVec.ofNat 32 (ts % 2 ^ 32)), (.tsHi, BitVec.ofNat 32 (ts / 2 ^ 32))]

/-- The pending writes of DIGEST0 to DIGEST4 (R75, R28). -/
def pendDigest (h : HashState) : List (Reg × Word) :=
  [(.digest0, h.h0), (.digest1, h.h1), (.digest2, h.h2), (.digest3, h.h3), (.digest4, h.h4)]

end Sys2Proof.Machine
end

