-- ==== Sys2Proof/Machine/Calendar.lean ====
section
/-! DEFINITION. The BCD-to-Unix-timestamp converter (44_calendar.md R111 to R128): BCD, the leap-year rule, the clock image, the
two conversions and the six calendar commands. -/

namespace Sys2Proof.Machine

/-! ## Primitives -/

/-- R111: BCD decode of a byte. -/
def bcd (v : Byte) : Nat := (v >>> 4).toNat * 10 + (v &&& 0x0f#8).toNat

/-- R112: BCD encode of 0..99. -/
def toBcd (n : Nat) : Byte := (BitVec.ofNat 8 (n / 10) <<< 4) ||| BitVec.ofNat 8 (n % 10)

/-- R113: the leap-year rule. -/
def isLeap (y : Nat) : Bool := (y % 4 == 0 && y % 100 != 0) || y % 400 == 0

/-- R114. -/
def daysInYear (y : Nat) : Nat := if isLeap y then 366 else 365

/-- R115: the month lengths. No command evaluates it outside 1 ≤ m ≤ 12. -/
def daysInMonth (m y : Nat) : Nat :=
  if m = 2 then (if isLeap y then 29 else 28)
  else if m = 4 ∨ m = 6 ∨ m = 9 ∨ m = 11 then 30
  else 31

/-- R116: a Datetime is well formed. -/
def Datetime.wf (d : Datetime) : Bool :=
  decide (d.sec ≤ 59) && decide (d.min ≤ 59) && decide (d.hour ≤ 23) &&
  decide (1 ≤ d.mon) && decide (d.mon ≤ 12) &&
  decide (1 ≤ d.day) && decide (d.day ≤ daysInMonth d.mon d.year) &&
  decide (Config.calYearMin ≤ d.year) && decide (d.year ≤ Config.calYearMax)

/-! ## The clock register image -/

/-- The low nibble of a byte. -/
def lowNibble (v : Byte) : Nat := (v &&& 0x0f#8).toNat

/-- R118: the tens digit and units of the hours byte: bits 5:4 in 24-hour mode, bit 4 in 12-hour mode. -/
def hourDigits (h : Byte) : Nat :=
  if h.getLsbD 6 then (h.extractLsb' 4 1).toNat * 10 + lowNibble h
  else (h.extractLsb' 4 2).toNat * 10 + lowNibble h

/-- R118: `hour_of(h)`, the hour 0..23 of the hours byte. -/
def hourOf (h : Byte) : Nat :=
  if h.getLsbD 6 then hourDigits h % 12 + 12 * (h.extractLsb' 5 1).toNat
  else hourDigits h

/-- R118: `ok_h`. -/
def hourOk (h : Byte) : Bool :=
  if h.getLsbD 6 then decide (lowNibble h ≤ 9) && decide (1 ≤ hourDigits h) && decide (hourDigits h ≤ 12)
  else decide (lowNibble h ≤ 9) && decide (hourDigits h ≤ 23)

/-- R117: the Datetime a clock image decodes to. -/
def decodeImage (g : ClockImage) : Datetime :=
  { sec := bcd g.b0
    min := bcd g.b1
    hour := hourOf g.b2
    day := bcd g.b4
    mon := (g.b5.extractLsb' 4 1).toNat * 10 + lowNibble g.b5
    year := 1900 + 100 * (g.b5.extractLsb' 7 1).toNat + bcd g.b6 }

/-- R119: an image is well formed. -/
def ClockImage.wf (g : ClockImage) : Bool :=
  decide (lowNibble g.b0 ≤ 9) && decide (lowNibble g.b1 ≤ 9) && decide (lowNibble g.b4 ≤ 9) && decide (lowNibble g.b6 ≤ 9) &&
  decide ((g.b6 >>> 4).toNat ≤ 9) && decide (lowNibble g.b5 ≤ 9) && hourOk g.b2 && (decodeImage g).wf

/-- R121: the century bit, set iff year ≥ 2000. -/
def centuryBit (year : Nat) : Byte := if 2000 ≤ year then 0x80#8 else 0x00#8

/-- The 8-byte clock write image `out[0..8]` (R121). -/
structure WriteImage where
  o0 : Byte
  o1 : Byte
  o2 : Byte
  o3 : Byte
  o4 : Byte
  o5 : Byte
  o6 : Byte
  o7 : Byte
deriving DecidableEq, Repr

/-- R121: the write image of a Datetime, in 24-hour mode. -/
def encodeDatetime (d : Datetime) : WriteImage :=
  { o0 := Config.rtcDestReg
    o1 := toBcd d.sec
    o2 := toBcd d.min
    o3 := toBcd d.hour
    o4 := Config.dowFill
    o5 := toBcd d.day
    o6 := toBcd d.mon ||| centuryBit d.year
    o7 := toBcd (d.year % 100) }

/-! ## Datetime and Unix timestamp -/

/-- R123: the days of the full years from 1970 to `year - 1`. -/
def daysBeforeYear (year : Nat) : Nat :=
  ((List.range (year - Config.epochYear)).map fun k => daysInYear (Config.epochYear + k)).sum

/-- R123: the days of the months before `mon`. -/
def daysBeforeMonth (mon year : Nat) : Nat :=
  ((List.range (mon - 1)).map fun k => daysInMonth (k + 1) year).sum

/-- R123: `to_unix(dt)`, with `day − 1` (90_conflicts.md C9). -/
def toUnix (d : Datetime) : Nat :=
  (daysBeforeYear d.year + daysBeforeMonth d.mon d.year + (d.day - 1)) * 86400 + d.hour * 3600 + d.min * 60 + d.sec

/-- R125: the year loop, with `>=` (90_conflicts.md C8), as (days left, year). A pass takes at least one day off, so `fuel` as
large as `days` never runs out. -/
def yearLoop (fuel days year : Nat) : Nat × Nat :=
  match fuel with
  | 0 => (days, year)
  | k + 1 => if daysInYear year ≤ days then yearLoop k (days - daysInYear year) (year + 1) else (days, year)

/-- R125: the month loop, with `>=`, as (days left, month). Twelve passes are one year. -/
def monthLoop (fuel days mon year : Nat) : Nat × Nat :=
  match fuel with
  | 0 => (days, mon)
  | k + 1 => if daysInMonth mon year ≤ days then monthLoop k (days - daysInMonth mon year) (mon + 1) year else (days, mon)

/-- R125: `from_unix(ts)`. -/
def fromUnix (ts : Nat) : Datetime :=
  let rem := ts % 86400
  let y := yearLoop (ts / 86400) (ts / 86400) Config.epochYear
  let m := monthLoop 12 y.1 1 y.2
  { sec := rem % 60
    min := rem % 3600 / 60
    hour := rem / 3600
    day := m.1 + 1
    mon := m.2
    year := y.2 }

/-! ## The commands -/

/-- R120: `RTC_DECODE_exec(R)`. -/
def rtcDecodeResult (w : Window) : Except ErrCode (List (Reg × Word)) :=
  if (clockImageOf w).wf then .ok (pendDatetime (decodeImage (clockImageOf w))) else .error .processing

/-- R122: the pending writes of RTCOUT0 and RTCOUT1. -/
def pendWriteImage (g : WriteImage) : List (Reg × Word) :=
  [(.rtcout0, ofLanes g.o0 g.o1 g.o2 g.o3), (.rtcout1, ofLanes g.o4 g.o5 g.o6 g.o7)]

/-- R122: `RTC_ENCODE_exec(R)`. -/
def rtcEncodeResult (w : Window) : Except ErrCode (List (Reg × Word)) :=
  if (datetimeOf w).wf then .ok (pendWriteImage (encodeDatetime (datetimeOf w))) else .error .processing

/-- R124: `DT_TO_UNIX_exec(R)`. -/
def dtToUnixResult (w : Window) : Except ErrCode (List (Reg × Word)) :=
  if (datetimeOf w).wf && decide (Config.epochYear ≤ (datetimeOf w).year) then .ok (pendTimestamp (toUnix (datetimeOf w)))
  else .error .processing

/-- R126: `UNIX_TO_DT_exec(R)`. -/
def unixToDtResult (w : Window) : Except ErrCode (List (Reg × Word)) :=
  if timestampOf w ≤ Config.tsMax then .ok (pendDatetime (fromUnix (timestampOf w))) else .error .processing

/-- R127: `RTC_TO_UNIX_exec(R)`. -/
def rtcToUnixResult (w : Window) : Except ErrCode (List (Reg × Word)) :=
  if (clockImageOf w).wf && decide (Config.epochYear ≤ (decodeImage (clockImageOf w)).year) then
    .ok (pendDatetime (decodeImage (clockImageOf w)) ++ pendTimestamp (toUnix (decodeImage (clockImageOf w))))
  else .error .processing

/-- R128: `LEAP_exec(R)`. -/
def leapResult (w : Window) : Except ErrCode (List (Reg × Word)) :=
  .ok [(.leap, if isLeap (datetimeOf w).year then 1#32 else 0#32)]

/-- RTC_DECODE (R120): clock image to Datetime. -/
def execRtcDecode (s : State) : Host.Outcome State Fault Refusal := .next (complete (rtcDecodeResult s.win) s)

/-- RTC_ENCODE (R122): Datetime to clock write image. -/
def execRtcEncode (s : State) : Host.Outcome State Fault Refusal := .next (complete (rtcEncodeResult s.win) s)

/-- DT_TO_UNIX (R124): Datetime to timestamp. -/
def execDtToUnix (s : State) : Host.Outcome State Fault Refusal := .next (complete (dtToUnixResult s.win) s)

/-- UNIX_TO_DT (R126): timestamp to Datetime. -/
def execUnixToDt (s : State) : Host.Outcome State Fault Refusal := .next (complete (unixToDtResult s.win) s)

/-- RTC_TO_UNIX (R127): clock image to timestamp. -/
def execRtcToUnix (s : State) : Host.Outcome State Fault Refusal := .next (complete (rtcToUnixResult s.win) s)

/-- LEAP (R128): the leap-year predicate. -/
def execLeap (s : State) : Host.Outcome State Fault Refusal := .next (complete (leapResult s.win) s)

end Sys2Proof.Machine
end

