-- ==== Sys2Proof/Machine/Sha1.lean ====
section
/-! DEFINITION. The SHA-1 message-schedule and compression pipeline as one function of its two segments (41_sha1.md R76 to R91),
and the SHA1 command (R75). -/

namespace Sys2Proof.Machine

/-! ## Rounds -/

/-- R84: `choose`. -/
def choose (x y z : Word) : Word := (x &&& y) ||| (~~~x &&& z)

/-- R84: `parity`. -/
def parity (x y z : Word) : Word := x ^^^ y ^^^ z

/-- R84: `majority`. -/
def majority (x y z : Word) : Word := (x &&& y) ||| (x &&& z) ||| (y &&& z)

/-- R84: the round function `f(t, x, y, z)`. -/
def roundFun (t : Nat) (x y z : Word) : Word :=
  if t < 20 then choose x y z
  else if t < 40 then parity x y z
  else if t < 60 then majority x y z
  else parity x y z

/-- R85: the round constant `K(t)`. -/
def roundConst (t : Nat) : Word :=
  if t < 20 then 0x5a827999#32
  else if t < 40 then 0x6ed9eba1#32
  else if t < 60 then 0x8f1bbcdc#32
  else 0xca62c1d6#32

/-- R86: round `t` with schedule word `wt`. -/
def sha1Round (t : Nat) (wt : Word) (v : Working) : Working :=
  { a := rotl32 v.a 5 + roundFun t v.b v.c v.d + v.e + roundConst t + wt
    b := v.a
    c := rotl32 v.b 30
    d := v.c
    e := v.d }

/-- R91: the rounds from `t` on, one for each of the schedule words left. -/
def sha1Rounds (t : Nat) (ws : List Word) (v : Working) : Working :=
  match ws with
  | [] => v
  | wt :: rest => sha1Rounds (t + 1) rest (sha1Round t wt v)

/-- R82: schedule words 0 to 15, the big-endian groups of four bytes of the block. -/
def blockWords (blk : List Byte) : List Word :=
  match blk with
  | b0 :: b1 :: b2 :: b3 :: rest => be32 [b0, b1, b2, b3] :: blockWords rest
  | _ => []

/-- R83: `n` more schedule words; the words so far stand newest first, so W[t-3] is number 2. -/
def extendSchedule (n : Nat) (newestFirst : List Word) : List Word :=
  match n with
  | 0 => newestFirst
  | k + 1 =>
    extendSchedule k
      (rotl32 (newestFirst.getD 2 0#32 ^^^ newestFirst.getD 7 0#32 ^^^ newestFirst.getD 13 0#32 ^^^ newestFirst.getD 15 0#32) 1
        :: newestFirst)

/-- R82, R83: the schedule W[0..80] of a block. -/
def schedule (blk : List Byte) : List Word := (extendSchedule 64 (blockWords blk).reverse).reverse

/-- R89: the initial HashState. -/
def initialHash : HashState := ⟨0x67452301#32, 0xefcdab89#32, 0x98badcfe#32, 0x10325476#32, 0xc3d2e1f0#32⟩

/-- R87: the working variables at the start of a block. -/
def loadWorking (h : HashState) : Working := ⟨h.h0, h.h1, h.h2, h.h3, h.h4⟩

/-- R88: the working variables added into the HashState. -/
def addWorking (h : HashState) (v : Working) : HashState :=
  ⟨h.h0 + v.a, h.h1 + v.b, h.h2 + v.c, h.h3 + v.d, h.h4 + v.e⟩

/-- R81 to R88: one block of the message. -/
def compress (h : HashState) (blk : List Byte) : HashState :=
  addWorking h (sha1Rounds 0 (schedule blk) (loadWorking h))

/-- R90: the Digest, the big-endian bytes of the five words. -/
def digestBytes (h : HashState) : List Byte :=
  be32bytes h.h0 ++ be32bytes h.h1 ++ be32bytes h.h2 ++ be32bytes h.h3 ++ be32bytes h.h4

/-! ## The virtual padded message -/

/-- R77: the number of zero pad bytes, `(55 − (L mod 64)) mod 64` (90_conflicts.md C1). -/
def padLen (len : Nat) : Nat := (55 + (64 - len % 64)) % 64

/-- R78: the number of blocks. -/
def blockCount (len : Nat) : Nat := (len + padLen len + 1 + 8) / 64

/-- R76: `L`; the absent segment has length 0. -/
def messageLen (seg1 seg2 : Segment) : Nat := seg1.len + seg2.len

/-- R80: byte `i` of a segment. The absent segment has no byte. -/
def segByte (m : MsgMem) (bufs : Buffers) (seg : Segment) (i : Nat) : Except ErrCode Byte :=
  match seg.src with
  | .mm => m.read (seg.base + BitVec.ofNat 32 i)
  | .ipad => .ok (bufs.ipad.getD i 0#8)
  | .opad => .ok (bufs.opad.getD i 0#8)
  | .inner => .ok (bufs.inner.getD i 0#8)
  | .cntbuf => .ok (bufs.cntbuf.getD i 0#8)
  | .none => .ok 0#8

/-- R79: byte `j` of the virtual padded message, resolved on demand. -/
def virtualByte (m : MsgMem) (bufs : Buffers) (seg1 seg2 : Segment) (j : Nat) : Except ErrCode Byte :=
  let len := messageLen seg1 seg2
  if j < seg1.len then segByte m bufs seg1 j
  else if j < len then segByte m bufs seg2 (j - seg1.len)
  else if j = len then .ok 0x80#8
  else if j < len + 1 + padLen len then .ok 0x00#8
  else .ok ((be64bytes (len * 8)).getD (j - (len + 1 + padLen len)) 0#8)

/-- `n` bytes of a byte source from index `i` on, in increasing index order (R45); the first byte refused ends the reading. -/
def readBytes (source : Nat → Except ErrCode Byte) (i n : Nat) : Except ErrCode (List Byte) :=
  match n with
  | 0 => .ok []
  | k + 1 =>
    match source i with
    | .error code => .error code
    | .ok b =>
      match readBytes source (i + 1) k with
      | .error code => .error code
      | .ok rest => .ok (b :: rest)

/-- R81: block `b` of the virtual padded message. -/
def readBlock (m : MsgMem) (bufs : Buffers) (seg1 seg2 : Segment) (b : Nat) : Except ErrCode (List Byte) :=
  readBytes (virtualByte m bufs seg1 seg2) (64 * b) 64

/-- R91: `n` blocks from block `b` on, in increasing order. -/
def hashBlocks (m : MsgMem) (bufs : Buffers) (seg1 seg2 : Segment) (b n : Nat) (h : HashState) : Except ErrCode HashState :=
  match n with
  | 0 => .ok h
  | k + 1 =>
    match readBlock m bufs seg1 seg2 b with
    | .error code => .error code
    | .ok blk => hashBlocks m bufs seg1 seg2 (b + 1) k (compress h blk)

/-- R91: `sha1_digest_words(seg1, seg2)`. -/
def sha1DigestWords (m : MsgMem) (bufs : Buffers) (seg1 seg2 : Segment) : Except ErrCode HashState :=
  hashBlocks m bufs seg1 seg2 0 (blockCount (messageLen seg1 seg2)) initialHash

/-! ## The command -/

/-- The buffers of a command that builds none of them (R75 reads message memory only). -/
def noBuffers : Buffers := { ipad := [], opad := [], inner := [], cntbuf := [] }

/-- R75: `SHA1_exec(app, R, M)`. -/
def sha1Result (app : Bool) (w : Window) (m : MsgMem) : Except ErrCode (List (Reg × Word)) :=
  match sha1DigestWords m noBuffers (priSegment w) (appendixOf app w) with
  | .error code => .error code
  | .ok h => .ok (pendDigest h)

/-- SHA1 (R75): the digest of primary ++ appendix. -/
def execSha1 (app : Bool) (s : State) : Host.Outcome State Fault Refusal :=
  .next (complete (sha1Result app s.win s.mm) s)

end Sys2Proof.Machine
end

