-- ==== Sys2Proof/Machine/Hmac.lean ====
section
/-! DEFINITION. The HMAC-SHA1 dual-invocation controller (42_hmac.md R95 to R99) and the HMAC command (R94). -/

namespace Sys2Proof.Machine

/-- R96: a pad filled with `fill`, each position the key covers XORed with its key byte. -/
def keyPad (fill : Byte) (key : List Byte) : List Byte :=
  key.map (fun k => fill ^^^ k) ++ List.replicate (64 - key.length) fill

/-- R96: the bytes of the key segment, each read once, in increasing order. -/
def readKey (m : MsgMem) (bufs : Buffers) (keySeg : Segment) : Except ErrCode (List Byte) :=
  readBytes (segByte m bufs keySeg) 0 keySeg.len

/-- R96: IPAD and OPAD of a key. -/
def withPads (bufs : Buffers) (key : List Byte) : Buffers :=
  { bufs with ipad := keyPad 0x36#8 key, opad := keyPad 0x5c#8 key }

/-- The segment `(IPAD, 0, 64)` (R97). -/
def ipadSegment : Segment := ⟨.ipad, 0#32, 64⟩

/-- The segment `(OPAD, 0, 64)` (R98). -/
def opadSegment : Segment := ⟨.opad, 0#32, 64⟩

/-- The segment `(INNER, 0, 20)` (R98). -/
def innerSegment : Segment := ⟨.inner, 0#32, 20⟩

/-- R99: `hmac_core(keyseg, msgseg)`, as the five words whose big-endian bytes are the Digest (R90). `bufs` holds CNTBUF where the
message is the counter. -/
def hmacCore (m : MsgMem) (bufs : Buffers) (keySeg msgSeg : Segment) : Except ErrCode HashState :=
  match readKey m bufs keySeg with
  | .error code => .error code
  | .ok key =>
    let padded := withPads bufs key
    match sha1DigestWords m padded ipadSegment msgSeg with
    | .error code => .error code
    | .ok inner => sha1DigestWords m { padded with inner := digestBytes inner } opadSegment innerSegment

/-- R94: `HMAC_exec(R, M)`. -/
def hmacResult (w : Window) (m : MsgMem) : Except ErrCode (List (Reg × Word)) :=
  if Config.hmacKeyMax < w.keyLen.toNat then .error .inputSize
  else
    match hmacCore m noBuffers (keySegment w) (priSegment w) with
    | .error code => .error code
    | .ok h => .ok (pendDigest h)

/-- HMAC (R94): a keyed digest of a message in message memory. -/
def execHmac (s : State) : Host.Outcome State Fault Refusal :=
  .next (complete (hmacResult s.win s.mm) s)

end Sys2Proof.Machine
end

