-- ==== Sys2Proof/Machine/Otp.lean ====
section
/-! DEFINITION. The HOTP/TOTP counter-to-passcode truncator (43_otp.md R101 to R107) and the commands HOTP (R108) and TOTP
(R110). -/

namespace Sys2Proof.Machine

/-- The checks of HOTP and TOTP in the order of R103: the key limit (R101), then the digit count (R102). -/
def otpChecks (dig : Nat) (w : Window) : Except ErrCode Unit :=
  if Config.hotpKeyMax < w.keyLen.toNat then .error .inputSize
  else if Config.digitsMin ≤ dig ∧ dig ≤ Config.digitsMax then .ok ()
  else .error .processing

/-- R105: the dynamic truncation of the 20-byte HMAC result. -/
def truncateDigest (hs : List Byte) : Nat :=
  let offset := (hs.getD 19 0#8 &&& 0x0f#8).toNat
  let p := be32 ((hs.drop offset).take 4)
  (p &&& 0x7fffffff#32).toNat

/-- R107: the passcode. -/
def passcode (dig : Nat) (hs : List Byte) : Nat := truncateDigest hs % 10 ^ dig

/-- The segment `(CNTBUF, 0, 8)` (R104). -/
def counterSegment : Segment := ⟨.cntbuf, 0#32, 8⟩

/-- R104: the buffers with CNTBUF holding the counter. -/
def withCounter (bufs : Buffers) (counter : Nat) : Buffers := { bufs with cntbuf := be64bytes counter }

/-- The pending writes of HOTP and TOTP for the HMAC result `h` (R108). -/
def pendOtp (dig : Nat) (h : HashState) : List (Reg × Word) :=
  pendDigest h ++ [(.otp, BitVec.ofNat 32 (passcode dig (digestBytes h)))]

/-- R108: `HOTP_exec(d, R, M)` for a counter; TOTP delegates to it (R110). -/
def otpResult (dig counter : Nat) (w : Window) (m : MsgMem) : Except ErrCode (List (Reg × Word)) :=
  match otpChecks dig w with
  | .error code => .error code
  | .ok _ =>
    match hmacCore m (withCounter noBuffers counter) (keySegment w) counterSegment with
    | .error code => .error code
    | .ok h => .ok (pendOtp dig h)

/-- R110: TOTP's counter, `now div TOTP_STEP`. -/
def totpCounter (w : Window) : Nat := timestampOf w / Config.totpStep

/-- R108: HOTP on the counter registers. -/
def hotpResult (dig : Nat) (w : Window) (m : MsgMem) : Except ErrCode (List (Reg × Word)) :=
  otpResult dig (counterOf w) w m

/-- R110: TOTP on the timestamp registers. -/
def totpResult (dig : Nat) (w : Window) (m : MsgMem) : Except ErrCode (List (Reg × Word)) :=
  otpResult dig (totpCounter w) w m

/-- HOTP (R108): a passcode from a key and a counter. -/
def execHotp (dig : Nat) (s : State) : Host.Outcome State Fault Refusal :=
  .next (complete (hotpResult dig s.win s.mm) s)

/-- TOTP (R110): a passcode from a key and a Unix time. -/
def execTotp (dig : Nat) (s : State) : Host.Outcome State Fault Refusal :=
  .next (complete (totpResult dig s.win s.mm) s)

end Sys2Proof.Machine
end

