-- ==== Sys2Proof/Machine/Dispatch.lean ====
section
/-! DEFINITION. One arm per constructor of Instr: the effect of a command at its completion step (30_encoding.md R66, R67). -/

namespace Sys2Proof.Machine

def exec (i : Instr) (s : State) : Host.Outcome State Fault Refusal :=
  match i with
  | .sha1 app => Sys2Proof.Machine.execSha1 app s
  | .hmac => Sys2Proof.Machine.execHmac s
  | .hotp dig => Sys2Proof.Machine.execHotp dig s
  | .totp dig => Sys2Proof.Machine.execTotp dig s
  | .rtcDecode => Sys2Proof.Machine.execRtcDecode s
  | .rtcEncode => Sys2Proof.Machine.execRtcEncode s
  | .dtToUnix => Sys2Proof.Machine.execDtToUnix s
  | .unixToDt => Sys2Proof.Machine.execUnixToDt s
  | .rtcToUnix => Sys2Proof.Machine.execRtcToUnix s
  | .leap => Sys2Proof.Machine.execLeap s

end Sys2Proof.Machine
end

