-- ==== Sys2Proof/WellFormed.lean ====
section
/-! DEFINITION. Which instructions a command word can encode (30_encoding.md R58): DIG is a 4-bit unsigned field. A digit count
outside 1..9 is still well formed: R59 checks it when the command executes. -/

namespace Sys2Proof

/-- The check a command must pass to have an encoding: its DIG fits the four bits [11:8] (R58, log entry 16). -/
def Instr.wellFormed : Instr → Bool
  | .hotp dig => decide (dig < 16)
  | .totp dig => decide (dig < 16)
  | .sha1 _ => true
  | .hmac => true
  | .rtcDecode => true
  | .rtcEncode => true
  | .dtToUnix => true
  | .unixToDt => true
  | .rtcToUnix => true
  | .leap => true

end Sys2Proof
end

