-- ==== Sys2Proof/Decode.lean ====
section
/-! DEFINITION. The decoder of the 32-bit command word, total and rejecting by name (30_encoding.md R58 to R62), and the encoder
written from the same table. -/

namespace Sys2Proof

/-- Why a command word is illegal: the clauses (a) to (d) of R61. -/
inductive DecodeError where
  /-- (a) OP is 0x00 or in 0x0B..0xFF. -/
  | reservedOpcode
  /-- (b) a bit of SBZ [31:13] is 1. -/
  | sbzNotZero
  /-- (c) DIG is not 0 for an opcode that does not use it. -/
  | digNotZero
  /-- (d) APP is 1 for an opcode that does not use it. -/
  | appNotZero
deriving DecidableEq, Repr

/-- OP, bits [7:0] of the command word (R58). -/
def opField (w : Word) : BitVec 8 := w.extractLsb' 0 8

/-- DIG, bits [11:8] (R58). -/
def digField (w : Word) : BitVec 4 := w.extractLsb' 8 4

/-- APP, bit [12] (R58). -/
def appField (w : Word) : Bool := w.getLsbD 12

/-- SBZ, bits [31:13] (R58). -/
def sbzField (w : Word) : BitVec 19 := w.extractLsb' 13 19

/-- R62: `legal(w)`, as the rule writes it. -/
def legal (w : Word) : Bool :=
  sbzField w == 0#19 &&
    ((opField w == 0x01#8 && digField w == 0#4) ||
     ((opField w == 0x03#8 || opField w == 0x04#8) && !appField w) ||
     ((opField w == 0x02#8 || opField w == 0x05#8 || opField w == 0x06#8 || opField w == 0x07#8 ||
       opField w == 0x08#8 || opField w == 0x09#8 || opField w == 0x0A#8) &&
       digField w == 0#4 && !appField w))

/-- A command that uses neither DIG nor APP: both must be 0 (R61 (c), (d)). -/
def plainCommand (i : Instr) (w : Word) : Except DecodeError Instr :=
  if digField w ≠ 0#4 then .error .digNotZero
  else if appField w then .error .appNotZero
  else .ok i

/-- A command that uses DIG and not APP (R60, R61 (d)). -/
def digitCommand (mk : Nat → Instr) (w : Word) : Except DecodeError Instr :=
  if appField w then .error .appNotZero else .ok (mk (digField w).toNat)

/-- R60, R62: the command a word selects, or the clause of R61 that makes the word illegal. -/
def decode (w : Word) : Except DecodeError Instr :=
  if sbzField w ≠ 0#19 then .error .sbzNotZero
  else
    match (opField w).toNat with
    | 0x01 => if digField w ≠ 0#4 then .error .digNotZero else .ok (.sha1 (appField w))
    | 0x02 => plainCommand .hmac w
    | 0x03 => digitCommand .hotp w
    | 0x04 => digitCommand .totp w
    | 0x05 => plainCommand .rtcDecode w
    | 0x06 => plainCommand .rtcEncode w
    | 0x07 => plainCommand .dtToUnix w
    | 0x08 => plainCommand .unixToDt w
    | 0x09 => plainCommand .rtcToUnix w
    | 0x0A => plainCommand .leap w
    | _ => .error .reservedOpcode

/-- The instruction the decoder reads from a word of the opcode table, its bits numbered as the table numbers them. The one
format is the 32-bit word (R58), so the bits above `nbits` are 0 and no longer row exists. -/
def decodeTableWord (nbits w : Nat) : Option Instr :=
  if 32 < nbits then none
  else
    match decode (BitVec.ofNat 32 (w % 2 ^ nbits)) with
    | .ok i => some i
    | .error _ => none

/-- The opcode of a command (R60, column OP). -/
def opcode : Instr → BitVec 8
  | .sha1 _ => 0x01#8
  | .hmac => 0x02#8
  | .hotp _ => 0x03#8
  | .totp _ => 0x04#8
  | .rtcDecode => 0x05#8
  | .rtcEncode => 0x06#8
  | .dtToUnix => 0x07#8
  | .unixToDt => 0x08#8
  | .rtcToUnix => 0x09#8
  | .leap => 0x0A#8

/-- The DIG field of a command's word (R59). -/
def encodeDig : Instr → BitVec 4
  | .sha1 _ => 0#4
  | .hmac => 0#4
  | .hotp dig => BitVec.ofNat 4 dig
  | .totp dig => BitVec.ofNat 4 dig
  | .rtcDecode => 0#4
  | .rtcEncode => 0#4
  | .dtToUnix => 0#4
  | .unixToDt => 0#4
  | .rtcToUnix => 0#4
  | .leap => 0#4

/-- The APP bit of a command's word (R59). -/
def encodeApp : Instr → Bool
  | .sha1 app => app
  | .hmac => false
  | .hotp _ => false
  | .totp _ => false
  | .rtcDecode => false
  | .rtcEncode => false
  | .dtToUnix => false
  | .unixToDt => false
  | .rtcToUnix => false
  | .leap => false

/-- The command word of an instruction: SBZ, APP, DIG, OP from the top bit down (R58). -/
def encode (i : Instr) : Word := 0#19 ++ BitVec.ofBool (encodeApp i) ++ encodeDig i ++ opcode i

end Sys2Proof
end

