-- ==== Sys2Proof/Machine/Pipeline.lean ====
section
/-! DEFINITION. The core's internal steps (30_encoding.md R65 (a)): the sequencer takes the latched command through the phases
CHECK, KEYLOAD, HASH, TRUNC, CAL and COMMIT, block by block and round by round (10_state.md R35; 41_sha1.md R91; 42_hmac.md R99).
An internal step reads the operand registers and message memory and changes the internal state alone. The completion step does
not read what these steps built: it evaluates R66's `Exec`, and that both give the same result (R31) is a statement
(log entry 3). Where no rule says which phase a piece of work belongs to or which phase follows, the choice is the model's
(DESIGN CHOICE, log entry 20). -/

namespace Sys2Proof.Machine

/-- The command raised an error: PEND stays empty (R131, R133), and the sequencer waits in COMMIT (DESIGN CHOICE, log entry 20). -/
def Engine.abort (e : Engine) (code : ErrCode) : Engine :=
  { e with phase := .commit, pend := [], perr := code }

/-- The command succeeded: its pending result set waits for the completion step (R67), in COMMIT (DESIGN CHOICE, log entry 20). -/
def Engine.settle (e : Engine) (pend : List (Reg × Word)) : Engine :=
  { e with phase := .commit, pend := pend, perr := .none }

/-- The start of an engine invocation over two segments (R91): the initial HashState (R89), block 0, round 0. -/
def Engine.startHash (e : Engine) (pass : Pass) (seg1 seg2 : Segment) : Engine :=
  { e with phase := .hash, pass := pass, blkidx := 0, t := 0, h := initialHash, seg1 := seg1, seg2 := seg2 }

/-- The counter of HOTP or TOTP goes to CNTBUF once its checks have passed (R103, R104), in CHECK (DESIGN CHOICE, log entry 20). -/
def Engine.startOtp (e : Engine) (dig counter : Nat) (w : Window) : Engine :=
  match otpChecks dig w with
  | .error code => e.abort code
  | .ok _ => { e with phase := .keyload, bufs := withCounter e.bufs counter }

/-- Phase CHECK: the command word is decoded (R61, R133), and HMAC, HOTP and TOTP check their key limit and digit count. That these
checks stand in CHECK, and that a calendar command makes none here and goes on to CAL, is a DESIGN CHOICE (log entry 20). -/
def tickCheck (w : Window) (e : Engine) : Engine :=
  match decode e.op with
  | .error _ => e.abort .illegalCmd
  | .ok (.sha1 app) => e.startHash .single (priSegment w) (appendixOf app w)
  | .ok .hmac => if Config.hmacKeyMax < w.keyLen.toNat then e.abort .inputSize else { e with phase := .keyload }
  | .ok (.hotp dig) => e.startOtp dig (counterOf w) w
  | .ok (.totp dig) => e.startOtp dig (totpCounter w) w
  | .ok .rtcDecode => { e with phase := .cal }
  | .ok .rtcEncode => { e with phase := .cal }
  | .ok .dtToUnix => { e with phase := .cal }
  | .ok .unixToDt => { e with phase := .cal }
  | .ok .rtcToUnix => { e with phase := .cal }
  | .ok .leap => { e with phase := .cal }

/-- The HMAC message segment of the latched command (R94, R104): the primary segment for HMAC, CNTBUF for HOTP and TOTP. -/
def messageSegment (op : Word) (w : Window) : Segment :=
  match decode op with
  | .ok (.hotp _) => counterSegment
  | .ok (.totp _) => counterSegment
  | _ => priSegment w

/-- Phase KEYLOAD: the pads are built from the key (R96) and the inner invocation starts (R97). -/
def tickKeyload (w : Window) (m : MsgMem) (e : Engine) : Engine :=
  match readKey m e.bufs (keySegment w) with
  | .error code => e.abort code
  | .ok key => { e with bufs := withPads e.bufs key }.startHash .inner ipadSegment (messageSegment e.op w)

/-- The end of an engine invocation: HASH again for the outer pass (R99), TRUNC for a passcode (R105), and COMMIT for a digest (DESIGN
CHOICE, log entry 20). -/
def Engine.passDone (e : Engine) : Engine :=
  match e.pass with
  | .single => e.settle (pendDigest e.h)
  | .inner => { e with bufs := { e.bufs with inner := digestBytes e.h } }.startHash .outer opadSegment innerSegment
  | .outer =>
    match decode e.op with
    | .ok (.hotp _) => { e with phase := .trunc }
    | .ok (.totp _) => { e with phase := .trunc }
    | _ => e.settle (pendDigest e.h)

/-- Round `t` on the schedule the engine holds (R86). -/
def Engine.doRound (e : Engine) : Engine :=
  { e with work := sha1Round e.t (e.w.getD e.t 0#32) e.work, t := e.t + 1 }

/-- The block is read, its schedule made and the working variables loaded (R81 to R83, R87). -/
def Engine.loadBlock (e : Engine) (blk : List Byte) : Engine :=
  { e with blk := blk, w := schedule blk, work := loadWorking e.h }

/-- The rounds of a block are done: the state is updated (R88), and the next block or the end of the invocation follows (R91). -/
def Engine.blockDone (e : Engine) : Engine :=
  let e' := { e with h := addWorking e.h e.work }
  if e.blkidx + 1 < blockCount (messageLen e.seg1 e.seg2) then { e' with blkidx := e.blkidx + 1, t := 0 }
  else e'.passDone

/-- Phase HASH: one round; the first also loads the block, and after the eightieth the block is finished (R91). -/
def tickHash (m : MsgMem) (e : Engine) : Engine :=
  if e.t = 0 then
    match readBlock m e.bufs e.seg1 e.seg2 e.blkidx with
    | .error code => e.abort code
    | .ok blk => (e.loadBlock blk).doRound
  else if e.t < Config.rounds then e.doRound
  else e.blockDone

/-- Phase TRUNC: the passcode is cut from the HMAC result (R105, R107); COMMIT follows (DESIGN CHOICE, log entry 20). -/
def tickTrunc (e : Engine) : Engine :=
  match decode e.op with
  | .ok (.hotp dig) => e.settle (pendOtp dig e.h)
  | .ok (.totp dig) => e.settle (pendOtp dig e.h)
  | _ => e.settle (pendDigest e.h)

/-- What a command's `Exec` returned, waiting in COMMIT. -/
def Engine.await (e : Engine) (r : Except ErrCode (List (Reg × Word))) : Engine :=
  match r with
  | .error code => e.abort code
  | .ok pend => e.settle pend

/-- Phase CAL: a calendar command checks its operands and converts them (R111 to R128), and COMMIT follows. R35 names the phases CAL
and COMMIT, and no rule says when they are entered or in which phase the calendar checks run: DESIGN CHOICE (log entry 20). -/
def tickCal (w : Window) (e : Engine) : Engine :=
  match decode e.op with
  | .ok .rtcDecode => e.await (rtcDecodeResult w)
  | .ok .rtcEncode => e.await (rtcEncodeResult w)
  | .ok .dtToUnix => e.await (dtToUnixResult w)
  | .ok .unixToDt => e.await (unixToDtResult w)
  | .ok .rtcToUnix => e.await (rtcToUnixResult w)
  | .ok .leap => e.await (leapResult w)
  | _ => e.abort .illegalCmd

/-- One internal step (R65 (a)). In IDLE the core has no step, and in COMMIT it only waits for the completion step. -/
def Engine.tick (w : Window) (m : MsgMem) (e : Engine) : Engine :=
  match e.phase with
  | .idle => e
  | .check => tickCheck w e
  | .keyload => tickKeyload w m e
  | .hash => tickHash m e
  | .trunc => tickTrunc e
  | .cal => tickCal w e
  | .commit => e

/-- `n` internal steps. -/
def Engine.ticks (w : Window) (m : MsgMem) (n : Nat) (e : Engine) : Engine :=
  match n with
  | 0 => e
  | k + 1 => Engine.ticks w m k (e.tick w m)

/-- What the pipeline holds for the completion step: the error it found, or PEND. -/
def Engine.outcome (e : Engine) : Except ErrCode (List (Reg × Word)) :=
  if e.perr = .none then .ok e.pend else .error e.perr

/-- R66: `Exec(w, R, M)` of a command word. -/
def commandResult (op : Word) (w : Window) (m : MsgMem) : Except ErrCode (List (Reg × Word)) :=
  match decode op with
  | .error _ => .error .illegalCmd
  | .ok (.sha1 app) => sha1Result app w m
  | .ok .hmac => hmacResult w m
  | .ok (.hotp dig) => hotpResult dig w m
  | .ok (.totp dig) => totpResult dig w m
  | .ok .rtcDecode => rtcDecodeResult w
  | .ok .rtcEncode => rtcEncodeResult w
  | .ok .dtToUnix => dtToUnixResult w
  | .ok .unixToDt => unixToDtResult w
  | .ok .rtcToUnix => rtcToUnixResult w
  | .ok .leap => leapResult w

end Sys2Proof.Machine
end

