-- ==== Sys2Proof/Machine/HostPort.lean ====
section
/-! DEFINITION. The host's side of the machine: the layout of the window (10_state.md R15), what a host read returns and what a
host write does (R16 to R21, R63, R64), host writes of message memory and the operand race (R151), the core's turns (R65), and the
step of each event of the schedule. -/

namespace Sys2Proof.Machine

/-! ## The window's layout -/

/-- The byte offset of a register (R15). -/
def Reg.offset : Reg → Nat
  | .id => 0x00
  | .ctrl => 0x04
  | .status => 0x08
  | .cmd => 0x0C
  | .keyAddr => 0x10
  | .keyLen => 0x14
  | .priAddr => 0x18
  | .priLen => 0x1C
  | .appAddr => 0x20
  | .appLen => 0x24
  | .cntLo => 0x28
  | .cntHi => 0x2C
  | .tsLo => 0x30
  | .tsHi => 0x34
  | .dt0 => 0x38
  | .dt1 => 0x3C
  | .rtcimg0 => 0x40
  | .rtcimg1 => 0x44
  | .rtcout0 => 0x48
  | .rtcout1 => 0x4C
  | .digest0 => 0x50
  | .digest1 => 0x54
  | .digest2 => 0x58
  | .digest3 => 0x5C
  | .digest4 => 0x60
  | .otp => 0x64
  | .leap => 0x68

/-- The registers in the order of R15's table. -/
def windowRegs : List Reg :=
  [.id, .ctrl, .status, .cmd, .keyAddr, .keyLen, .priAddr, .priLen, .appAddr, .appLen, .cntLo, .cntHi, .tsLo, .tsHi, .dt0, .dt1,
    .rtcimg0, .rtcimg1, .rtcout0, .rtcout1, .digest0, .digest1, .digest2, .digest3, .digest4, .otp, .leap]

/-- The register at an offset; none at the reserved offsets 0x6C to 0xFC (R15, R16). -/
def regAt (off : Nat) : Option Reg := windowRegs.find? fun r => r.offset == off

/-- The offset of a bus address from `BASE` (R15). -/
def windowOffset (base addr : Word) : Nat := (addr - base).toNat

/-- The operand registers, which the host writes while the core is idle (R21). -/
def Reg.isOperand : Reg → Bool
  | .keyAddr | .keyLen | .priAddr | .priLen | .appAddr | .appLen => true
  | .cntLo | .cntHi | .tsLo | .tsHi | .dt0 | .dt1 | .rtcimg0 | .rtcimg1 => true
  | .id | .ctrl | .status | .cmd => false
  | .rtcout0 | .rtcout1 | .digest0 | .digest1 | .digest2 | .digest3 | .digest4 | .otp | .leap => false

/-! ## Host accesses -/

/-- A host read at an offset (R16, R52): the register, or 0 where the offset is reserved. -/
def readWindow (w : Window) (off : Nat) : Word :=
  match regAt off with
  | some r => w.get r
  | none => 0#32

/-- A host write of CTRL (R18): SRST = 1 is a soft reset and nothing else, and otherwise IE takes bit 0. -/
def writeCtrl (v : Word) (s : State) : State :=
  if v.getLsbD 1 then resetCore s else { s with win := { s.win with ie := v.getLsbD 0 } }

/-- A host write of STATUS (R19): W1C. -/
def writeStatus (v : Word) (s : State) : State :=
  { s with win := { s.win with status := s.win.status.clear v } }

/-- A host write of CMD: accepted while the core is idle (R63), else it sets OVR alone (R64). -/
def writeCmd (v : Word) (s : State) : State :=
  if s.win.status.busy then { s with win := { s.win with status := s.win.status.overrun } } else acceptCommand v s

/-- A host write of an operand register: stored while the core is idle, ignored while it is busy (R21, R150). -/
def writeOperand (r : Reg) (v : Word) (s : State) : State :=
  if s.win.status.busy then s else { s with win := s.win.put r v }

/-- A host write of a register; the RO registers ignore it (R16, R17). -/
def writeReg (r : Reg) (v : Word) (s : State) : State :=
  match r with
  | .ctrl => writeCtrl v s
  | .status => writeStatus v s
  | .cmd => writeCmd v s
  | r => if r.isOperand then writeOperand r v s else s

/-- A host write at an offset; the reserved offsets ignore it (R16). -/
def writeWindow (off : Nat) (v : Word) (s : State) : State :=
  match regAt off with
  | some r => writeReg r v s
  | none => s

/-- What the access rules say of a host access (R15, R51): its offset, or why it has no meaning. -/
def checkAccess (bytes : Nat) (addr : Word) (s : State) : Except Refusal Nat :=
  let off := windowOffset s.base addr
  if Config.windowBytes ≤ off then .error .outsideWindow
  else if bytes = 4 ∧ off % 4 = 0 then .ok off
  else .error .accessNotAligned32

/-- A host write on the bus (R51, R52). -/
def hostWrite (bytes : Nat) (addr v : Word) (s : State) : Host.Outcome State Fault Refusal :=
  match checkAccess bytes addr s with
  | .error why => .refused why
  | .ok off => .next (writeWindow off v s)

/-- A host read on the bus: the value goes to the observation and nothing else changes (R13, R52). -/
def hostRead (bytes : Nat) (addr : Word) (s : State) : Host.Outcome State Fault Refusal :=
  match checkAccess bytes addr s with
  | .error why => .refused why
  | .ok off => .next { s with observed := s.observed ++ [readWindow s.win off] }

/-! ## Message memory and the operand race -/

/-- The MM address is one of a segment's (R41). -/
def Segment.covers (g : Segment) (a : Word) : Bool := decide ((a - g.base).toNat < g.len)

/-- The command in flight reads the MM address (R45): its segments, where the checks before its reads pass (log entry 10). -/
def commandReads (op : Word) (w : Window) (a : Word) : Bool :=
  match decode op with
  | .error _ => false
  | .ok (.sha1 app) => (priSegment w).covers a || (app && (appSegment w).covers a)
  | .ok .hmac => decide (w.keyLen.toNat ≤ Config.hmacKeyMax) && ((keySegment w).covers a || (priSegment w).covers a)
  | .ok (.hotp dig) => (otpChecks dig w).isOk && (keySegment w).covers a
  | .ok (.totp dig) => (otpChecks dig w).isOk && (keySegment w).covers a
  | .ok .rtcDecode => false
  | .ok .rtcEncode => false
  | .ok .dtToUnix => false
  | .ok .unixToDt => false
  | .ok .rtcToUnix => false
  | .ok .leap => false

/-- Some of `n` consecutive addresses from `a` on is one the command in flight reads. -/
def anyRead (op : Word) (w : Window) (a : Word) : Nat → Bool
  | 0 => false
  | n + 1 => commandReads op w a || anyRead op w (a + 1#32) n

/-- A host write of message memory (R69 `MEM`): an operand race if a command is in flight and reads one of the bytes (R56,
R151). -/
def hostMem (addr : Word) (data : List Byte) (s : State) : Host.Outcome State Fault Refusal :=
  if s.eng.phase ≠ .idle ∧ anyRead s.eng.op s.win addr data.length = true then .fault .operandRace
  else .next { s with mm := { s.mm with cells := s.mm.cells.writeBytes addr data } }

/-! ## The core's turns -/

/-- The completion step of a command that decodes is its effect; an illegal word completes with ILLEGAL_CMD (R61, R66). -/
def runCommand (s : State) : Host.Outcome State Fault Refusal :=
  match decode s.eng.op with
  | .ok i => exec i s
  | .error _ => .next (complete (.error .illegalCmd) s)

/-- The core takes its completion step (R65 (b), R67); in IDLE it has no step and waits (R40; log entry 9). -/
def coreFinish (s : State) : Host.Outcome State Fault Refusal :=
  if s.eng.phase = .idle then .next s else runCommand s

/-- The core takes an internal step (R65 (a)). -/
def coreTick (s : State) : Host.Outcome State Fault Refusal :=
  .next { s with eng := s.eng.tick s.win s.mm }

/-- One poll of `WAIT` (R70): STATUS is read, and while BUSY is 1 the core takes its completion step before the next poll
(log entry 13). -/
def hostWait (s : State) : Host.Outcome State Fault Refusal :=
  let polled := { s with observed := s.observed ++ [s.win.get .status] }
  if s.win.status.busy then .next { polled with script := .finish :: .wait :: s.script } else .next polled

/-- The step of one event; `s` is the state with the event taken off the schedule. -/
def runEvent (ev : Event) (s : State) : Host.Outcome State Fault Refusal :=
  match ev with
  | .write bytes addr v => hostWrite bytes addr v s
  | .read bytes addr => hostRead bytes addr s
  | .mem addr data => hostMem addr data s
  | .wait => hostWait s
  | .resetInput => .next (resetCore s)
  | .tick => coreTick s
  | .finish => coreFinish s

/-- The machine's next step: the next event of the schedule, or the core's completion step where nothing is scheduled (R65,
R155 "a model takes no time"; log entry 2). -/
def nextStep (s : State) : Host.Outcome State Fault Refusal :=
  match s.script with
  | [] => coreFinish s
  | ev :: rest => runEvent ev { s with script := rest }

/-! ## Assembler (R69, R70) -/

/-- `WR <REG>, <v32>`. -/
def wr (base : Word) (r : Reg) (v : Word) : Event := .write 4 (base + BitVec.ofNat 32 r.offset) v

/-- `RD <REG>`. -/
def rd (base : Word) (r : Reg) : Event := .read 4 (base + BitVec.ofNat 32 r.offset)

/-- `CMD <MNEMONIC>` with its operands. -/
def cmd (base : Word) (i : Instr) : Event := wr base .cmd (encode i)

/-- `CLR`: `WR STATUS, 0x0000000E`. -/
def clr (base : Word) : Event := wr base .status 0x0000000E#32

/-- `SRST`: `WR CTRL, 0x00000002`. -/
def srst (base : Word) : Event := wr base .ctrl 0x00000002#32

end Sys2Proof.Machine
end

