-- ==== Sys2Proof/Machine/Step.lean ====
section
/-! DEFINITION. One step of the machine, and where a command word is placed for the core to run (log entry 1). The core fetches
nothing (20_memory.md R57): its command stream is the accepted CMD writes. -/

namespace Sys2Proof.Machine

/-- One step (R12): the next event of the schedule, else the core's completion step. -/
def step (s : State) : Host.Outcome State Fault Refusal := nextStep s

/-- The state in which the core has accepted the command word `w` (R63) and its completion step is the machine's next step. -/
def State.withFetchWord (s : State) (nbits w : Nat) : State :=
  { acceptCommand (BitVec.ofNat 32 (w % 2 ^ nbits)) s with script := [] }

end Sys2Proof.Machine
end

