-- ==== Sys2Proof/Safety.lean ====
section
/-! DEFINITION. The terms the claims are stated in: SHA-1, HMAC and the passcode as functions of whole byte sequences (41_sha1.md
R79, R93; 42_hmac.md R96 to R98; 43_otp.md R105), what a segment holds and whether it is admitted (20_memory.md R41, R42), what a
step leaves unchanged, and the invariants a run keeps. -/

namespace Sys2Proof.Machine

/-! ## The algorithms on byte sequences -/

/-- The padded message as one sequence (R79): message, 0x80, pad zeros, the 8-byte big-endian bit length. -/
def paddedMessage (msg : List Byte) : List Byte :=
  msg ++ [0x80#8] ++ List.replicate (padLen msg.length) 0x00#8 ++ be64bytes (msg.length * 8)

/-- `n` blocks taken from the front of a byte sequence, compressed in order (R81, R91). -/
def hashChunks (n : Nat) (bytes : List Byte) (h : HashState) : HashState :=
  match n with
  | 0 => h
  | k + 1 => hashChunks k (bytes.drop 64) (compress h (bytes.take 64))

/-- The SHA-1 words of a byte sequence held in one piece (R93). -/
def sha1Bytes (msg : List Byte) : HashState := hashChunks (blockCount msg.length) (paddedMessage msg) initialHash

/-- The zero-padded key XORed with a fill byte in each of 64 positions, R96's equivalent form of a pad. -/
def xoredKey (fill : Byte) (key : List Byte) : List Byte := (List.range 64).map fun i => fill ^^^ key.getD i 0#8

/-- HMAC-SHA1 of a key and a message held in one piece each (R96 to R98). -/
def hmacBytes (key msg : List Byte) : HashState :=
  sha1Bytes (xoredKey 0x5c#8 key ++ digestBytes (sha1Bytes (xoredKey 0x36#8 key ++ msg)))

/-- The passcode of a key and a counter (R104, R105, R107), in arithmetic on the 20 bytes of the HMAC result. -/
def otpOf (dig counter : Nat) (key : List Byte) : Nat :=
  let hs := digestBytes (hmacBytes key (be64bytes counter))
  let offset := (hs.getD 19 0#8).toNat % 16
  let p := (hs.getD offset 0#8).toNat * 2 ^ 24 + (hs.getD (offset + 1) 0#8).toNat * 2 ^ 16 +
    (hs.getD (offset + 2) 0#8).toNat * 2 ^ 8 + (hs.getD (offset + 3) 0#8).toNat
  p % 2 ^ 31 % 10 ^ dig

/-! ## Segments -/

/-- The bytes of a segment of message memory (R41): `len` bytes from `base` on, wrapping mod 2^32. -/
def bytesAt (m : MsgMem) (base : Word) (len : Nat) : List Byte :=
  (List.range len).map fun i => m.byte (base + BitVec.ofNat 32 i)

/-- Every byte of a segment answers a read (R42, R147 (3)). -/
def AdmittedAt (m : MsgMem) (base : Word) (len : Nat) : Prop :=
  ∀ i, i < len → m.admitted (base + BitVec.ofNat 32 i) = true

/-- The key in message memory (R22). -/
def keyBytes (s : State) : List Byte := bytesAt s.mm s.win.keyAddr s.win.keyLen.toNat

/-- The primary segment in message memory (R22). -/
def priBytes (s : State) : List Byte := bytesAt s.mm s.win.priAddr s.win.priLen.toNat

/-- The appendix in message memory (R22). -/
def appBytes (s : State) : List Byte := bytesAt s.mm s.win.appAddr s.win.appLen.toNat

def KeyAdmitted (s : State) : Prop := AdmittedAt s.mm s.win.keyAddr s.win.keyLen.toNat
def PriAdmitted (s : State) : Prop := AdmittedAt s.mm s.win.priAddr s.win.priLen.toNat
def AppAdmitted (s : State) : Prop := AdmittedAt s.mm s.win.appAddr s.win.appLen.toNat

/-- The MM address is byte `i` of the segment that starts at `base`, for some `i` below `len` (R22). -/
def InSegment (base : Word) (len : Nat) (a : Word) : Prop := ∃ i, i < len ∧ a = base + BitVec.ofNat 32 i

/-- R45: a command word reads the byte at an MM address. SHA1 reads the primary segment, and the appendix if APP = 1; HMAC the key and
the primary segment, unless the key is too long; HOTP and TOTP the key, unless it is too long or the digit count is not 1 to 9. No
other command and no illegal word reads a byte. That they count as read whole is log entry 10 (DEDUCED). -/
def ReadsByte (op : Word) (w : Window) (a : Word) : Prop :=
  ((∃ app, decode op = .ok (.sha1 app)) ∧ InSegment w.priAddr w.priLen.toNat a) ∨
  (decode op = .ok (.sha1 true) ∧ InSegment w.appAddr w.appLen.toNat a) ∨
  (decode op = .ok .hmac ∧ w.keyLen.toNat ≤ 64 ∧
    (InSegment w.keyAddr w.keyLen.toNat a ∨ InSegment w.priAddr w.priLen.toNat a)) ∨
  (∃ dig, (decode op = .ok (.hotp dig) ∨ decode op = .ok (.totp dig)) ∧ w.keyLen.toNat ≤ 64 ∧ 1 ≤ dig ∧ dig ≤ 9 ∧
    InSegment w.keyAddr w.keyLen.toNat a)

/-! ## What a step does and leaves -/

/-- The DIGEST registers hold the five words (R28). -/
def DigestIs (w : Window) (h : HashState) : Prop :=
  w.get .digest0 = h.h0 ∧ w.get .digest1 = h.h1 ∧ w.get .digest2 = h.h2 ∧ w.get .digest3 = h.h3 ∧ w.get .digest4 = h.h4

/-- STATUS after a success (R67): DONE, and OVR as it was. -/
def StatusSucceeded (s t : State) : Prop :=
  t.win.status = { busy := false, done := true, err := false, ovr := s.win.status.ovr, errcode := .none }

/-- STATUS after a failure (R67, R131): DONE, ERR and the code, and OVR as it was. -/
def StatusFailed (code : ErrCode) (s t : State) : Prop :=
  t.win.status = { busy := false, done := true, err := true, ovr := s.win.status.ovr, errcode := code }

/-- What a completed command leaves unchanged, apart from STATUS and the registers it writes: every register of the window (CTRL
and CMD among them), every byte of message memory and its admission map, the internal state apart from the phase, which is IDLE,
and the host. R67 speaks of the phase and of no other internal value, and R132 exempts the internal state: that it stays is the
model's choice (log entry 15). -/
structure Frame (written : List Reg) (s t : State) : Prop where
  regs : ∀ r, r ∉ written → r ≠ .status → t.win.get r = s.win.get r
  bytes : ∀ a, t.mm.byte a = s.mm.byte a
  admits : t.mm.admits = s.mm.admits
  internal : t.eng = { s.eng with phase := .idle }
  base : t.base = s.base
  script : t.script = s.script
  observed : t.observed = s.observed

/-- The command fails with `code` at its completion step: STATUS reports it and nothing else changes (R131, R132). -/
def FailsWith (i : Instr) (s : State) (code : ErrCode) : Prop :=
  ∃ t, exec i s = .next t ∧ StatusFailed code s t ∧ Frame [] s t

/-- The five DIGEST registers (R28). -/
def digestRegs : List Reg := [.digest0, .digest1, .digest2, .digest3, .digest4]

/-- The result registers of R131. -/
def resultRegs : List Reg :=
  digestRegs ++ [.otp, .leap, .dt0, .dt1, .tsLo, .tsHi, .rtcout0, .rtcout1]

/-- The operand registers of R21. -/
def operandRegs : List Reg :=
  [.keyAddr, .keyLen, .priAddr, .priLen, .appAddr, .appLen, .cntLo, .cntHi, .tsLo, .tsHi, .dt0, .dt1, .rtcimg0, .rtcimg1]

/-- Two windows agree on the operand registers (R66's `R`). -/
def SameOperands (w w' : Window) : Prop := ∀ r, r.isOperand = true → w'.get r = w.get r

/-! ## Invariants -/

/-- What every step keeps of the window, the sequencer and message memory. -/
structure State.Inv (s : State) : Prop where
  /-- R35: phase = IDLE exactly when BUSY = 0. -/
  phase_busy : s.eng.phase = .idle ↔ s.win.status.busy = false
  /-- R19: while a command is in flight DONE, ERR and ERRCODE are 0. -/
  in_flight : s.win.status.busy = true → s.win.status.done = false ∧ s.win.status.err = false ∧ s.win.status.errcode = .none
  /-- R19: ERR is set only with an error code. -/
  err_code : s.win.status.err = true → s.win.status.errcode ≠ .none
  /-- R130: the hex codes are never raised. -/
  no_hex_code : s.win.status.errcode ≠ .invalidHexChar ∧ s.win.status.errcode ≠ .sizing
  /-- R63: the latched command word is the one CMD shows. -/
  op_is_cmd : s.win.status.busy = true → s.eng.op = s.win.cmd
  /-- R25, R16: the reserved bits of DT1 are 0. -/
  dt1_reserved : s.win.dt1 &&& dt1Mask = s.win.dt1
  /-- R26, R16: the reserved bits of RTCIMG1 are 0. -/
  rtcimg1_reserved : s.win.rtcimg1 &&& rtcimg1Mask = s.win.rtcimg1
  /-- R30: the reserved bits of LEAP are 0. -/
  leap_reserved : s.win.leap &&& leapMask = s.win.leap
  /-- R29: OTP is at most 999,999,999. -/
  otp_bound : s.win.otp.toNat ≤ 999999999
  /-- Message memory keeps its canonical form. -/
  memory_wf : s.mm.cells.wf = true

/-- The length of the buffer a source names (R80); a segment of message memory is bounded by its length register alone. -/
def Src.capacity : Src → Nat
  | .mm => 2 ^ 32 - 1
  | .ipad => 64
  | .opad => 64
  | .inner => 20
  | .cntbuf => 8
  | .none => 0

/-- The shape of the internal state (R34 to R37, R80). -/
structure State.EngineShape (s : State) : Prop where
  sched : s.eng.w.length = Config.schedWords
  block : s.eng.blk.length = Config.blockBytes
  ipad : s.eng.bufs.ipad.length = 64
  opad : s.eng.bufs.opad.length = 64
  inner : s.eng.bufs.inner.length = Config.digestBytes
  cntbuf : s.eng.bufs.cntbuf.length = 8
  round : s.eng.t ≤ Config.rounds
  seg1 : s.eng.seg1.len ≤ s.eng.seg1.src.capacity
  seg2 : s.eng.seg2.len ≤ s.eng.seg2.src.capacity
  /-- R35: `blkidx` is a natural below `nblocks`. -/
  blkidx : s.eng.phase = .hash → s.eng.blkidx < blockCount (messageLen s.eng.seg1 s.eng.seg2)
  /-- R95, R101: the key is loaded only where its length has passed the check. -/
  key : s.eng.phase = .keyload → s.win.keyLen.toNat ≤ 64
  /-- R35, R21: the operands of a command in flight are frozen, so a phase of it can be told from BUSY. -/
  busy : s.eng.phase ≠ .idle → s.win.status.busy = true

/-- The sequencer stands where some number of internal steps takes a freshly accepted command (R63, R65), on the operands and the
memory the state holds now. -/
def State.PipelineOnTrack (s : State) : Prop :=
  s.eng.phase ≠ .idle →
    s.win.status.busy = true ∧
    ∃ n e, e.op = s.eng.op ∧ e.phase = .check ∧ e.pend = [] ∧ e.perr = .none ∧ s.eng = Engine.ticks s.win s.mm n e

end Sys2Proof.Machine
end

