-- ==== Sys2Proof/Certificates/Slice0/Obligations.lean ====
section
/-! DEFINITION. The statements for the provers. Each docstring names the rule of the spec it formalises; none is about a program. -/

open Sys2Proof

open Sys2Proof.Machine

/-! ## Encoding -/

/-- R58 to R60: no bit of an encoding is dropped; every well-formed command decodes from its word to itself. -/
def Obligations.DecodeOfEncodeIsTheInstruction : Prop :=
  ∀ i : Instr, i.wellFormed = true → decode (encode i) = .ok i

/-- R58 to R60: a word that decodes is the encoding of the command it decodes to, which is well formed. -/
def Obligations.EncodeOfDecodeIsTheWord : Prop :=
  ∀ (w : Word) (i : Instr), decode w = .ok i → encode i = w ∧ i.wellFormed = true

/-- R62: a legal word, and only a legal word, selects a command, the one whose opcode of R60 is its OP. -/
def Obligations.DecoderAcceptsExactlyTheLegalWords : Prop :=
  ∀ w : Word, ((∃ i, decode w = .ok i) ↔ legal w = true) ∧ ∀ i, decode w = .ok i → opcode i = opField w

/-- R61: the clauses that make a word illegal, and that an accepted illegal word completes with ILLEGAL_CMD and writes no result
register, whatever message memory holds. That the completion is the next step where nothing is scheduled is the model's choice
(log entry 2, DESIGN CHOICE). That the internal state but for the phase stays (Frame) is the model's choice (log entry 15, DESIGN
CHOICE). -/
def Obligations.IllegalWordCompletesWithIllegalCmd : Prop :=
  ∀ (w : Word) (s : State),
    (w.toNat % 256 = 0 ∨ 11 ≤ w.toNat % 256 ∨ w.toNat / 2 ^ 13 ≠ 0 ∨
      (w.toNat / 2 ^ 8 % 16 ≠ 0 ∧ w.toNat % 256 ≠ 3 ∧ w.toNat % 256 ≠ 4) ∨
      (w.toNat / 2 ^ 12 % 2 = 1 ∧ w.toNat % 256 ≠ 1)) →
    s.script = [] → s.eng.phase ≠ .idle → s.eng.op = w →
    ∃ t, step s = .next t ∧ StatusFailed .illegalCmd s t ∧ Frame [] s t

/-- Sanity (R60, R70): a word of every opcode, written out from the table, decodes to the command it stands for. -/
def Obligations.WrittenOutWordsDecode : Prop :=
  decode 0x00000001#32 = .ok (.sha1 false) ∧ decode 0x00001001#32 = .ok (.sha1 true) ∧ decode 0x00000002#32 = .ok .hmac ∧
  decode 0x00000603#32 = .ok (.hotp 6) ∧ decode 0x00000F04#32 = .ok (.totp 15) ∧ decode 0x00000005#32 = .ok .rtcDecode ∧
  decode 0x00000006#32 = .ok .rtcEncode ∧ decode 0x00000007#32 = .ok .dtToUnix ∧ decode 0x00000008#32 = .ok .unixToDt ∧
  decode 0x00000009#32 = .ok .rtcToUnix ∧ decode 0x0000000A#32 = .ok .leap

/-! ## The step -/

/-- R66, R67: the completion step of a command in flight whose word decodes to `i` is `exec i`; with nothing scheduled it is the
next step, and with the `finish` event scheduled that event is used up first (log entries 1 and 2). -/
def Obligations.StepRunsTheDecodedCommand : Prop :=
  ∀ (s : State) (i : Instr), s.eng.phase ≠ .idle → decode s.eng.op = .ok i →
    (s.script = [] → step s = exec i s) ∧
    (∀ rest, s.script = .finish :: rest → step s = exec i { s with script := rest })

/-- R65: in IDLE the core has no step; the model's choice (log entry 9) is that the machine waits, and nothing changes. -/
def Obligations.IdleCoreWaits : Prop :=
  ∀ s : State, s.eng.phase = .idle →
    (s.script = [] → step s = .next s) ∧
    (∀ rest, s.script = .finish :: rest ∨ s.script = .tick :: rest → step s = .next { s with script := rest })

/-- R67, R20, R19: every command, on any operands, completes in one step: BUSY = 0, DONE = 1, ERR = 1 exactly with a nonzero code,
OVR, CMD and CTRL as they were, and the sequencer in IDLE. -/
def Obligations.EveryCommandCompletes : Prop :=
  ∀ (i : Instr) (s : State), ∃ t, exec i s = .next t ∧
    t.win.status.busy = false ∧ t.win.status.done = true ∧
    (t.win.status.err = true ↔ t.win.status.errcode ≠ .none) ∧
    t.win.status.ovr = s.win.status.ovr ∧ t.win.cmd = s.win.cmd ∧ t.win.ie = s.win.ie ∧ t.eng.phase = .idle

/-- R131, R132: a command that fails, decoded or illegal, completes with DONE, ERR and its code, and changes nothing else of the
window (CMD and the operands among it) and no byte of message memory. R67 sets the phase; that the rest of the internal state,
which R132 exempts, stays as it was (Frame.internal) is the model's choice (log entry 15, DESIGN CHOICE). That the completion is
the next step where nothing is scheduled is too (log entry 2, DESIGN CHOICE). -/
def Obligations.FailedCommandChangesOnlyStatus : Prop :=
  ∀ s t : State,
    ((∃ i, exec i s = .next t) ∨ (s.eng.phase ≠ .idle ∧ s.script = [] ∧ step s = .next t)) → t.win.status.err = true →
      StatusFailed t.win.status.errcode s t ∧ Frame [] s t

/-- R60, R28, R29, R43: which registers each command may write. That the internal state but for the phase stays (Frame) is the
model's choice (log entry 15, DESIGN CHOICE). -/
def Obligations.CommandsWriteOnlyTheirResults : Prop :=
  ∀ (s t : State),
    (∀ app, exec (.sha1 app) s = .next t → Frame digestRegs s t) ∧
    (exec .hmac s = .next t → Frame digestRegs s t) ∧
    (∀ dig, exec (.hotp dig) s = .next t → Frame (digestRegs ++ [.otp]) s t) ∧
    (∀ dig, exec (.totp dig) s = .next t → Frame (digestRegs ++ [.otp]) s t) ∧
    (exec .rtcDecode s = .next t → Frame [.dt0, .dt1] s t) ∧
    (exec .rtcEncode s = .next t → Frame [.rtcout0, .rtcout1] s t) ∧
    (exec .dtToUnix s = .next t → Frame [.tsLo, .tsHi] s t) ∧
    (exec .unixToDt s = .next t → Frame [.dt0, .dt1] s t) ∧
    (exec .rtcToUnix s = .next t → Frame [.dt0, .dt1, .tsLo, .tsHi] s t) ∧
    (exec .leap s = .next t → Frame [.leap] s t)

/-! ## SHA-1 and HMAC -/

/-- R75, R93: SHA1 writes the SHA-1 digest of primary ++ appendix, the appendix empty where APP = 0, wherever the split falls. The
function that hashes a block is pinned here: the working variables start at the HashState (R87), each of the eighty rounds updates
them by the round function and the constant of its range (R84, R85, R86), they are added into the HashState (R88), and the first
block starts from the constants of R89. That the internal state but for the phase stays (Frame) is the model's choice (log entry
15, DESIGN CHOICE). -/
def Obligations.Sha1DigestsPrimaryThenAppendix : Prop :=
  (∀ (app : Bool) (s : State), PriAdmitted s → (app = true → AppAdmitted s) →
    ∃ t, exec (.sha1 app) s = .next t ∧
      DigestIs t.win (sha1Bytes (priBytes s ++ if app then appBytes s else [])) ∧
      StatusSucceeded s t ∧ Frame digestRegs s t) ∧
  (∀ (h : HashState) (blk : List Byte), blk.length = 64 → ∃ v : Nat → Working,
    v 0 = { a := h.h0, b := h.h1, c := h.h2, d := h.h3, e := h.h4 } ∧
    (∀ t, t < 80 → v (t + 1) =
      { a := (v t).a.rotateLeft 5 +
          (if t < 20 then ((v t).b &&& (v t).c) ||| (~~~(v t).b &&& (v t).d)
            else if 40 ≤ t ∧ t < 60 then ((v t).b &&& (v t).c) ||| ((v t).b &&& (v t).d) ||| ((v t).c &&& (v t).d)
            else (v t).b ^^^ (v t).c ^^^ (v t).d) +
          (v t).e +
          (if t < 20 then 0x5a827999#32 else if t < 40 then 0x6ed9eba1#32 else if t < 60 then 0x8f1bbcdc#32 else 0xca62c1d6#32) +
          (schedule blk).getD t 0#32
        b := (v t).a, c := (v t).b.rotateLeft 30, d := (v t).c, e := (v t).d }) ∧
    compress h blk =
      ⟨h.h0 + (v 80).a, h.h1 + (v 80).b, h.h2 + (v 80).c, h.h3 + (v 80).d, h.h4 + (v 80).e⟩) ∧
  initialHash = ⟨0x67452301#32, 0xefcdab89#32, 0x98badcfe#32, 0x10325476#32, 0xc3d2e1f0#32⟩

/-- R77: `pad` is the least number with L + pad + 1 ≡ 56 (mod 64), it is at most 63, and it has the closed form of the rule. -/
def Obligations.PadIsMinimal : Prop :=
  ∀ len : Nat, (len + padLen len + 1) % 64 = 56 ∧ padLen len ≤ 63 ∧
    (∀ p, (len + p + 1) % 64 = 56 → padLen len ≤ p) ∧
    (len % 64 ≤ 55 → padLen len = 55 - len % 64) ∧ (56 ≤ len % 64 → padLen len = 119 - len % 64)

/-- R78: N = L + pad + 1 + 8 is a multiple of 64, and there are N / 64 blocks: L div 64 + 1 or + 2. -/
def Obligations.BlockCountOfLength : Prop :=
  ∀ len : Nat, (len + padLen len + 1 + 8) % 64 = 0 ∧ blockCount len * 64 = len + padLen len + 1 + 8 ∧
    (len % 64 ≤ 55 → blockCount len = len / 64 + 1) ∧ (56 ≤ len % 64 → blockCount len = len / 64 + 2)

/-- R71, R72: packing gives n bytes, byte k being the bits of R71, and unpacking is its inverse in both directions, for every n.
The 8-byte form, of the length suffix (R79) and the counter (R104), is that packing, and byte 4 i + j of the 20-byte Digest (R90)
is bits 31 - 8 j to 24 - 8 j of word i of the HashState. -/
def Obligations.BigEndianPackingRoundTrip : Prop :=
  (∀ n v : Nat, v < 2 ^ (8 * n) → beNat (beBytes n v) = v) ∧
  (∀ s : List Byte, beBytes s.length (beNat s) = s) ∧
  (∀ n v : Nat, (beBytes n v).length = n) ∧
  (∀ n v k : Nat, k < n → v < 2 ^ (8 * n) → ((beBytes n v).getD k 0#8).toNat = v / 2 ^ (8 * n - 8 * (k + 1)) % 256) ∧
  (∀ v : Nat, be64bytes v = beBytes 8 v) ∧
  (∀ h : HashState, (digestBytes h).length = 20 ∧ ∀ i j, i < 5 → j < 4 →
    ((digestBytes h).getD (4 * i + j) 0#8).toNat =
      ([h.h0, h.h1, h.h2, h.h3, h.h4].getD i 0#32).toNat / 2 ^ (24 - 8 * j) % 256)

/-- R83: schedule words 16 to 79 of any 64-byte block; and R82: words 0 to 15. -/
def Obligations.ScheduleFollowsTheRecurrence : Prop :=
  ∀ blk : List Byte, blk.length = 64 →
    (schedule blk).length = 80 ∧
    (∀ t, t < 16 → (schedule blk).getD t 0#32 = BitVec.ofNat 32 (beNat ((blk.drop (4 * t)).take 4))) ∧
    (∀ t, 16 ≤ t → t < 80 → (schedule blk).getD t 0#32 =
      ((schedule blk).getD (t - 3) 0#32 ^^^ (schedule blk).getD (t - 8) 0#32 ^^^
        (schedule blk).getD (t - 14) 0#32 ^^^ (schedule blk).getD (t - 16) 0#32).rotateLeft 1)

/-- R94, R96 to R98: HMAC with a key of at most 64 bytes writes the HMAC-SHA1 of the key and the message. That the internal state
but for the phase stays (Frame) is the model's choice (log entry 15, DESIGN CHOICE). -/
def Obligations.HmacDigestsKeyAndMessage : Prop :=
  ∀ s : State, s.win.keyLen.toNat ≤ 64 → KeyAdmitted s → PriAdmitted s →
    ∃ t, exec .hmac s = .next t ∧ DigestIs t.win (hmacBytes (keyBytes s) (priBytes s)) ∧
      StatusSucceeded s t ∧ Frame digestRegs s t

/-- R95: the full 32-bit KEY_LEN is compared with 64; a longer key gives INPUT_SIZE whatever memory holds. That the
internal state but for the phase stays (Frame) is the model's choice (log entry 15). -/
def Obligations.HmacRejectsLongKeys : Prop :=
  ∀ s : State, 64 < s.win.keyLen.toNat → FailsWith .hmac s .inputSize

/-- R42, R45, R133: a byte of a segment the command reads that is not admitted ends the command with BUS_ERROR, where the checks
before the reads pass. That the internal state but for the phase stays (Frame) is the model's choice (log entry 15, DESIGN
CHOICE). -/
def Obligations.UnadmittedByteGivesBusError : Prop :=
  ∀ s : State,
    (∀ app, ¬ (PriAdmitted s ∧ (app = true → AppAdmitted s)) → FailsWith (.sha1 app) s .busError) ∧
    (s.win.keyLen.toNat ≤ 64 → ¬ (KeyAdmitted s ∧ PriAdmitted s) → FailsWith .hmac s .busError) ∧
    (∀ dig, s.win.keyLen.toNat ≤ 64 → 1 ≤ dig → dig ≤ 9 → ¬ KeyAdmitted s →
      FailsWith (.hotp dig) s .busError ∧ FailsWith (.totp dig) s .busError)

/-! ## HOTP and TOTP -/

/-- R108, R104, R105: HOTP writes the HMAC of the key and the counter's 8 big-endian bytes to DIGEST, and the passcode to OTP.
That the internal state but for the phase stays (Frame) is the model's choice (log entry 15, DESIGN CHOICE). -/
def Obligations.HotpWritesPasscodeOfCounter : Prop :=
  ∀ (dig : Nat) (s : State), s.win.keyLen.toNat ≤ 64 → 1 ≤ dig → dig ≤ 9 → KeyAdmitted s →
    ∃ t, exec (.hotp dig) s = .next t ∧
      DigestIs t.win (hmacBytes (keyBytes s) (be64bytes (s.win.cntHi.toNat * 2 ^ 32 + s.win.cntLo.toNat))) ∧
      (t.win.get .otp).toNat = otpOf dig (s.win.cntHi.toNat * 2 ^ 32 + s.win.cntLo.toNat) (keyBytes s) ∧
      StatusSucceeded s t ∧ Frame (digestRegs ++ [.otp]) s t

/-- R110, R109: TOTP is HOTP on the timestamp's quotient by 30; no timestamp is rejected and CNT is not written. That the internal
state but for the phase stays (Frame) is the model's choice (log entry 15, DESIGN CHOICE). -/
def Obligations.TotpWritesPasscodeOfTimeStep : Prop :=
  ∀ (dig : Nat) (s : State), s.win.keyLen.toNat ≤ 64 → 1 ≤ dig → dig ≤ 9 → KeyAdmitted s →
    ∃ t, exec (.totp dig) s = .next t ∧
      DigestIs t.win (hmacBytes (keyBytes s) (be64bytes ((s.win.tsHi.toNat * 2 ^ 32 + s.win.tsLo.toNat) / 30))) ∧
      (t.win.get .otp).toNat = otpOf dig ((s.win.tsHi.toNat * 2 ^ 32 + s.win.tsLo.toNat) / 30) (keyBytes s) ∧
      StatusSucceeded s t ∧ Frame (digestRegs ++ [.otp]) s t

/-- R107: the passcode is the truncated value mod 10^digits; it is below 10^digits, and with at most 9 digits it fits OTP. -/
def Obligations.PasscodeBelowTenToTheDigits : Prop :=
  ∀ (dig : Nat) (hs : List Byte),
    passcode dig hs = truncateDigest hs % 10 ^ dig ∧ passcode dig hs < 10 ^ dig ∧
    (dig ≤ 9 → 10 ^ dig ≤ 10 ^ 9 ∧ 10 ^ 9 < 2 ^ 31 ∧ passcode dig hs < 2 ^ 32)

/-- R103: HOTP and TOTP check the key limit first (INPUT_SIZE), then the digit count (PROCESSING); neither check reads memory.
That the internal state but for the phase stays (Frame) is the model's choice (log entry 15). -/
def Obligations.OtpChecksKeyThenDigits : Prop :=
  ∀ (dig : Nat) (s : State),
    (64 < s.win.keyLen.toNat → FailsWith (.hotp dig) s .inputSize ∧ FailsWith (.totp dig) s .inputSize) ∧
    (s.win.keyLen.toNat ≤ 64 → (dig = 0 ∨ 10 ≤ dig) →
      FailsWith (.hotp dig) s .processing ∧ FailsWith (.totp dig) s .processing)

/-! ## The calendar -/

/-- R120, R117, R119: RTC_DECODE of a well-formed image writes its Datetime to DT0 and DT1, and of any other fails with
PROCESSING. The image is the seven bytes of RTCIMG0 and RTCIMG1 (R26); its Datetime and its well-formedness are written out on the
bytes: img[3], img[5] bits 6:5 and RTCIMG1 bits 31:24 have no part in either. The hours byte is HoursByteOfBothModes'. That the
internal state but for the phase stays (Frame) is the model's choice (log entry 15, DESIGN CHOICE). -/
def Obligations.RtcDecodeWritesDatetime : Prop :=
  (∀ s : State,
    ((clockImageOf s.win).wf = true → ∃ t, exec .rtcDecode s = .next t ∧
      (t.win.get .dt0).toNat = (decodeImage (clockImageOf s.win)).sec + (decodeImage (clockImageOf s.win)).min * 2 ^ 8 +
        (decodeImage (clockImageOf s.win)).hour * 2 ^ 16 + (decodeImage (clockImageOf s.win)).day * 2 ^ 24 ∧
      (t.win.get .dt1).toNat = (decodeImage (clockImageOf s.win)).mon + (decodeImage (clockImageOf s.win)).year * 2 ^ 16 ∧
      StatusSucceeded s t ∧ Frame [.dt0, .dt1] s t) ∧
    ((clockImageOf s.win).wf = false → FailsWith .rtcDecode s .processing)) ∧
  (∀ w : Window,
    (clockImageOf w).b0.toNat = w.rtcimg0.toNat % 256 ∧ (clockImageOf w).b1.toNat = w.rtcimg0.toNat / 2 ^ 8 % 256 ∧
    (clockImageOf w).b2.toNat = w.rtcimg0.toNat / 2 ^ 16 % 256 ∧ (clockImageOf w).b3.toNat = w.rtcimg0.toNat / 2 ^ 24 ∧
    (clockImageOf w).b4.toNat = w.rtcimg1.toNat % 256 ∧ (clockImageOf w).b5.toNat = w.rtcimg1.toNat / 2 ^ 8 % 256 ∧
    (clockImageOf w).b6.toNat = w.rtcimg1.toNat / 2 ^ 16 % 256) ∧
  (∀ g : ClockImage,
    decodeImage g =
      { sec := g.b0.toNat / 16 * 10 + g.b0.toNat % 16
        min := g.b1.toNat / 16 * 10 + g.b1.toNat % 16
        hour := hourOf g.b2
        day := g.b4.toNat / 16 * 10 + g.b4.toNat % 16
        mon := g.b5.toNat / 16 % 2 * 10 + g.b5.toNat % 16
        year := 1900 + 100 * (g.b5.toNat / 128) + (g.b6.toNat / 16 * 10 + g.b6.toNat % 16) } ∧
    (g.wf = true ↔
      g.b0.toNat % 16 ≤ 9 ∧ g.b1.toNat % 16 ≤ 9 ∧ g.b4.toNat % 16 ≤ 9 ∧ g.b6.toNat % 16 ≤ 9 ∧ g.b6.toNat / 16 ≤ 9 ∧
      g.b5.toNat % 16 ≤ 9 ∧ hourOk g.b2 = true ∧ (decodeImage g).wf = true))

/-- R118: the hours byte, in arithmetic on its number: which bytes are accepted and the hour each accepted byte stands for. In
24-hour mode the tens digit is bits 5:4; in 12-hour mode (bit 6 set) bit 4 is the tens digit and bit 5 is PM, 12 AM is hour 0 and
12 PM is hour 12; bit 7 is ignored. So 0x40, 0x53, 0x4A and 0x24 are refused, and every hour of an accepted byte is 0..23. The spec
marks the 12-hour convention as general knowledge (log entry 17). -/
def Obligations.HoursByteOfBothModes : Prop :=
  (∀ h : Byte, h.toNat / 64 % 2 = 0 →
    hourOf h = h.toNat / 16 % 4 * 10 + h.toNat % 16 ∧
    (hourOk h = true ↔ h.toNat % 16 ≤ 9 ∧ h.toNat / 16 % 4 * 10 + h.toNat % 16 ≤ 23)) ∧
  (∀ h : Byte, h.toNat / 64 % 2 = 1 →
    hourOf h = (h.toNat / 16 % 2 * 10 + h.toNat % 16) % 12 + 12 * (h.toNat / 32 % 2) ∧
    (hourOk h = true ↔
      h.toNat % 16 ≤ 9 ∧ 1 ≤ h.toNat / 16 % 2 * 10 + h.toNat % 16 ∧ h.toNat / 16 % 2 * 10 + h.toNat % 16 ≤ 12)) ∧
  hourOk 0x40#8 = false ∧ hourOk 0x53#8 = false ∧ hourOk 0x4A#8 = false ∧ hourOk 0x24#8 = false ∧
  (∀ h : Byte, hourOk h = true → hourOf h ≤ 23) ∧
  (∀ n, n ≤ 23 → hourOk (toBcd n) = true ∧ hourOf (toBcd n) = n) ∧
  (∀ n, 1 ≤ n → n ≤ 12 →
    hourOk (toBcd n ||| 0x40#8) = true ∧ hourOf (toBcd n ||| 0x40#8) = n % 12 ∧
    hourOk (toBcd n ||| 0x60#8) = true ∧ hourOf (toBcd n ||| 0x60#8) = n % 12 + 12) ∧
  (∀ h : Byte, hourOk (h ||| 0x80#8) = hourOk h ∧ hourOf (h ||| 0x80#8) = hourOf h)

/-- R112: BCD encoding is inverted by R111's decoding. -/
def Obligations.BcdRoundTrip : Prop :=
  ∀ n, n ≤ 99 → (toBcd n).toNat = n / 10 * 16 + n % 10 ∧ bcd (toBcd n) = n

/-- R122, R121: RTC_ENCODE of a well-formed Datetime writes the eight bytes of the write image, in 24-hour mode, the century bit
set exactly from 2000 on; of any other it fails with PROCESSING. The Datetime is the fields of DT0 and DT1 (R25); which Datetimes
are well formed (R116) and how long the months are (R115, beyond February 29 general knowledge, log entry 17) is written out. That
the internal state but for the phase stays (Frame) is the model's choice (log entry 15, DESIGN CHOICE). -/
def Obligations.RtcEncodeWritesImage : Prop :=
  (∀ s : State,
    ((datetimeOf s.win).wf = true → ∃ t, exec .rtcEncode s = .next t ∧
      lane (t.win.get .rtcout0) 0 = 0x00#8 ∧
      (lane (t.win.get .rtcout0) 1).toNat = (datetimeOf s.win).sec / 10 * 16 + (datetimeOf s.win).sec % 10 ∧
      (lane (t.win.get .rtcout0) 2).toNat = (datetimeOf s.win).min / 10 * 16 + (datetimeOf s.win).min % 10 ∧
      (lane (t.win.get .rtcout0) 3).toNat = (datetimeOf s.win).hour / 10 * 16 + (datetimeOf s.win).hour % 10 ∧
      lane (t.win.get .rtcout1) 0 = 0x01#8 ∧
      (lane (t.win.get .rtcout1) 1).toNat = (datetimeOf s.win).day / 10 * 16 + (datetimeOf s.win).day % 10 ∧
      (lane (t.win.get .rtcout1) 2).toNat = (datetimeOf s.win).mon / 10 * 16 + (datetimeOf s.win).mon % 10 +
        (if 2000 ≤ (datetimeOf s.win).year then 128 else 0) ∧
      (lane (t.win.get .rtcout1) 3).toNat = (datetimeOf s.win).year % 100 / 10 * 16 + (datetimeOf s.win).year % 100 % 10 ∧
      StatusSucceeded s t ∧ Frame [.rtcout0, .rtcout1] s t) ∧
    ((datetimeOf s.win).wf = false → FailsWith .rtcEncode s .processing)) ∧
  (∀ w : Window, datetimeOf w =
    { sec := w.dt0.toNat % 256, min := w.dt0.toNat / 2 ^ 8 % 256, hour := w.dt0.toNat / 2 ^ 16 % 256, day := w.dt0.toNat / 2 ^ 24,
      mon := w.dt1.toNat % 256, year := w.dt1.toNat / 2 ^ 16 }) ∧
  (∀ d : Datetime, d.wf = true ↔
    d.sec ≤ 59 ∧ d.min ≤ 59 ∧ d.hour ≤ 23 ∧ (1 ≤ d.mon ∧ d.mon ≤ 12) ∧ (1 ≤ d.day ∧ d.day ≤ daysInMonth d.mon d.year) ∧
    (1900 ≤ d.year ∧ d.year ≤ 2099)) ∧
  (∀ y, daysInMonth 1 y = 31 ∧
    daysInMonth 2 y = (if (y % 4 = 0 ∧ y % 100 ≠ 0) ∨ y % 400 = 0 then 29 else 28) ∧
    daysInMonth 3 y = 31 ∧ daysInMonth 4 y = 30 ∧ daysInMonth 5 y = 31 ∧ daysInMonth 6 y = 30 ∧ daysInMonth 7 y = 31 ∧
    daysInMonth 8 y = 31 ∧ daysInMonth 9 y = 30 ∧ daysInMonth 10 y = 31 ∧ daysInMonth 11 y = 30 ∧ daysInMonth 12 y = 31)

/-- R124, R123: DT_TO_UNIX of a well-formed Datetime from 1970 on writes its timestamp, TS_HI being 0; else it fails with
PROCESSING. That the internal state but for the phase stays (Frame) is the model's choice (log entry 15, DESIGN CHOICE). -/
def Obligations.DtToUnixWritesTimestamp : Prop :=
  ∀ s : State,
    ((datetimeOf s.win).wf = true → 1970 ≤ (datetimeOf s.win).year → ∃ t, exec .dtToUnix s = .next t ∧
      (t.win.get .tsLo).toNat = toUnix (datetimeOf s.win) ∧ (t.win.get .tsHi).toNat = 0 ∧
      StatusSucceeded s t ∧ Frame [.tsLo, .tsHi] s t) ∧
    ((datetimeOf s.win).wf = false ∨ (datetimeOf s.win).year < 1970 → FailsWith .dtToUnix s .processing)

/-- R126, R125, R129: UNIX_TO_DT of a timestamp up to TS_MAX writes the well-formed Datetime from 1970 on whose timestamp it is;
of a later one it fails with PROCESSING. That the internal state but for the phase stays (Frame) is the model's choice (log entry
15, DESIGN CHOICE). -/
def Obligations.UnixToDtWritesDatetime : Prop :=
  ∀ s : State,
    (s.win.tsHi.toNat * 2 ^ 32 + s.win.tsLo.toNat ≤ 4102444799 → ∃ t, exec .unixToDt s = .next t ∧
      (datetimeOf t.win).wf = true ∧ 1970 ≤ (datetimeOf t.win).year ∧
      toUnix (datetimeOf t.win) = s.win.tsHi.toNat * 2 ^ 32 + s.win.tsLo.toNat ∧
      t.win.dt1 &&& dt1Mask = t.win.dt1 ∧
      StatusSucceeded s t ∧ Frame [.dt0, .dt1] s t) ∧
    (4102444799 < s.win.tsHi.toNat * 2 ^ 32 + s.win.tsLo.toNat → FailsWith .unixToDt s .processing)

/-- R127: RTC_TO_UNIX of a well-formed image from 1970 on writes both the Datetime and its timestamp; of any other image it fails
with PROCESSING and writes neither. That the internal state but for the phase stays (Frame) is the model's choice (log entry 15,
DESIGN CHOICE). -/
def Obligations.RtcToUnixWritesDatetimeAndTimestamp : Prop :=
  ∀ s : State,
    ((clockImageOf s.win).wf = true → 1970 ≤ (decodeImage (clockImageOf s.win)).year → ∃ t, exec .rtcToUnix s = .next t ∧
      datetimeOf t.win = decodeImage (clockImageOf s.win) ∧ t.win.dt1 &&& dt1Mask = t.win.dt1 ∧
      (t.win.get .tsLo).toNat = toUnix (decodeImage (clockImageOf s.win)) ∧ (t.win.get .tsHi).toNat = 0 ∧
      StatusSucceeded s t ∧ Frame [.dt0, .dt1, .tsLo, .tsHi] s t) ∧
    ((clockImageOf s.win).wf = false ∨ (decodeImage (clockImageOf s.win)).year < 1970 → FailsWith .rtcToUnix s .processing)

/-- R127's corner case, said of the completion steps: where the completion of RTC_TO_UNIX succeeds, the completion of RTC_DECODE
and then that of DT_TO_UNIX leave the same state. No acceptance stands between the two here; on the machine the second command's
acceptance also writes CMD and op. R127 speaks of the result alone: that the whole state is the same, the internal state included,
rests on the model's choice that completion leaves it (log entry 15, DESIGN CHOICE). -/
def Obligations.RtcToUnixIsDecodeThenConvert : Prop :=
  ∀ s t : State, exec .rtcToUnix s = .next t → t.win.status.err = false →
    ∃ u, exec .rtcDecode s = .next u ∧ u.win.status.err = false ∧ exec .dtToUnix u = .next t

/-- R128, R113: LEAP answers 1 exactly for a year divisible by 4 and not by 100, or by 400, and never fails. That the
internal state but for the phase stays (Frame) is the model's choice (log entry 15). -/
def Obligations.LeapAnswersTheLeapYearRule : Prop :=
  ∀ s : State, ∃ t, exec .leap s = .next t ∧
    ((t.win.get .leap = 1#32 ∧
        ((s.win.dt1.toNat / 2 ^ 16 % 4 = 0 ∧ s.win.dt1.toNat / 2 ^ 16 % 100 ≠ 0) ∨ s.win.dt1.toNat / 2 ^ 16 % 400 = 0)) ∨
      (t.win.get .leap = 0#32 ∧
        ¬((s.win.dt1.toNat / 2 ^ 16 % 4 = 0 ∧ s.win.dt1.toNat / 2 ^ 16 % 100 ≠ 0) ∨ s.win.dt1.toNat / 2 ^ 16 % 400 = 0))) ∧
    StatusSucceeded s t ∧ Frame [.leap] s t

/-- R129 (a): from_unix undoes to_unix on every well-formed Datetime from 1970 on. -/
def Obligations.FromUnixOfToUnix : Prop :=
  ∀ d : Datetime, d.wf = true → 1970 ≤ d.year → fromUnix (toUnix d) = d

/-- R129 (b), and R125's remark that the result is a date: to_unix undoes from_unix up to TS_MAX. -/
def Obligations.ToUnixOfFromUnix : Prop :=
  ∀ ts : Nat, ts ≤ 4102444799 → (fromUnix ts).wf = true ∧ 1970 ≤ (fromUnix ts).year ∧ toUnix (fromUnix ts) = ts

/-- R129 (c): the seven bytes out[1..8] of the write image are a well-formed clock image, and decoding them gives the Datetime
back. -/
def Obligations.DecodeOfEncodedImage : Prop :=
  ∀ d : Datetime, d.wf = true →
    let out := encodeDatetime d
    let g : ClockImage := { b0 := out.o1, b1 := out.o2, b2 := out.o3, b3 := out.o4, b4 := out.o5, b5 := out.o6, b6 := out.o7 }
    g.wf = true ∧ decodeImage g = d

/-- R123: the timestamp of a well-formed Datetime from 1970 on is at most TS_MAX; 1970-01-01T00:00:00 is 0; a Datetime is its days,
hours, minutes and seconds after the first second of its month; that of a month is as many days after that of the month before as
the month before has (RtcEncodeWritesImage writes the months out); and the first second of a year is one second after the last
second of the year before. Together these fix every timestamp. -/
def Obligations.TimestampBoundAndEpoch : Prop :=
  (∀ d : Datetime, d.wf = true → 1970 ≤ d.year → toUnix d ≤ 4102444799) ∧
  toUnix ⟨0, 0, 0, 1, 1, 1970⟩ = 0 ∧
  (∀ sec min hour day mon y, 1 ≤ day →
    toUnix ⟨sec, min, hour, day, mon, y⟩ = toUnix ⟨0, 0, 0, 1, mon, y⟩ + (day - 1) * 86400 + hour * 3600 + min * 60 + sec) ∧
  (∀ mon y, 1 ≤ mon → mon ≤ 11 →
    toUnix ⟨0, 0, 0, 1, mon + 1, y⟩ = toUnix ⟨0, 0, 0, 1, mon, y⟩ + daysInMonth mon y * 86400) ∧
  (∀ y, 1970 ≤ y → toUnix ⟨0, 0, 0, 1, 1, y + 1⟩ = toUnix ⟨59, 59, 23, 31, 12, y⟩ + 1)

/-! ## The host's port: a host access is the event at the head of State.script (log entry 2) -/

/-- R52, R16, R17: a 32-bit host read of a register returns its value, of a reserved offset 0, and changes nothing. The offsets of
R15's table are written out, and so is what a read gives of each field of the window that other statements name, its reserved bits
being 0. That the value read goes to State.observed is the model's form of the observation (log entry 13, DESIGN CHOICE). -/
def Obligations.HostReadHasNoSideEffect : Prop :=
  (∀ (s : State) (rest : List Event),
    (∀ r, s.script = rd s.base r :: rest →
      step s = .next { s with script := rest, observed := s.observed ++ [s.win.get r] }) ∧
    (∀ off, 0x6C ≤ off → off ≤ 0xFC → off % 4 = 0 → s.script = .read 4 (s.base + BitVec.ofNat 32 off) :: rest →
      step s = .next { s with script := rest, observed := s.observed ++ [0#32] }) ∧
    s.win.get .id = 0x4F545031#32) ∧
  (∀ off r, (off, r) ∈
      [(0x00, Reg.id), (0x04, Reg.ctrl), (0x08, Reg.status), (0x0C, Reg.cmd), (0x10, Reg.keyAddr), (0x14, Reg.keyLen),
        (0x18, Reg.priAddr), (0x1C, Reg.priLen), (0x20, Reg.appAddr), (0x24, Reg.appLen), (0x28, Reg.cntLo), (0x2C, Reg.cntHi),
        (0x30, Reg.tsLo), (0x34, Reg.tsHi), (0x38, Reg.dt0), (0x3C, Reg.dt1), (0x40, Reg.rtcimg0), (0x44, Reg.rtcimg1),
        (0x48, Reg.rtcout0), (0x4C, Reg.rtcout1), (0x50, Reg.digest0), (0x54, Reg.digest1), (0x58, Reg.digest2), (0x5C, Reg.digest3),
        (0x60, Reg.digest4), (0x64, Reg.otp), (0x68, Reg.leap)] →
    r.offset = off ∧ ∀ (s : State) (rest : List Event), s.script = .read 4 (s.base + BitVec.ofNat 32 off) :: rest →
      step s = .next { s with script := rest, observed := s.observed ++ [s.win.get r] }) ∧
  (∀ w : Window, w.get .cmd = w.cmd ∧ w.get .keyAddr = w.keyAddr ∧ w.get .keyLen = w.keyLen ∧ w.get .priAddr = w.priAddr ∧
    w.get .priLen = w.priLen ∧ w.get .appAddr = w.appAddr ∧ w.get .appLen = w.appLen ∧ w.get .cntLo = w.cntLo ∧
    w.get .cntHi = w.cntHi ∧ w.get .tsLo = w.tsLo ∧ w.get .tsHi = w.tsHi ∧ w.get .dt0 = w.dt0 ∧
    w.get .dt1 = w.dt1 &&& 0xFFFF00FF#32 ∧ w.get .rtcimg0 = w.rtcimg0 ∧ w.get .rtcimg1 = w.rtcimg1 &&& 0x00FFFFFF#32 ∧
    w.get .otp = w.otp ∧ w.get .leap = w.leap &&& 1#32)

/-- R21, R16: an idle core stores a host write of an operand register, less its reserved bits, and no other register changes. The
operand registers are the fourteen of R21. -/
def Obligations.IdleOperandWriteIsStored : Prop :=
  (∀ r : Reg, r.isOperand = true ↔ r ∈ operandRegs) ∧
  (∀ (s : State) (rest : List Event) (r : Reg) (v : Word),
    s.script = wr s.base r v :: rest → r.isOperand = true → s.win.status.busy = false →
    ∃ t, step s = .next t ∧
      (r ≠ .dt1 → r ≠ .rtcimg1 → t.win.get r = v) ∧
      (r = .dt1 → t.win.get r = v &&& 0xFFFF00FF#32) ∧ (r = .rtcimg1 → t.win.get r = v &&& 0x00FFFFFF#32) ∧
      (∀ q, q ≠ r → t.win.get q = s.win.get q) ∧
      t = { s with script := rest, win := t.win })

/-- R21, R150: while a command is in flight a host write of an operand register is ignored, and sets no OVR. -/
def Obligations.BusyOperandWriteIsDropped : Prop :=
  ∀ (s : State) (rest : List Event) (r : Reg) (v : Word),
    s.script = wr s.base r v :: rest → r.isOperand = true → s.win.status.busy = true →
    step s = .next { s with script := rest }

/-- R16, R17: a host write of an RO register (ID, RTCOUT, DIGEST, OTP, LEAP) or of a reserved offset has no effect, busy or idle. -/
def Obligations.ReadOnlyWritesAreIgnored : Prop :=
  ∀ (s : State) (rest : List Event) (v : Word),
    (∀ r, r.isOperand = false → r ≠ .ctrl → r ≠ .status → r ≠ .cmd → s.script = wr s.base r v :: rest →
      step s = .next { s with script := rest }) ∧
    (∀ off, 0x6C ≤ off → off ≤ 0xFC → off % 4 = 0 → s.script = .write 4 (s.base + BitVec.ofNat 32 off) v :: rest →
      step s = .next { s with script := rest })

/-- R63: the effect of the acceptance of a command word, whatever the word. Two things more that the conclusion says are the
model's choices: acceptance also clears perr, a field of the model's own (log entry 8, DESIGN CHOICE), and it leaves pass, blkidx,
t, H, a to e, W and the buffers as they are (log entry 15, DESIGN CHOICE). -/
def Obligations.IdleCmdWriteIsAccepted : Prop :=
  ∀ (s : State) (rest : List Event) (v : Word),
    s.script = wr s.base .cmd v :: rest → s.win.status.busy = false →
    step s = .next { s with
      script := rest
      win := { s.win with cmd := v, status := { busy := true, done := false, err := false, ovr := s.win.status.ovr, errcode := .none } }
      eng := { s.eng with op := v, phase := .check, pend := [], perr := .none } }

/-- R64: a CMD write while BUSY = 1 is not accepted; its only effect is OVR. -/
def Obligations.BusyCmdWriteSetsOverrunOnly : Prop :=
  ∀ (s : State) (rest : List Event) (v : Word),
    s.script = wr s.base .cmd v :: rest → s.win.status.busy = true →
    ∃ t, step s = .next t ∧ t.win.status = { s.win.status with ovr := true } ∧
      (∀ r, r ≠ .status → t.win.get r = s.win.get r) ∧ t = { s with script := rest, win := t.win }

/-- R19: a host write of STATUS clears DONE, ERR and OVR where the written bit is 1 and changes nothing else. -/
def Obligations.StatusWriteClearsWrittenOnes : Prop :=
  ∀ (s : State) (rest : List Event) (v : Word), s.script = wr s.base .status v :: rest →
    ∃ t, step s = .next t ∧
      (t.win.status.done = true ↔ s.win.status.done = true ∧ v.toNat / 2 % 2 = 0) ∧
      (t.win.status.err = true ↔ s.win.status.err = true ∧ v.toNat / 4 % 2 = 0) ∧
      (t.win.status.ovr = true ↔ s.win.status.ovr = true ∧ v.toNat / 8 % 2 = 0) ∧
      t.win.status.busy = s.win.status.busy ∧ t.win.status.errcode = s.win.status.errcode ∧
      (∀ r, r ≠ .status → t.win.get r = s.win.get r) ∧ t = { s with script := rest, win := t.win }

/-- R19, R130: the bits of STATUS as the host reads them, and the number of each error code in ERRCODE. -/
def Obligations.StatusWordLayout : Prop :=
  (∀ w : Window, (w.get .status).toNat =
    (if w.status.busy then 1 else 0) + (if w.status.done then 2 else 0) + (if w.status.err then 4 else 0) +
    (if w.status.ovr then 8 else 0) + 256 * w.status.errcode.toBits.toNat) ∧
  ErrCode.none.toBits.toNat = 0 ∧ ErrCode.inputSize.toBits.toNat = 1 ∧ ErrCode.processing.toBits.toNat = 2 ∧
  ErrCode.illegalCmd.toBits.toNat = 3 ∧ ErrCode.busError.toBits.toNat = 4 ∧
  ErrCode.invalidHexChar.toBits.toNat = 5 ∧ ErrCode.sizing.toBits.toNat = 6

/-- R18, R143, R145: a CTRL write with SRST = 1, busy or idle, resets the core and leaves IE = 0; otherwise IE takes bit 0. The values
the reset gives the internal state that R39 leaves unspecified are the model's choice (log entry 6), and so is that message memory,
the schedule and the observation stay (log entry 19). -/
def Obligations.CtrlWriteSetsEnableOrResets : Prop :=
  ∀ (s : State) (rest : List Event) (v : Word), s.script = wr s.base .ctrl v :: rest →
    (v.toNat / 2 % 2 = 1 → step s = .next { s with script := rest, win := Window.reset, eng := Engine.reset }) ∧
    (v.toNat / 2 % 2 = 0 → ∃ t, step s = .next t ∧ (t.win.ie = true ↔ v.toNat % 2 = 1) ∧
      (t.win.get .ctrl).toNat = v.toNat % 2 ∧
      (∀ r, r ≠ .ctrl → t.win.get r = s.win.get r) ∧ t = { s with script := rest, win := t.win })

/-- R40, R144: what every register reads after reset, IRQ low, the sequencer in IDLE and SINGLE with PEND empty (R39); and the
platform's reset input has the same effect from every state (R143). The values it gives the internal state that R39 leaves
unspecified are the model's choice (log entry 6), and so is that message memory, the schedule and the observation stay (log entry
19). -/
def Obligations.ResetValues : Prop :=
  (∀ r, State.reset.win.get r = if r = .id then 0x4F545031#32 else 0#32) ∧ State.reset.irq = false ∧
  State.reset.eng.phase = .idle ∧ State.reset.eng.pass = .single ∧ State.reset.eng.pend = [] ∧
  (∀ (s : State) (rest : List Event), s.script = .resetInput :: rest →
    step s = .next { s with script := rest, win := State.reset.win, eng := State.reset.eng })

/-- R134: the interrupt line is high exactly while IE = 1 and DONE = 1; so after any completion, of a decoded or of an illegal
word, it is IE. When the completion is the next step, with nothing scheduled or at a `finish` event, is the model's choice (log
entry 2, DESIGN CHOICE). -/
def Obligations.InterruptLineFollowsEnableAndDone : Prop :=
  (∀ s : State, s.irq = true ↔ (s.win.get .ctrl).toNat % 2 = 1 ∧ (s.win.get .status).toNat / 2 % 2 = 1) ∧
  (∀ s t : State,
    ((∃ i, exec i s = .next t) ∨
      (s.eng.phase ≠ .idle ∧ (s.script = [] ∨ ∃ rest, s.script = .finish :: rest) ∧ step s = .next t)) →
    t.irq = s.win.ie)

/-- R51: a window access that is not 32 bits wide, or not at a multiple of 4, is refused, read or write. That the refusal is the
step's outcome, whatever the width beside 4, is the model's reading of R51 (log entry 11, DEDUCED). -/
def Obligations.NarrowOrMisalignedAccessIsRefused : Prop :=
  ∀ (s : State) (rest : List Event) (bytes : Nat) (addr v : Word), (addr - s.base).toNat < 256 →
    bytes ≠ 4 ∨ (addr - s.base).toNat % 4 ≠ 0 →
    (s.script = .write bytes addr v :: rest → step s = .refused .accessNotAligned32) ∧
    (s.script = .read bytes addr :: rest → step s = .refused .accessNotAligned32)

/-- R151, R56: a host write of a byte the command in flight reads is the fault OPERAND_RACE: the primary segment of SHA1 and of
HMAC, the appendix of SHA1 with APP = 1, and the key of HMAC, HOTP and TOTP. That every byte of these segments counts as read, a
byte after one that is not admitted among them, is the model's inference (log entry 10, DEDUCED). That the race ends the run as a
fault of the step, in place of a lasting mark, is the model's choice (log entry 18, DESIGN CHOICE). -/
def Obligations.WritingAnOperandByteRaces : Prop :=
  ∀ (s : State) (rest : List Event) (addr : Word) (data : List Byte) (i j : Nat) (instr : Instr),
    s.script = .mem addr data :: rest → s.eng.phase ≠ .idle → decode s.eng.op = .ok instr → j < data.length →
    (((∃ app, instr = .sha1 app) ∧ i < s.win.priLen.toNat ∧ addr + BitVec.ofNat 32 j = s.win.priAddr + BitVec.ofNat 32 i) ∨
     (instr = .sha1 true ∧ i < s.win.appLen.toNat ∧ addr + BitVec.ofNat 32 j = s.win.appAddr + BitVec.ofNat 32 i) ∨
     (instr = .hmac ∧ s.win.keyLen.toNat ≤ 64 ∧ i < s.win.priLen.toNat ∧
        addr + BitVec.ofNat 32 j = s.win.priAddr + BitVec.ofNat 32 i) ∨
     ((instr = .hmac ∨ (∃ dig, 1 ≤ dig ∧ dig ≤ 9 ∧ (instr = .hotp dig ∨ instr = .totp dig))) ∧ s.win.keyLen.toNat ≤ 64 ∧
        i < s.win.keyLen.toNat ∧ addr + BitVec.ofNat 32 j = s.win.keyAddr + BitVec.ofNat 32 i)) →
    step s = .fault .operandRace

/-- R69 `MEM`, R56: a host write of at most 2^32 bytes that no command in flight reads puts each byte at its address, the address
wrapping (log entry 12), and changes no other byte and no register. The canonical form of memory is a premise (an invariant, see
InvariantKeptByEveryStep). The bytes a command reads (R45) are written out in ReadsByte, which the model's commandReads equals: so
a write outside the segments, and any write under a calendar command, an illegal word or a command that its checks reject, goes
on. That they are the whole segments is the model's inference (log entry 10, DEDUCED). -/
def Obligations.MemoryWriteStoresTheBytes : Prop :=
  (∀ (s : State) (rest : List Event) (addr : Word) (data : List Byte),
    s.script = .mem addr data :: rest →
    (s.eng.phase = .idle ∨ ∀ i, i < data.length → ¬ ReadsByte s.eng.op s.win (addr + BitVec.ofNat 32 i)) →
    data.length ≤ 2 ^ 32 → s.mm.cells.wf = true →
    ∃ t, step s = .next t ∧
      (∀ i, i < data.length → t.mm.byte (addr + BitVec.ofNat 32 i) = data.getD i 0#8) ∧
      (∀ a : Word, (∀ i, i < data.length → a ≠ addr + BitVec.ofNat 32 i) → t.mm.byte a = s.mm.byte a) ∧
      t.mm.admits = s.mm.admits ∧ t = { s with script := rest, mm := t.mm }) ∧
  (∀ (op : Word) (w : Window) (a : Word), commandReads op w a = true ↔ ReadsByte op w a)

/-- R43: the core never writes message memory: no step of the core, and no host access but a memory write, changes a byte of it. That
the platform's reset input changes none either is the model's choice (log entry 19, DESIGN CHOICE), and so is that the admission map
is a part of the state that no step changes (log entries 4 and 19, DESIGN CHOICE). -/
def Obligations.OnlyTheHostWritesMemory : Prop :=
  ∀ s t : State, step s = .next t → (∀ addr data rest, s.script ≠ .mem addr data :: rest) → t.mm = s.mm

/-- R149, R65, R67, R21: while a command is in flight the result and operand registers keep their values, and BUSY stays 1, in every
step but the completion step, the reset input and a CTRL write (offset 0x04) with SRST = 1. -/
def Obligations.ResultsChangeOnlyAtCompletion : Prop :=
  ∀ (s t : State) (ev : Event) (rest : List Event), s.script = ev :: rest → step s = .next t → s.win.status.busy = true →
    ev ≠ .finish → ev ≠ .resetInput →
    (∀ bytes addr v, ev = .write bytes addr v → windowOffset s.base addr = 0x04 → v.getLsbD 1 = false) →
    t.win.status.busy = true ∧ (∀ r, r ∈ resultRegs ∨ r ∈ operandRegs → t.win.get r = s.win.get r)

/-! ## The pipeline -/

/-- R65 (a): an internal step changes no host-visible register, and nothing but the internal state. -/
def Obligations.InternalStepIsInvisible : Prop :=
  ∀ (s : State) (rest : List Event), s.script = .tick :: rest →
    ∃ t, step s = .next t ∧ t = { s with script := rest, eng := t.eng } ∧ t.eng.op = s.eng.op

/-- R31: stepping through the internal state gives what the atomic command function gives. Wherever the internal steps take a
freshly accepted command to COMMIT, PEND or the error there is `Exec`'s (R66); the completion step (R67) commits what `Exec`
gives, legal word or not, and so, of a core that stands in COMMIT on the path of its command, it commits what the internal steps
built. The model's choices here: completion leaves the internal state but for the phase (log entry 15, DESIGN CHOICE), the result
waits in COMMIT (log entry 20, DESIGN CHOICE), an error waits in perr (log entry 8, DESIGN CHOICE), the completion step evaluates
`Exec` and does not read what waits (log entry 3, DEDUCED), and completion comes next where nothing is scheduled (log entry 2,
DESIGN CHOICE). -/
def Obligations.PipelineComputesTheCommandFunction : Prop :=
  (∀ (w : Window) (m : MsgMem) (e : Engine) (n : Nat), e.phase = .check → e.pend = [] → e.perr = .none →
    (e.ticks w m n).phase = .commit → (e.ticks w m n).outcome = commandResult e.op w m) ∧
  (∀ s : State, s.eng.phase ≠ .idle →
    runCommand s = .next (complete (commandResult s.eng.op s.win s.mm) s) ∧
    (s.script = [] → step s = .next (complete (commandResult s.eng.op s.win s.mm) s)) ∧
    (∀ rest, s.script = .finish :: rest →
      step s = .next (complete (commandResult s.eng.op s.win s.mm) { s with script := rest }))) ∧
  (∀ s : State, s.PipelineOnTrack → s.eng.phase = .commit → s.script = [] → step s = .next (complete s.eng.outcome s))

/-- R65: after finitely many internal steps the work of an accepted command is done, whatever the internal state held before (R39).
R65 does not name a phase: that the sequencer then stands in COMMIT and waits there is the model's choice (log entry 20, DESIGN
CHOICE), and how much one internal step does is too (log entry 14, DESIGN CHOICE). -/
def Obligations.PipelineReachesCommit : Prop :=
  ∀ (w : Window) (m : MsgMem) (e : Engine), e.phase = .check → ∃ n, (e.ticks w m n).phase = .commit

/-- R31, R54, R56: whatever the host does, the sequencer of a command in flight stands where its internal steps take the accepted
command on the operands and memory as they are now. -/
def Obligations.EveryStepKeepsThePipelineOnTrack : Prop :=
  ∀ s t : State, s.PipelineOnTrack → step s = .next t → t.PipelineOnTrack

/-- C11, R66, R39: a command's result is a function of its operand registers and of the bytes it reads: nothing else of the state
reaches it. Which bytes count as read is the model's inference (log entry 10, DEDUCED). -/
def Obligations.ResultDependsOnOperandsAndReadBytesOnly : Prop :=
  ∀ (op : Word) (w w' : Window) (m m' : MsgMem), SameOperands w w' →
    (∀ a, commandReads op w a = true → m'.byte a = m.byte a ∧ m'.admitted a = m.admitted a) →
    commandResult op w' m' = commandResult op w m

/-- R70, R65: `WAIT` ends. A poll that finds BUSY = 1 is followed by the completion step, and the next poll ends the wait; that the
core completes between the first two polls is the model's choice (log entry 13). -/
def Obligations.WaitEndsAfterCompletion : Prop :=
  ∀ (s : State) (rest : List Event), s.script = .wait :: rest → s.win.status.busy = true → s.eng.phase ≠ .idle →
    ∃ u v t, step s = .next u ∧ step u = .next v ∧ step v = .next t ∧ t.script = rest ∧
      t.win.status.busy = false ∧ t.win.status.done = true ∧
      t.observed = s.observed ++ [s.win.get .status, t.win.get .status]

/-! ## Invariants -/

/-- R19, R25, R26, R29, R30, R35, R130: every step, from any state, keeps the invariant of the window, the sequencer and memory. -/
def Obligations.InvariantKeptByEveryStep : Prop :=
  ∀ s t : State, s.Inv → step s = .next t → t.Inv

/-- R40, R39: the invariant and the shape hold after reset, and nothing is in flight. The internal values that R39 leaves unspecified
are the model's choice (log entry 6). -/
def Obligations.InvariantHoldsAtReset : Prop :=
  State.reset.Inv ∧ State.reset.EngineShape ∧ State.reset.PipelineOnTrack

/-- R34 to R37, R80: every step, from any state, keeps the shape of the internal state. Its clause on KEYLOAD rests on the phase the key
check stands in (log entry 20), and a reset keeps it by the values the model chose (log entry 6). -/
def Obligations.EngineShapeKeptByEveryStep : Prop :=
  ∀ s t : State, s.EngineShape → step s = .next t → t.EngineShape
end

