-- ==== Sys2Proof/Laws/State.lean ====
section
/-! SUPPORT. One lemma per field per update: what each update of the window and of the state does to each field. -/

namespace Sys2Proof.Machine

/-! ## The window -/

@[simp] theorem Window.put_ie (w : Window) (r : Reg) (v : Word) : (w.put r v).ie = w.ie := by cases r <;> rfl
@[simp] theorem Window.put_status (w : Window) (r : Reg) (v : Word) : (w.put r v).status = w.status := by cases r <;> rfl
@[simp] theorem Window.put_cmd (w : Window) (r : Reg) (v : Word) : (w.put r v).cmd = w.cmd := by cases r <;> rfl

/-- A register keeps its value where another one is stored. -/
theorem Window.get_put_ne (w : Window) {r q : Reg} (v : Word) (h : q ≠ r) : (w.put r v).get q = w.get q := by
  cases r <;> cases q <;> first | rfl | exact absurd rfl h

@[simp] theorem Window.putAll_ie (w : Window) (p : List (Reg × Word)) : (w.putAll p).ie = w.ie := by
  induction p generalizing w with
  | nil => rfl
  | cons c rest ih => simp [putAll, ih]

@[simp] theorem Window.putAll_status (w : Window) (p : List (Reg × Word)) : (w.putAll p).status = w.status := by
  induction p generalizing w with
  | nil => rfl
  | cons c rest ih => simp [putAll, ih]

@[simp] theorem Window.putAll_cmd (w : Window) (p : List (Reg × Word)) : (w.putAll p).cmd = w.cmd := by
  induction p generalizing w with
  | nil => rfl
  | cons c rest ih => simp [putAll, ih]

/-- A register no pair names keeps its value. -/
theorem Window.get_putAll_of_not_mem (w : Window) (p : List (Reg × Word)) {q : Reg} (h : q ∉ p.map Prod.fst) :
    (w.putAll p).get q = w.get q := by
  induction p generalizing w with
  | nil => rfl
  | cons c rest ih =>
    simp only [List.map_cons, List.mem_cons, not_or] at h
    simp only [putAll]
    rw [ih _ h.2, get_put_ne _ _ h.1]

/-- STATUS is the only register whose value a change of the flags changes. -/
theorem Window.get_with_status (w : Window) (f : Status) {q : Reg} (h : q ≠ .status) :
    ({ w with status := f } : Window).get q = w.get q := by
  cases q <;> first | rfl | exact absurd rfl h

/-! ## The flags -/

@[simp] theorem Status.clear_busy (f : Status) (v : Word) : (f.clear v).busy = f.busy := rfl
@[simp] theorem Status.clear_errcode (f : Status) (v : Word) : (f.clear v).errcode = f.errcode := rfl
@[simp] theorem Status.clear_done (f : Status) (v : Word) : (f.clear v).done = (f.done && !v.getLsbD 1) := rfl
@[simp] theorem Status.clear_err (f : Status) (v : Word) : (f.clear v).err = (f.err && !v.getLsbD 2) := rfl
@[simp] theorem Status.clear_ovr (f : Status) (v : Word) : (f.clear v).ovr = (f.ovr && !v.getLsbD 3) := rfl
@[simp] theorem Status.accepted_ovr (f : Status) : f.accepted.ovr = f.ovr := rfl
@[simp] theorem Status.overrun_busy (f : Status) : f.overrun.busy = f.busy := rfl
@[simp] theorem Status.succeeded_ovr (f : Status) : f.succeeded.ovr = f.ovr := rfl
@[simp] theorem Status.failed_ovr (f : Status) (code : ErrCode) : (f.failed code).ovr = f.ovr := rfl

/-! ## The state -/

@[simp] theorem acceptCommand_mm (v : Word) (s : State) : (acceptCommand v s).mm = s.mm := rfl
@[simp] theorem acceptCommand_base (v : Word) (s : State) : (acceptCommand v s).base = s.base := rfl
@[simp] theorem acceptCommand_script (v : Word) (s : State) : (acceptCommand v s).script = s.script := rfl
@[simp] theorem acceptCommand_observed (v : Word) (s : State) : (acceptCommand v s).observed = s.observed := rfl
@[simp] theorem resetCore_mm (s : State) : (resetCore s).mm = s.mm := rfl
@[simp] theorem resetCore_base (s : State) : (resetCore s).base = s.base := rfl
@[simp] theorem resetCore_script (s : State) : (resetCore s).script = s.script := rfl
@[simp] theorem resetCore_observed (s : State) : (resetCore s).observed = s.observed := rfl

@[simp] theorem complete_mm (r : Except ErrCode (List (Reg × Word))) (s : State) : (complete r s).mm = s.mm := by
  cases r <;> rfl
@[simp] theorem complete_base (r : Except ErrCode (List (Reg × Word))) (s : State) : (complete r s).base = s.base := by
  cases r <;> rfl
@[simp] theorem complete_script (r : Except ErrCode (List (Reg × Word))) (s : State) : (complete r s).script = s.script := by
  cases r <;> rfl
@[simp] theorem complete_observed (r : Except ErrCode (List (Reg × Word))) (s : State) :
    (complete r s).observed = s.observed := by
  cases r <;> rfl
@[simp] theorem complete_eng (r : Except ErrCode (List (Reg × Word))) (s : State) :
    (complete r s).eng = { s.eng with phase := .idle } := by
  cases r <;> rfl
@[simp] theorem complete_ie (r : Except ErrCode (List (Reg × Word))) (s : State) : (complete r s).win.ie = s.win.ie := by
  cases r <;> simp [complete, succeedWith, failWith]
@[simp] theorem complete_cmd (r : Except ErrCode (List (Reg × Word))) (s : State) : (complete r s).win.cmd = s.win.cmd := by
  cases r <;> simp [complete, succeedWith, failWith]

@[simp] theorem complete_ok_status (p : List (Reg × Word)) (s : State) :
    (complete (.ok p) s).win.status = s.win.status.succeeded := rfl
@[simp] theorem complete_error_status (code : ErrCode) (s : State) :
    (complete (.error code) s).win.status = s.win.status.failed code := rfl
@[simp] theorem complete_error_win (code : ErrCode) (s : State) :
    (complete (.error code) s).win = { s.win with status := s.win.status.failed code } := rfl

/-- What a success leaves in a register no pair of PEND names. -/
theorem complete_ok_get_of_not_mem (p : List (Reg × Word)) (s : State) {q : Reg} (hq : q ∉ p.map Prod.fst)
    (hs : q ≠ .status) : (complete (.ok p) s).win.get q = s.win.get q := by
  show Window.get { s.win.putAll p with status := s.win.status.succeeded } q = _
  rw [Window.get_with_status _ _ hs, Window.get_putAll_of_not_mem _ _ hq]

/-- What a failure leaves in every register but STATUS. -/
theorem complete_error_get (code : ErrCode) (s : State) {q : Reg} (hs : q ≠ .status) :
    (complete (.error code) s).win.get q = s.win.get q :=
  Window.get_with_status _ _ hs

end Sys2Proof.Machine
end

