-- ==== Sys2Proof/Laws/Calendar.lean ====
section
/-! SUPPORT. The calendar: the day counts of years and months, what the two loops of R125 answer, and the codec of BCD bytes. -/

namespace Sys2Proof.Machine

/-! ## Days of years and months -/

theorem daysInYear_bounds (y : Nat) : 365 ≤ daysInYear y ∧ daysInYear y ≤ 366 := by
  unfold daysInYear
  split <;> omega

theorem daysBeforeYear_epoch : daysBeforeYear 1970 = 0 := rfl

theorem daysBeforeYear_succ {y : Nat} (h : 1970 ≤ y) : daysBeforeYear (y + 1) = daysBeforeYear y + daysInYear y := by
  unfold daysBeforeYear Config.epochYear
  rw [show y + 1 - 1970 = (y - 1970) + 1 by omega, List.range_succ, List.map_append, List.sum_append]
  simp only [List.map_cons, List.map_nil, List.sum_cons, List.sum_nil, Nat.add_zero]
  rw [show 1970 + (y - 1970) = y by omega]

theorem daysBeforeYear_mono {y z : Nat} (hy : 1970 ≤ y) (h : y < z) : daysBeforeYear y + daysInYear y ≤ daysBeforeYear z := by
  induction z with
  | zero => omega
  | succ z ih =>
    rw [daysBeforeYear_succ (show 1970 ≤ z by omega)]
    rcases Nat.lt_or_ge y z with hlt | hge
    · have := ih hlt
      omega
    · obtain rfl : y = z := by omega
      exact le_rfl

theorem daysBeforeMonth_succ {m y : Nat} (h : 1 ≤ m) : daysBeforeMonth (m + 1) y = daysBeforeMonth m y + daysInMonth m y := by
  unfold daysBeforeMonth
  rw [show m + 1 - 1 = (m - 1) + 1 by omega, List.range_succ, List.map_append, List.sum_append]
  simp only [List.map_cons, List.map_nil, List.sum_cons, List.sum_nil, Nat.add_zero]
  rw [show m - 1 + 1 = m by omega]

theorem daysBeforeMonth_one (y : Nat) : daysBeforeMonth 1 y = 0 := rfl

theorem daysBeforeMonth_mono {m n y : Nat} (hm : 1 ≤ m) (h : m < n) :
    daysBeforeMonth m y + daysInMonth m y ≤ daysBeforeMonth n y := by
  induction n with
  | zero => omega
  | succ n ih =>
    rw [daysBeforeMonth_succ (show 1 ≤ n by omega)]
    rcases Nat.lt_or_ge m n with hlt | hge
    · have := ih hlt
      omega
    · obtain rfl : m = n := by omega
      exact le_rfl

/-- The twelve months of a year have its days (R114, R115). -/
theorem daysBeforeMonth_thirteen (y : Nat) : daysBeforeMonth 13 y = daysInYear y := by
  unfold daysInYear
  simp only [daysBeforeMonth, daysInMonth]
  cases isLeap y <;> rfl

/-! ## The loops of R125 -/

/-- The year loop takes whole years off: the days left are fewer than the year's, and no day is lost. -/
theorem yearLoop_spec (fuel days year : Nat) (hy : 1970 ≤ year) (hf : days ≤ fuel) :
    year ≤ (yearLoop fuel days year).2 ∧ (yearLoop fuel days year).1 < daysInYear (yearLoop fuel days year).2 ∧
    daysBeforeYear year + days = daysBeforeYear (yearLoop fuel days year).2 + (yearLoop fuel days year).1 := by
  induction fuel generalizing days year with
  | zero =>
    have := daysInYear_bounds year
    simp only [yearLoop]
    exact ⟨le_rfl, by omega, trivial⟩
  | succ k ih =>
    have hb := daysInYear_bounds year
    simp only [yearLoop]
    split
    · have := ih (days - daysInYear year) (year + 1) (by omega) (by omega)
      rw [daysBeforeYear_succ hy] at this
      omega
    · rename_i hlt
      exact ⟨le_rfl, not_le.mp hlt, rfl⟩

/-- The month loop takes whole months off: it stops at the first month that holds more days than are left. -/
theorem monthLoop_spec (fuel days mon year : Nat) (hm : 1 ≤ mon)
    (hd : daysBeforeMonth mon year + days < daysBeforeMonth (mon + fuel) year) :
    mon ≤ (monthLoop fuel days mon year).2 ∧ (monthLoop fuel days mon year).2 < mon + fuel ∧
    (monthLoop fuel days mon year).1 < daysInMonth (monthLoop fuel days mon year).2 year ∧
    daysBeforeMonth mon year + days =
      daysBeforeMonth (monthLoop fuel days mon year).2 year + (monthLoop fuel days mon year).1 := by
  induction fuel generalizing days mon with
  | zero => simp only [Nat.add_zero] at hd; omega
  | succ k ih =>
    simp only [monthLoop]
    split
    · have hs := daysBeforeMonth_succ (y := year) hm
      have := ih (days - daysInMonth mon year) (mon + 1) (by omega) (by rw [hs, show mon + 1 + k = mon + (k + 1) by omega]; omega)
      rw [hs] at this
      omega
    · rename_i hlt
      exact ⟨le_rfl, Nat.lt_add_of_pos_right (Nat.succ_pos k), not_le.mp hlt, rfl⟩

/-- What R125 answers: the day split of a timestamp, as a date whose days before it and seconds of the day are the timestamp's. -/
theorem fromUnix_spec (ts : Nat) :
    1970 ≤ (fromUnix ts).year ∧ 1 ≤ (fromUnix ts).mon ∧ (fromUnix ts).mon ≤ 12 ∧ 1 ≤ (fromUnix ts).day ∧
    (fromUnix ts).day ≤ daysInMonth (fromUnix ts).mon (fromUnix ts).year ∧
    daysBeforeYear (fromUnix ts).year + daysBeforeMonth (fromUnix ts).mon (fromUnix ts).year + ((fromUnix ts).day - 1) =
      ts / 86400 ∧
    (fromUnix ts).hour * 3600 + (fromUnix ts).min * 60 + (fromUnix ts).sec = ts % 86400 ∧
    (fromUnix ts).hour ≤ 23 ∧ (fromUnix ts).min ≤ 59 ∧ (fromUnix ts).sec ≤ 59 := by
  obtain ⟨hy1, hy2, hy3⟩ := yearLoop_spec (ts / 86400) (ts / 86400) 1970 le_rfl le_rfl
  have hm := monthLoop_spec 12 (yearLoop (ts / 86400) (ts / 86400) 1970).1 1 (yearLoop (ts / 86400) (ts / 86400) 1970).2 le_rfl
    (by rw [daysBeforeMonth_one, daysBeforeMonth_thirteen]; omega)
  rw [daysBeforeMonth_one] at hm
  rw [daysBeforeYear_epoch] at hy3
  simp only [fromUnix, Config.epochYear]
  refine ⟨hy1, hm.1, by omega, by omega, by omega, by omega, ?_, ?_, ?_, ?_⟩ <;> omega

/-- A date is told by its day number. -/
theorem date_unique {y m d y' m' d' : Nat} (hy : 1970 ≤ y) (hy' : 1970 ≤ y') (hm : 1 ≤ m) (hm12 : m ≤ 12) (hm' : 1 ≤ m')
    (hm12' : m' ≤ 12) (hd : d < daysInMonth m y) (hd' : d' < daysInMonth m' y')
    (h : daysBeforeYear y + daysBeforeMonth m y + d = daysBeforeYear y' + daysBeforeMonth m' y' + d') :
    y = y' ∧ m = m' ∧ d = d' := by
  have hin : ∀ m y, 1 ≤ m → m ≤ 12 → daysBeforeMonth m y + daysInMonth m y ≤ daysInYear y := fun m y h1 h2 => by
    rw [← daysBeforeMonth_thirteen]
    exact daysBeforeMonth_mono h1 (by omega)
  have h1 := hin m y hm hm12
  have h2 := hin m' y' hm' hm12'
  rcases Nat.lt_trichotomy y y' with hlt | rfl | hlt
  · have := daysBeforeYear_mono hy hlt
    omega
  · rcases Nat.lt_trichotomy m m' with hlt | rfl | hlt
    · have := daysBeforeMonth_mono (y := y) hm hlt
      omega
    · exact ⟨rfl, rfl, by omega⟩
    · have := daysBeforeMonth_mono (y := y) hm' hlt
      omega
  · have := daysBeforeYear_mono hy' hlt
    omega

/-- The day after TS_MAX's is the first of 2100 (R123). -/
theorem daysBeforeYear_2100 : daysBeforeYear 2100 = 47482 := by decide +kernel

/-! ## Datetimes -/

/-- R116 as bounds. -/
theorem Datetime.wf_iff (d : Datetime) :
    d.wf = true ↔ d.sec ≤ 59 ∧ d.min ≤ 59 ∧ d.hour ≤ 23 ∧ 1 ≤ d.mon ∧ d.mon ≤ 12 ∧ 1 ≤ d.day ∧
      d.day ≤ daysInMonth d.mon d.year ∧ 1900 ≤ d.year ∧ d.year ≤ 2099 := by
  simp only [Datetime.wf, Config.calYearMin, Config.calYearMax, Bool.and_eq_true, decide_eq_true_eq]
  tauto

theorem daysInMonth_le (m y : Nat) : daysInMonth m y ≤ 31 := by
  unfold daysInMonth
  split_ifs <;> omega

/-! ## BCD -/

theorem toBcd_toNat {n : Nat} (h : n ≤ 99) : (toBcd n).toNat = n / 10 * 16 + n % 10 := by
  interval_cases n <;> rfl

theorem bcd_eq (v : Byte) : bcd v = v.toNat / 16 * 10 + v.toNat % 16 := by
  rw [bcd, BitVec.toNat_ushiftRight, Nat.shiftRight_eq_div_pow, BitVec.toNat_and]
  exact congrArg (v.toNat / 16 * 10 + ·) (Nat.and_two_pow_sub_one_eq_mod _ 4)

theorem lowNibble_eq (v : Byte) : lowNibble v = v.toNat % 16 := by
  rw [lowNibble, BitVec.toNat_and]
  exact Nat.and_two_pow_sub_one_eq_mod _ 4

/-! ## Lanes -/

theorem lane_toNat (x : Word) (k : Nat) : (lane x k).toNat = x.toNat / 2 ^ (8 * k) % 256 := by
  rw [lane, BitVec.extractLsb'_toNat, Nat.shiftRight_eq_div_pow]

theorem ofLanes_toNat (b0 b1 b2 b3 : Byte) :
    (ofLanes b0 b1 b2 b3).toNat = b0.toNat + b1.toNat * 2 ^ 8 + b2.toNat * 2 ^ 16 + b3.toNat * 2 ^ 24 := by
  have h0 := b0.isLt
  have h1 := b1.isLt
  have h2 := b2.isLt
  have key : ∀ {n : Nat} (x : BitVec n) (y : Byte), (x ++ y).toNat = x.toNat * 2 ^ 8 + y.toNat := fun x y => by
    rw [BitVec.toNat_append, Nat.shiftLeft_eq, Nat.mul_comm, ← Nat.two_pow_add_eq_or_of_lt y.isLt]
  simp only [ofLanes, key]
  omega

theorem lane_ofLanes (b0 b1 b2 b3 : Byte) :
    lane (ofLanes b0 b1 b2 b3) 0 = b0 ∧ lane (ofLanes b0 b1 b2 b3) 1 = b1 ∧ lane (ofLanes b0 b1 b2 b3) 2 = b2 ∧
    lane (ofLanes b0 b1 b2 b3) 3 = b3 := by
  have h0 := b0.isLt
  have h1 := b1.isLt
  have h2 := b2.isLt
  have h3 := b3.isLt
  refine ⟨?_, ?_, ?_, ?_⟩ <;> apply BitVec.eq_of_toNat_eq <;> rw [lane_toNat, ofLanes_toNat] <;> norm_num <;> omega

/-- The Datetime a window holds after DT0 and DT1 were written from one whose fields fit (R25, R120). -/
theorem datetimeOf_written {w : Window} {d : Datetime} (h0 : w.dt0 = dt0Of d) (h1 : w.dt1 = dt1Of d) (hs : d.sec < 256)
    (hm : d.min < 256) (hh : d.hour < 256) (hd : d.day < 256) (hmo : d.mon < 256) (hy : d.year < 65536) : datetimeOf w = d := by
  obtain ⟨l0, l1, l2, l3⟩ := lane_ofLanes (BitVec.ofNat 8 d.sec) (BitVec.ofNat 8 d.min) (BitVec.ofNat 8 d.hour) (BitVec.ofNat 8 d.day)
  have hmon : lane w.dt1 0 = BitVec.ofNat 8 d.mon := by
    rw [h1, dt1Of, lane]
    ext i hi
    simp only [BitVec.getElem_extractLsb', BitVec.getLsbD_append]
    rw [if_pos (by omega), BitVec.getLsbD_eq_getElem (by omega)]
    congr 1
    omega
  have hyear : w.dt1.extractLsb' 16 16 = BitVec.ofNat 16 d.year := by
    rw [h1, dt1Of]
    ext i hi
    simp only [BitVec.getElem_extractLsb', BitVec.getLsbD_append]
    rw [if_neg (by omega), if_neg (by omega), BitVec.getLsbD_eq_getElem (by omega)]
    congr 1
    omega
  rw [datetimeOf, hmon, hyear, h0, dt0Of, l0, l1, l2, l3]
  simp only [BitVec.toNat_ofNat]
  cases d
  simp only [Datetime.mk.injEq] at *
  omega

/-- The fields of a well-formed Datetime fit their places in DT0 and DT1. -/
theorem Datetime.fields_fit {d : Datetime} (h : d.wf = true) :
    d.sec < 256 ∧ d.min < 256 ∧ d.hour < 256 ∧ d.day < 256 ∧ d.mon < 256 ∧ d.year < 65536 := by
  have := (Datetime.wf_iff d).mp h
  have := daysInMonth_le d.mon d.year
  omega

/-- DT0 as a number (R120). -/
theorem dt0Of_toNat {d : Datetime} (hs : d.sec < 256) (hm : d.min < 256) (hh : d.hour < 256) (hd : d.day < 256) :
    (dt0Of d).toNat = d.sec + d.min * 2 ^ 8 + d.hour * 2 ^ 16 + d.day * 2 ^ 24 := by
  rw [dt0Of, ofLanes_toNat]
  simp only [BitVec.toNat_ofNat]
  omega

/-- DT1 as a number (R120). -/
theorem dt1Of_toNat {d : Datetime} (hm : d.mon < 256) (hy : d.year < 65536) : (dt1Of d).toNat = d.mon + d.year * 2 ^ 16 := by
  have key : ∀ {n : Nat} (x : BitVec n) (y : Byte), (x ++ y).toNat = x.toNat * 2 ^ 8 + y.toNat := fun x y => by
    rw [BitVec.toNat_append, Nat.shiftLeft_eq, Nat.mul_comm, ← Nat.two_pow_add_eq_or_of_lt y.isLt]
  rw [dt1Of, key, key]
  simp only [BitVec.toNat_ofNat]
  omega

/-- A Datetime's DT1 has its reserved bits 0 (R25). -/
theorem dt1Of_reserved (d : Datetime) : dt1Of d &&& dt1Mask = dt1Of d := by
  apply BitVec.eq_of_getLsbD_eq
  intro i hi
  rw [BitVec.getLsbD_and, dt1Of, BitVec.getLsbD_append, BitVec.getLsbD_append]
  interval_cases i <;> simp [dt1Mask]

/-- The year in DT1 (R25). -/
theorem datetimeOf_year (w : Window) : (datetimeOf w).year = w.dt1.toNat / 2 ^ 16 := by
  have := w.dt1.isLt
  rw [datetimeOf]
  simp only [BitVec.extractLsb'_toNat, Nat.shiftRight_eq_div_pow]
  omega

theorem ClockImage.decode_wf {g : ClockImage} (h : g.wf = true) : (decodeImage g).wf = true := by
  simp only [ClockImage.wf, Bool.and_eq_true] at h
  exact h.2

end Sys2Proof.Machine
end

