-- ==== Sys2Proof/Laws/Ops.lean ====
section
/-! SUPPORT. Everything the shared operations can do: the reads of message memory, the meaning of a command, and one step. -/

namespace Sys2Proof.Machine

/-! ## Reads of message memory fail with BUS_ERROR alone -/

theorem MsgMem.read_ok {m : MsgMem} {a : Word} (h : m.admitted a = true) : m.read a = .ok (m.byte a) := by
  simp [MsgMem.read, h]

theorem MsgMem.read_error {m : MsgMem} {a : Word} (h : m.admitted a = false) : m.read a = .error .busError := by
  simp [MsgMem.read, h]

theorem MsgMem.read_cases (m : MsgMem) (a : Word) :
    (m.admitted a = true ∧ m.read a = .ok (m.byte a)) ∨ (m.admitted a = false ∧ m.read a = .error .busError) := by
  cases h : m.admitted a <;> simp [MsgMem.read, h]

theorem segByte_error {m : MsgMem} {b : Buffers} {g : Segment} {i : Nat} {code : ErrCode}
    (h : segByte m b g i = .error code) :
    code = .busError ∧ g.src = .mm ∧ m.admitted (g.base + BitVec.ofNat 32 i) = false := by
  cases hs : g.src <;> simp only [segByte, hs, reduceCtorEq] at h
  rcases m.read_cases (g.base + BitVec.ofNat 32 i) with ⟨_, hr⟩ | ⟨ha, hr⟩
  · rw [hr] at h; simp at h
  · rw [hr] at h; simp at h; exact ⟨h.symm, rfl, ha⟩

theorem virtualByte_error {m : MsgMem} {b : Buffers} {g1 g2 : Segment} {j : Nat} {code : ErrCode}
    (h : virtualByte m b g1 g2 j = .error code) : code = .busError := by
  simp only [virtualByte] at h
  split_ifs at h
  · exact (segByte_error h).1
  · exact (segByte_error h).1

theorem readBytes_error {f : Nat → Except ErrCode Byte} {i n : Nat} {code : ErrCode} (h : readBytes f i n = .error code) :
    ∃ j, i ≤ j ∧ j < i + n ∧ f j = .error code := by
  induction n generalizing i with
  | zero => simp [readBytes] at h
  | succ k ih =>
    simp only [readBytes] at h
    split at h
    · rename_i c hc
      exact ⟨i, le_rfl, by omega, by simpa using hc.trans (by simpa using h)⟩
    · split at h
      · rename_i c hc
        obtain ⟨j, h1, h2, h3⟩ := ih (hc.trans (by simpa using h))
        exact ⟨j, by omega, by omega, h3⟩
      · simp at h

theorem readBytes_length {f : Nat → Except ErrCode Byte} {i n : Nat} {bs : List Byte} (h : readBytes f i n = .ok bs) :
    bs.length = n := by
  induction n generalizing i bs with
  | zero => simp [readBytes] at h; simp [← h]
  | succ k ih =>
    simp only [readBytes] at h
    split at h
    · simp at h
    · split at h
      · simp at h
      · rename_i rest hr
        simp only [Except.ok.injEq] at h
        rw [← h, List.length_cons, ih hr]

/-- Where every byte of a range answers, the reading is those bytes. -/
theorem readBytes_ok {f : Nat → Except ErrCode Byte} {g : Nat → Byte} {i n : Nat}
    (h : ∀ j, i ≤ j → j < i + n → f j = .ok (g j)) : readBytes f i n = .ok ((List.range' i n).map g) := by
  induction n generalizing i with
  | zero => rfl
  | succ k ih =>
    simp only [readBytes, h i le_rfl (by omega), ih (i := i + 1) (fun j h1 h2 => h j (by omega) (by omega)), List.range'_succ,
      List.map_cons]

theorem readBlock_error {m : MsgMem} {b : Buffers} {g1 g2 : Segment} {k : Nat} {code : ErrCode}
    (h : readBlock m b g1 g2 k = .error code) : code = .busError := by
  obtain ⟨j, _, _, hj⟩ := readBytes_error h
  exact virtualByte_error hj

theorem hashBlocks_error {m : MsgMem} {b : Buffers} {g1 g2 : Segment} {k n : Nat} {h0 : HashState} {code : ErrCode}
    (h : hashBlocks m b g1 g2 k n h0 = .error code) : code = .busError := by
  induction n generalizing k h0 with
  | zero => simp [hashBlocks] at h
  | succ n ih =>
    simp only [hashBlocks] at h
    split at h
    · rename_i c hc
      rw [← Except.error.inj h]
      exact readBlock_error hc
    · exact ih h

theorem sha1DigestWords_error {m : MsgMem} {b : Buffers} {g1 g2 : Segment} {code : ErrCode}
    (h : sha1DigestWords m b g1 g2 = .error code) : code = .busError := hashBlocks_error h

theorem hmacCore_error {m : MsgMem} {b : Buffers} {g1 g2 : Segment} {code : ErrCode}
    (h : hmacCore m b g1 g2 = .error code) : code = .busError := by
  simp only [hmacCore] at h
  split at h
  · rename_i c hc
    obtain ⟨j, _, _, hj⟩ := readBytes_error hc
    rw [← Except.error.inj h]
    exact (segByte_error hj).1
  · split at h
    · rename_i c hc
      rw [← Except.error.inj h]
      exact sha1DigestWords_error hc
    · exact sha1DigestWords_error h

/-! ## What a command's function can return -/

/-- The registers a command writes when it succeeds (R60). -/
def writesOf : Instr → List Reg
  | .sha1 _ => [.digest0, .digest1, .digest2, .digest3, .digest4]
  | .hmac => [.digest0, .digest1, .digest2, .digest3, .digest4]
  | .hotp _ => [.digest0, .digest1, .digest2, .digest3, .digest4, .otp]
  | .totp _ => [.digest0, .digest1, .digest2, .digest3, .digest4, .otp]
  | .rtcDecode => [.dt0, .dt1]
  | .rtcEncode => [.rtcout0, .rtcout1]
  | .dtToUnix => [.tsLo, .tsHi]
  | .unixToDt => [.dt0, .dt1]
  | .rtcToUnix => [.dt0, .dt1, .tsLo, .tsHi]
  | .leap => [.leap]

/-- What a command returned is sound: an error is one of the three a decoded command raises (R130), and a success writes just the
command's result registers (R60), the passcode below 10^9 (R29). -/
def SoundResult (i : Instr) (r : Except ErrCode (List (Reg × Word))) : Prop :=
  (∀ code, r = .error code → code = .inputSize ∨ code = .processing ∨ code = .busError) ∧
  (∀ p, r = .ok p → p.map Prod.fst = writesOf i ∧ ∀ v, (Reg.otp, v) ∈ p → v.toNat ≤ 999999999)

theorem sha1Result_sound (app : Bool) (w : Window) (m : MsgMem) : SoundResult (.sha1 app) (sha1Result app w m) := by
  unfold sha1Result
  split
  · rename_i c hc
    exact ⟨fun code h => by rw [← Except.error.inj h]; exact .inr (.inr (sha1DigestWords_error hc)), by simp⟩
  · exact ⟨by simp, fun p h => by rw [← Except.ok.inj h]; simp [pendDigest, writesOf]⟩

theorem hmacResult_sound (w : Window) (m : MsgMem) : SoundResult .hmac (hmacResult w m) := by
  unfold hmacResult
  split
  · exact ⟨fun code h => by simp at h; simp [← h], by simp⟩
  · split
    · rename_i c hc
      exact ⟨fun code h => by rw [← Except.error.inj h]; exact .inr (.inr (hmacCore_error hc)), by simp⟩
    · exact ⟨by simp, fun p h => by rw [← Except.ok.inj h]; simp [pendDigest, writesOf]⟩

/-- The checks of HOTP and TOTP, in their order (R103). -/
theorem otpChecks_cases (dig : Nat) (w : Window) :
    (64 < w.keyLen.toNat ∧ otpChecks dig w = .error .inputSize) ∨
    (w.keyLen.toNat ≤ 64 ∧ ¬(1 ≤ dig ∧ dig ≤ 9) ∧ otpChecks dig w = .error .processing) ∨
    (w.keyLen.toNat ≤ 64 ∧ 1 ≤ dig ∧ dig ≤ 9 ∧ otpChecks dig w = .ok ()) := by
  unfold otpChecks
  split_ifs with h1 h2
  · exact .inl ⟨h1, rfl⟩
  · exact .inr (.inr ⟨not_lt.mp h1, h2.1, h2.2, rfl⟩)
  · exact .inr (.inl ⟨not_lt.mp h1, h2, rfl⟩)

theorem passcode_lt (dig : Nat) (hs : List Byte) : passcode dig hs < 10 ^ dig :=
  Nat.mod_lt _ (Nat.pow_pos (by decide))

theorem passcode_le_of_digits {dig : Nat} (hs : List Byte) (h : dig ≤ 9) : passcode dig hs ≤ 999999999 := by
  have h1 := passcode_lt dig hs
  have h2 : 10 ^ dig ≤ 10 ^ 9 := Nat.pow_le_pow_right (by decide) h
  omega

theorem otpResult_sound (dig counter : Nat) (w : Window) (m : MsgMem) {i : Instr}
    (hi : writesOf i = writesOf (.hotp dig)) : SoundResult i (otpResult dig counter w m) := by
  unfold otpResult
  rcases otpChecks_cases dig w with ⟨_, h⟩ | ⟨_, _, h⟩ | ⟨_, _, h9, h⟩ <;> rw [h]
  · exact ⟨fun code h => by simp at h; simp [← h], by simp⟩
  · exact ⟨fun code h => by simp at h; simp [← h], by simp⟩
  · dsimp only
    split
    · rename_i c hc
      exact ⟨fun code h => by rw [← Except.error.inj h]; exact .inr (.inr (hmacCore_error hc)), by simp⟩
    · rename_i hs hh
      refine ⟨by simp, fun p h => ?_⟩
      rw [← Except.ok.inj h, hi]
      refine ⟨by simp [pendOtp, pendDigest, writesOf], fun v hv => ?_⟩
      have : v = BitVec.ofNat 32 (passcode dig (digestBytes hs)) := by
        simpa [pendOtp, pendDigest] using hv
      subst this
      exact le_trans (by simpa using Nat.mod_le _ _) (passcode_le_of_digits _ h9)

/-- Everything the meaning of a command can do: it completes, with a sound result, and ends in the next state. -/
theorem exec_sound (i : Instr) (s : State) : ∃ r, exec i s = .next (complete r s) ∧ SoundResult i r := by
  cases i with
  | sha1 app => exact ⟨_, rfl, sha1Result_sound app s.win s.mm⟩
  | hmac => exact ⟨_, rfl, hmacResult_sound s.win s.mm⟩
  | hotp dig => exact ⟨_, rfl, otpResult_sound dig _ s.win s.mm rfl⟩
  | totp dig => exact ⟨_, rfl, otpResult_sound dig _ s.win s.mm rfl⟩
  | rtcDecode =>
    refine ⟨_, rfl, ?_⟩
    unfold rtcDecodeResult
    split <;> simp [SoundResult, pendDatetime, writesOf]
  | rtcEncode =>
    refine ⟨_, rfl, ?_⟩
    unfold rtcEncodeResult
    split <;> simp [SoundResult, pendWriteImage, writesOf]
  | dtToUnix =>
    refine ⟨_, rfl, ?_⟩
    unfold dtToUnixResult
    split <;> simp [SoundResult, pendTimestamp, writesOf]
  | unixToDt =>
    refine ⟨_, rfl, ?_⟩
    unfold unixToDtResult
    split <;> simp [SoundResult, pendDatetime, writesOf]
  | rtcToUnix =>
    refine ⟨_, rfl, ?_⟩
    unfold rtcToUnixResult
    split <;> simp [SoundResult, pendDatetime, pendTimestamp, writesOf]
  | leap =>
    refine ⟨_, rfl, ?_⟩
    simp [SoundResult, leapResult, writesOf]

/-- Everything the completion step of a command in flight can do, decoded or illegal. -/
theorem runCommand_sound (s : State) :
    (∃ i r, decode s.eng.op = .ok i ∧ runCommand s = exec i s ∧ runCommand s = .next (complete r s) ∧ SoundResult i r) ∨
    ((∃ e, decode s.eng.op = .error e) ∧ runCommand s = .next (complete (.error .illegalCmd) s)) := by
  unfold runCommand
  cases h : decode s.eng.op with
  | error e => exact .inr ⟨⟨e, rfl⟩, rfl⟩
  | ok i =>
    obtain ⟨r, hr, hs⟩ := exec_sound i s
    exact .inl ⟨i, r, rfl, rfl, hr, hs⟩

/-! ## The window's layout -/

/-- Every register stands at its own offset (R15). -/
theorem regAt_offset (r : Reg) : regAt r.offset = some r := by cases r <;> rfl

theorem Reg.offset_lt (r : Reg) : r.offset < 256 := by cases r <;> decide

theorem Reg.offset_mod (r : Reg) : r.offset % 4 = 0 := by cases r <;> rfl

/-- The reserved offsets hold no register (R15, R16). -/
theorem regAt_reserved {off : Nat} (h : 0x6C ≤ off) : regAt off = none := by
  simp only [regAt, List.find?_eq_none, beq_iff_eq]
  intro r _ he
  have : r.offset ≤ 0x68 := by cases r <;> decide
  omega

theorem windowOffset_add (base : Word) {off : Nat} (h : off < 256) : windowOffset base (base + BitVec.ofNat 32 off) = off := by
  rw [windowOffset, add_sub_cancel_left, BitVec.toNat_ofNat]
  omega

/-- A 32-bit access at a multiple of 4 inside the window passes the access rules. -/
theorem checkAccess_ok (s : State) {off : Nat} (h : off < 256) (h4 : off % 4 = 0) :
    checkAccess 4 (s.base + BitVec.ofNat 32 off) s = .ok off := by
  simp only [checkAccess, windowOffset_add s.base h]
  rw [if_neg (not_le.mpr h), if_pos (by simpa using h4)]

/-- A `WR` of a register reaches it (R69). -/
theorem runEvent_wr (r : Reg) (v : Word) (s : State) : runEvent (wr s.base r v) s = .next (writeReg r v s) := by
  simp only [runEvent, wr, hostWrite, checkAccess_ok s r.offset_lt r.offset_mod, writeWindow, regAt_offset]

/-- A `RD` of a register returns it (R69). -/
theorem runEvent_rd (r : Reg) (s : State) :
    runEvent (rd s.base r) s = .next { s with observed := s.observed ++ [s.win.get r] } := by
  simp only [runEvent, rd, hostRead, checkAccess_ok s r.offset_lt r.offset_mod, readWindow, regAt_offset]

/-! ## One step -/

theorem step_of_empty {s : State} (h : s.script = []) : step s = coreFinish s := by
  simp [step, nextStep, h]

theorem step_of_event {s : State} {ev : Event} {rest : List Event} (h : s.script = ev :: rest) :
    step s = runEvent ev { s with script := rest } := by
  simp [step, nextStep, h]

/-- Everything a write of a register can do to the machine. -/
theorem writeReg_cases (r : Reg) (v : Word) (s : State) :
    writeReg r v s = s ∨
    (r = .ctrl ∧ v.getLsbD 1 = true ∧ writeReg r v s = resetCore s) ∨
    (r = .ctrl ∧ v.getLsbD 1 = false ∧ writeReg r v s = { s with win := { s.win with ie := v.getLsbD 0 } }) ∨
    (r = .status ∧ writeReg r v s = { s with win := { s.win with status := s.win.status.clear v } }) ∨
    (r = .cmd ∧ s.win.status.busy = true ∧ writeReg r v s = { s with win := { s.win with status := s.win.status.overrun } }) ∨
    (r = .cmd ∧ s.win.status.busy = false ∧ writeReg r v s = acceptCommand v s) ∨
    (r.isOperand = true ∧ s.win.status.busy = false ∧ writeReg r v s = { s with win := s.win.put r v }) := by
  cases r <;> simp only [writeReg, writeCtrl, writeStatus, writeCmd, writeOperand, Reg.isOperand, reduceCtorEq, false_and, true_and,
    false_or, or_false, if_true, if_false] <;> first | (split <;> simp_all) | simp

/-- Everything a host write on the bus can do. -/
theorem hostWrite_cases (bytes : Nat) (addr v : Word) (s : State) :
    (∃ why, hostWrite bytes addr v s = .refused why) ∨ hostWrite bytes addr v s = .next s ∨
    (∃ r, windowOffset s.base addr = r.offset ∧ hostWrite bytes addr v s = .next (writeReg r v s)) := by
  unfold hostWrite
  cases h : checkAccess bytes addr s with
  | error why => exact .inl ⟨why, rfl⟩
  | ok off =>
    have hoff : off = windowOffset s.base addr := by
      simp only [checkAccess] at h
      split_ifs at h
      exact (Except.ok.inj h).symm
    simp only [writeWindow]
    cases hr : regAt off with
    | none => exact .inr (.inl rfl)
    | some r =>
      refine .inr (.inr ⟨r, ?_, rfl⟩)
      have := List.find?_some hr
      rw [← hoff]
      exact (by simpa using this : r.offset = off).symm

/-- Everything a step that ends in a next state can do, by what moves. -/
inductive Moved (s t : State) : Prop where
  /-- IDLE with nothing scheduled: the machine waits. -/
  | waits (h : s.script = []) (hp : s.eng.phase = .idle) (ht : t = s)
  /-- The event comes off the schedule and nothing else changes. -/
  | skips (ev : Event) (rest : List Event) (h : s.script = ev :: rest) (ht : t = { s with script := rest })
      (hm : ∀ a d, ev ≠ .mem a d)
  /-- A host write of a register; `writeReg_cases` says what it can do. -/
  | writes (bytes : Nat) (addr v : Word) (r : Reg) (rest : List Event) (h : s.script = .write bytes addr v :: rest)
      (hr : windowOffset s.base addr = r.offset) (ht : t = writeReg r v { s with script := rest })
  /-- A host read. -/
  | reads (bytes : Nat) (addr x : Word) (rest : List Event) (h : s.script = .read bytes addr :: rest)
      (ht : t = { s with script := rest, observed := s.observed ++ [x] })
  /-- A host write of message memory that is no operand race. -/
  | stores (addr : Word) (data : List Byte) (rest : List Event) (h : s.script = .mem addr data :: rest)
      (hrace : s.eng.phase = .idle ∨ anyRead s.eng.op s.win addr data.length = false)
      (ht : t = { s with script := rest, mm := { s.mm with cells := s.mm.cells.writeBytes addr data } })
  /-- A poll that ends a wait. -/
  | polls (rest : List Event) (h : s.script = .wait :: rest) (hb : s.win.status.busy = false)
      (ht : t = { s with script := rest, observed := s.observed ++ [s.win.get .status] })
  /-- A poll that finds the core busy. -/
  | pollsBusy (rest : List Event) (h : s.script = .wait :: rest) (hb : s.win.status.busy = true)
      (ht : t = { s with script := .finish :: .wait :: rest, observed := s.observed ++ [s.win.get .status] })
  /-- The platform's reset input. -/
  | resets (rest : List Event) (h : s.script = .resetInput :: rest) (ht : t = resetCore { s with script := rest })
  /-- An internal step. -/
  | ticks (rest : List Event) (h : s.script = .tick :: rest) (ht : t = { s with script := rest, eng := s.eng.tick s.win s.mm })
  /-- The completion step; `runCommand_sound` says what it can do. -/
  | completes (rest : List Event) (h : s.script = [] ∧ rest = [] ∨ s.script = .finish :: rest) (hp : s.eng.phase ≠ .idle)
      (ht : runCommand { s with script := rest } = .next t)

theorem step_cases {s t : State} (h : step s = .next t) : Moved s t := by
  cases hs : s.script with
  | nil =>
    rw [step_of_empty hs] at h
    unfold coreFinish at h
    split at h
    · rename_i hp
      exact .waits hs hp (Host.Outcome.next.inj h).symm
    · rename_i hp
      refine .completes [] (.inl ⟨hs, rfl⟩) hp ?_
      rw [show ({ s with script := [] } : State) = s by rw [← hs]]
      exact h
  | cons ev rest =>
    rw [step_of_event hs] at h
    cases ev with
    | write bytes addr v =>
      simp only [runEvent] at h
      rcases hostWrite_cases bytes addr v { s with script := rest } with ⟨why, hw⟩ | hw | ⟨r, hr, hw⟩ <;> rw [hw] at h
      · simp at h
      · exact .skips _ rest hs (Host.Outcome.next.inj h).symm (by simp)
      · exact .writes bytes addr v r rest hs hr (Host.Outcome.next.inj h).symm
    | read bytes addr =>
      simp only [runEvent, hostRead] at h
      split at h
      · simp at h
      · exact .reads bytes addr _ rest hs (Host.Outcome.next.inj h).symm
    | mem addr data =>
      simp only [runEvent, hostMem] at h
      split_ifs at h with hc
      refine .stores addr data rest hs ?_ (Host.Outcome.next.inj h).symm
      rcases Classical.em (s.eng.phase = .idle) with hp | hp
      · exact .inl hp
      · exact .inr (by simpa using fun hr => hc ⟨hp, hr⟩)
    | wait =>
      simp only [runEvent, hostWait] at h
      split_ifs at h with hb
      · exact .pollsBusy rest hs hb (Host.Outcome.next.inj h).symm
      · exact .polls rest hs (by simpa using hb) (Host.Outcome.next.inj h).symm
    | resetInput => exact .resets rest hs (Host.Outcome.next.inj h).symm
    | tick => exact .ticks rest hs (Host.Outcome.next.inj h).symm
    | finish =>
      simp only [runEvent, coreFinish] at h
      split at h
      · exact .skips _ rest hs (Host.Outcome.next.inj h).symm (by simp)
      · rename_i hp
        exact .completes rest (.inr hs) hp h

end Sys2Proof.Machine
end

