-- ==== Sys2Proof/Laws/Sha1.lean ====
section
/-! SUPPORT. The engine reads its virtual message on demand from two segments; where every byte answers, what it computes is the
SHA-1 of the two segments' bytes in one piece (41_sha1.md R79, R93). Also the sizes of what it handles. -/

namespace Sys2Proof.Machine

/-! ## Sizes -/

@[simp] theorem beBytes_length (n v : Nat) : (beBytes n v).length = n := by simp [beBytes]

@[simp] theorem be32bytes_length (v : Word) : (be32bytes v).length = 4 := by simp [be32bytes]

@[simp] theorem be64bytes_length (v : Nat) : (be64bytes v).length = 8 := by simp [be64bytes]

@[simp] theorem digestBytes_length (h : HashState) : (digestBytes h).length = 20 := by simp [digestBytes]

@[simp] theorem keyPad_length (fill : Byte) {key : List Byte} (h : key.length ≤ 64) : (keyPad fill key).length = 64 := by
  simp [keyPad]
  omega

theorem extendSchedule_length (n : Nat) (ws : List Word) : (extendSchedule n ws).length = ws.length + n := by
  induction n generalizing ws with
  | zero => rfl
  | succ k ih => simp only [extendSchedule, ih, List.length_cons]; omega

theorem blockWords_length (n : Nat) (blk : List Byte) (h : blk.length = 4 * n) : (blockWords blk).length = n := by
  induction n generalizing blk with
  | zero => rw [List.length_eq_zero_iff.mp (show blk.length = 0 by omega)]; rfl
  | succ k ih =>
    match blk, h with
    | b0 :: b1 :: b2 :: b3 :: rest, h => simp only [blockWords, List.length_cons, ih rest (by simp at h; omega)]
    | [], h => simp at h
    | [_], h => simp at h; omega
    | [_, _], h => simp at h; omega
    | [_, _, _], h => simp at h; omega

/-- A block of 64 bytes has 80 schedule words (R82, R83). -/
theorem schedule_length {blk : List Byte} (h : blk.length = 64) : (schedule blk).length = 80 := by
  simp [schedule, extendSchedule_length, blockWords_length 16 blk h]

/-- The rounds over one more schedule word: the last of them is the round of that word. -/
theorem sha1Rounds_concat (t : Nat) (ws : List Word) (wt : Word) (v : Working) :
    sha1Rounds t (ws ++ [wt]) v = sha1Round (t + ws.length) wt (sha1Rounds t ws v) := by
  induction ws generalizing t v with
  | nil => rfl
  | cons x xs ih => simp only [List.cons_append, sha1Rounds, ih, List.length_cons]; congr 1; omega

theorem padLen_spec (len : Nat) : (len + padLen len + 1) % 64 = 56 ∧ padLen len ≤ 63 := by
  unfold padLen
  omega

/-- The padded message is its blocks (R78). -/
theorem paddedMessage_length (msg : List Byte) : (paddedMessage msg).length = 64 * blockCount msg.length := by
  have := padLen_spec msg.length
  simp only [paddedMessage, List.length_append, List.length_cons, List.length_nil, List.length_replicate, be64bytes_length,
    blockCount]
  omega

/-! ## A segment's bytes -/

/-- The bytes of a segment, where each answers. -/
def segmentBytes (m : MsgMem) (bufs : Buffers) (g : Segment) : List Byte :=
  (List.range g.len).map fun i => ((segByte m bufs g i).toOption).getD 0#8

/-- Every byte of the segment answers. -/
def SegmentReads (m : MsgMem) (bufs : Buffers) (g : Segment) : Prop :=
  ∀ i, i < g.len → ∃ b, segByte m bufs g i = .ok b

@[simp] theorem segmentBytes_length (m : MsgMem) (bufs : Buffers) (g : Segment) : (segmentBytes m bufs g).length = g.len := by
  simp [segmentBytes]

theorem segByte_eq {m : MsgMem} {bufs : Buffers} {g : Segment} (h : SegmentReads m bufs g) {i : Nat} (hi : i < g.len) :
    segByte m bufs g i = .ok ((segmentBytes m bufs g).getD i 0#8) := by
  obtain ⟨b, hb⟩ := h i hi
  simp [segmentBytes, hi, hb, Except.toOption]

theorem segmentReads_mm {m : MsgMem} (bufs : Buffers) {base : Word} {len : Nat} (h : AdmittedAt m base len) :
    SegmentReads m bufs ⟨.mm, base, len⟩ :=
  fun i hi => ⟨_, MsgMem.read_ok (h i hi)⟩

theorem segmentBytes_mm {m : MsgMem} (bufs : Buffers) {base : Word} {len : Nat} (h : AdmittedAt m base len) :
    segmentBytes m bufs ⟨.mm, base, len⟩ = bytesAt m base len := by
  simp only [segmentBytes, bytesAt]
  refine List.map_congr_left fun i hi => ?_
  simp [segByte, MsgMem.read_ok (h i (List.mem_range.mp hi)), Except.toOption]

/-- A segment named by a buffer of its length is the buffer. -/
theorem segmentBytes_buffer {m : MsgMem} {bufs : Buffers} {g : Segment} {buf : List Byte}
    (h : ∀ i, segByte m bufs g i = .ok (buf.getD i 0#8)) (hl : buf.length = g.len) :
    SegmentReads m bufs g ∧ segmentBytes m bufs g = buf := by
  refine ⟨fun i _ => ⟨_, h i⟩, List.ext_getElem (by simp [hl]) fun i h1 h2 => ?_⟩
  simp [segmentBytes, h, Except.toOption, h2]

/-! ## The virtual message -/

/-- R79: the virtual byte is the byte of the padded message. -/
theorem virtualByte_eq {m : MsgMem} {bufs : Buffers} {g1 g2 : Segment} (h1 : SegmentReads m bufs g1)
    (h2 : SegmentReads m bufs g2) {j : Nat} :
    virtualByte m bufs g1 g2 j =
      .ok ((paddedMessage (segmentBytes m bufs g1 ++ segmentBytes m bufs g2)).getD j 0#8) := by
  have hl : (segmentBytes m bufs g1 ++ segmentBytes m bufs g2).length = messageLen g1 g2 := by simp [messageLen]
  simp only [virtualByte, paddedMessage, hl]
  have hm : messageLen g1 g2 = g1.len + g2.len := rfl
  by_cases c1 : j < g1.len
  · rw [if_pos c1, segByte_eq h1 c1]
    grind [segmentBytes_length]
  rw [if_neg c1]
  by_cases c2 : j < messageLen g1 g2
  · rw [if_pos c2, segByte_eq h2 (by omega)]
    grind [segmentBytes_length]
  rw [if_neg c2]
  by_cases c3 : j = messageLen g1 g2
  · rw [if_pos c3]
    grind [segmentBytes_length]
  rw [if_neg c3]
  by_cases c4 : j < messageLen g1 g2 + 1 + padLen (messageLen g1 g2)
  · rw [if_pos c4]
    grind [segmentBytes_length]
  · rw [if_neg c4, List.getD_append_right _ _ _ _ (by simp only [List.length_append, List.length_cons, List.length_nil,
      List.length_replicate, segmentBytes_length, ← hm]; omega)]
    simp only [List.length_append, List.length_cons, List.length_nil, List.length_replicate, segmentBytes_length, ← hm]

/-- R81: a block is the next 64 bytes of the padded message. -/
theorem readBlock_eq {m : MsgMem} {bufs : Buffers} {g1 g2 : Segment} (h1 : SegmentReads m bufs g1) (h2 : SegmentReads m bufs g2)
    {b : Nat} (hb : b < blockCount (messageLen g1 g2)) :
    readBlock m bufs g1 g2 b =
      .ok (((paddedMessage (segmentBytes m bufs g1 ++ segmentBytes m bufs g2)).drop (64 * b)).take 64) := by
  rw [readBlock, readBytes_ok (g := fun j =>
    (paddedMessage (segmentBytes m bufs g1 ++ segmentBytes m bufs g2)).getD j 0#8) (fun j _ _ => virtualByte_eq h1 h2)]
  have hl := paddedMessage_length (segmentBytes m bufs g1 ++ segmentBytes m bufs g2)
  rw [List.length_append, segmentBytes_length, segmentBytes_length, ← messageLen] at hl
  refine congrArg _ (List.ext_getElem ?_ fun i hi1 hi2 => ?_)
  · simp only [List.length_map, List.length_range', List.length_take, List.length_drop, hl]
    omega
  · simp only [List.getElem_map, List.getElem_range', List.getElem_take, List.getElem_drop]
    rw [List.getD_eq_getElem _ _ (by simp at hi1; omega)]
    simp

/-- R91: the blocks from `b` on are the chunks of what is left of the padded message. -/
theorem hashBlocks_eq {m : MsgMem} {bufs : Buffers} {g1 g2 : Segment} (h1 : SegmentReads m bufs g1) (h2 : SegmentReads m bufs g2)
    {b n : Nat} (hb : b + n ≤ blockCount (messageLen g1 g2)) (h : HashState) :
    hashBlocks m bufs g1 g2 b n h =
      .ok (hashChunks n ((paddedMessage (segmentBytes m bufs g1 ++ segmentBytes m bufs g2)).drop (64 * b)) h) := by
  induction n generalizing b h with
  | zero => rfl
  | succ k ih =>
    simp only [hashBlocks, readBlock_eq h1 h2 (b := b) (by omega), hashChunks]
    rw [ih (by omega), List.drop_drop, show 64 * b + 64 = 64 * (b + 1) by ring]

/-- R93: where both segments answer, the engine computes the SHA-1 of their bytes in one piece. -/
theorem sha1DigestWords_eq {m : MsgMem} {bufs : Buffers} {g1 g2 : Segment} (h1 : SegmentReads m bufs g1)
    (h2 : SegmentReads m bufs g2) :
    sha1DigestWords m bufs g1 g2 = .ok (sha1Bytes (segmentBytes m bufs g1 ++ segmentBytes m bufs g2)) := by
  rw [sha1DigestWords, hashBlocks_eq h1 h2 (by omega), sha1Bytes]
  simp [messageLen]

/-- R42: where a byte of a segment does not answer, neither does the engine. -/
theorem sha1DigestWords_of_unread {m : MsgMem} {bufs : Buffers} {g1 g2 : Segment}
    (h : ¬(SegmentReads m bufs g1 ∧ SegmentReads m bufs g2)) : sha1DigestWords m bufs g1 g2 = .error .busError := by
  obtain ⟨j, hj, code, he⟩ : ∃ j, j < messageLen g1 g2 ∧ ∃ code, virtualByte m bufs g1 g2 j = .error code := by
    have hex : (∃ i, i < g1.len ∧ ∃ code, segByte m bufs g1 i = .error code) ∨
        (∃ i, i < g2.len ∧ ∃ code, segByte m bufs g2 i = .error code) := by
      by_contra hc
      simp only [not_or, not_exists, not_and] at hc
      refine h ⟨fun i hi => ?_, fun i hi => ?_⟩
      · cases hb : segByte m bufs g1 i with
        | ok b => exact ⟨b, rfl⟩
        | error code => exact absurd hb (hc.1 i hi code)
      · cases hb : segByte m bufs g2 i with
        | ok b => exact ⟨b, rfl⟩
        | error code => exact absurd hb (hc.2 i hi code)
    rcases hex with ⟨i, hi, code, hb⟩ | ⟨i, hi, code, hb⟩
    · exact ⟨i, by simp only [messageLen]; omega, code, by simp only [virtualByte, if_pos hi, hb]⟩
    · refine ⟨g1.len + i, by simp only [messageLen]; omega, code, ?_⟩
      simp only [virtualByte, messageLen, if_neg (show ¬g1.len + i < g1.len by omega),
        if_pos (show g1.len + i < g1.len + g2.len by omega), show g1.len + i - g1.len = i by omega, hb]
  have hcount : j < 64 * blockCount (messageLen g1 g2) := by
    have := padLen_spec (messageLen g1 g2)
    unfold blockCount
    omega
  have hread : ∀ i n, i ≤ j → j < i + n → ∃ c, readBytes (virtualByte m bufs g1 g2) i n = .error c := by
    intro i n
    induction n generalizing i with
    | zero => intro h1 h2; omega
    | succ k ih =>
      intro h1 h2
      rcases Nat.eq_or_lt_of_le h1 with rfl | hlt
      · exact ⟨code, by simp only [readBytes, he]⟩
      · obtain ⟨c, hc⟩ := ih (i + 1) hlt (by omega)
        simp only [readBytes, hc]
        cases virtualByte m bufs g1 g2 i with
        | error c' => exact ⟨c', rfl⟩
        | ok b => exact ⟨c, rfl⟩
  have hblocks : ∀ b n h0, 64 * b ≤ j → j < 64 * (b + n) → ∃ c, hashBlocks m bufs g1 g2 b n h0 = .error c := by
    intro b n
    induction n generalizing b with
    | zero => intro h0 h1 h2; omega
    | succ k ih =>
      intro h0 h1 h2
      simp only [hashBlocks]
      cases hr : readBlock m bufs g1 g2 b with
      | error c => exact ⟨c, rfl⟩
      | ok blk =>
        refine ih (b + 1) _ ?_ (by omega)
        by_contra hc
        obtain ⟨c, hc'⟩ := hread (64 * b) 64 h1 (by omega)
        rw [readBlock] at hr
        rw [hr] at hc'
        simp at hc'
  obtain ⟨c, hc⟩ := hblocks 0 (blockCount (messageLen g1 g2)) initialHash (by omega) (by omega)
  rw [sha1DigestWords, hc, hashBlocks_error hc]

end Sys2Proof.Machine
end

