-- ==== Sys2Proof/Laws/Codec.lean ====
section
/-! SUPPORT. The big-endian codec (40_codec.md R71, R72) and the schedule (41_sha1.md R82, R83) element by element. -/

namespace Sys2Proof.Machine

/-! ## Packing and unpacking -/

theorem two_pow_eight_mul (n : Nat) : 2 ^ (8 * n) = 256 ^ n := by rw [Nat.pow_mul]

theorem beBytes_succ (n v : Nat) : beBytes (n + 1) v = BitVec.ofNat 8 (v >>> (8 * n)) :: beBytes n v := by
  unfold beBytes
  rw [List.range_succ_eq_map, List.map_cons, List.map_map]
  congr 1
  apply List.map_congr_left
  intro k _
  simp only [Function.comp, Nat.succ_eq_add_one]
  congr 3
  omega

theorem beNat_cons (b : Byte) (s : List Byte) : beNat (b :: s) = b.toNat * 256 ^ s.length + beNat s := by
  have key : ∀ (s : List Byte) (a : Nat), s.foldl (fun acc b => acc * 256 + b.toNat) a = a * 256 ^ s.length + beNat s := by
    intro s
    induction s with
    | nil => intro a; simp [beNat]
    | cons c s ih =>
      intro a
      have e : beNat (c :: s) = (0 * 256 + c.toNat) * 256 ^ s.length + beNat s := ih _
      rw [List.foldl_cons, ih, e, List.length_cons, Nat.pow_succ]
      ring
  rw [beNat, List.foldl_cons, key]
  ring

theorem beNat_lt (s : List Byte) : beNat s < 256 ^ s.length := by
  induction s with
  | nil => decide
  | cons b s ih =>
    have := b.isLt
    rw [beNat_cons, List.length_cons, Nat.pow_succ]
    nlinarith

/-- Packing drops what does not fit. -/
theorem beBytes_mod (n v : Nat) : beBytes n (v % 256 ^ n) = beBytes n v := by
  unfold beBytes
  apply List.map_congr_left
  intro k hk
  have hk := List.mem_range.mp hk
  apply BitVec.eq_of_toNat_eq
  simp only [BitVec.toNat_ofNat, Nat.shiftRight_eq_div_pow]
  rw [← two_pow_eight_mul]
  have : 2 ^ (8 * n) = 2 ^ (8 * (n - (k + 1))) * 2 ^ (8 * (k + 1)) := by rw [← Nat.pow_add]; congr 1; omega
  rw [this, Nat.mod_mul_right_div_self, Nat.mod_mod_of_dvd]
  rw [Nat.mul_add, Nat.pow_add]
  exact Dvd.intro_left _ rfl

/-! ## The schedule -/

theorem rotl32_one (x : Word) : rotl32 x 1 = x.rotateLeft 1 := by rw [rotl32, BitVec.rotateLeft_def]

/-- The last word made is made from the words before it. -/
theorem extendSchedule_succ (n : Nat) (ws : List Word) :
    extendSchedule (n + 1) ws =
      rotl32 ((extendSchedule n ws).getD 2 0#32 ^^^ (extendSchedule n ws).getD 7 0#32 ^^^ (extendSchedule n ws).getD 13 0#32 ^^^
        (extendSchedule n ws).getD 15 0#32) 1 :: extendSchedule n ws := by
  induction n generalizing ws with
  | zero => rfl
  | succ k ih => rw [extendSchedule, ih]; rfl

theorem extendSchedule_drop (n : Nat) (ws : List Word) : (extendSchedule n ws).drop n = ws := by
  induction n generalizing ws with
  | zero => rfl
  | succ k ih =>
    simp only [extendSchedule]
    rw [← List.drop_drop, ih]
    rfl

/-- R82: word `t` of a block is its bytes 4t to 4t+3. -/
theorem blockWords_getD (n : Nat) (blk : List Byte) (h : blk.length = 4 * n) (t : Nat) (ht : t < n) :
    (blockWords blk).getD t 0#32 = BitVec.ofNat 32 (beNat ((blk.drop (4 * t)).take 4)) := by
  induction n generalizing blk t with
  | zero => omega
  | succ n ih =>
    match blk, h with
    | b0 :: b1 :: b2 :: b3 :: rest, h =>
      simp only [blockWords]
      cases t with
      | zero => rfl
      | succ t =>
        rw [List.getD_cons_succ, ih rest (by simp at h; omega) t (by omega), show 4 * (t + 1) = 4 + 4 * t by ring,
          ← List.drop_drop]
        rfl
    | [], h => simp at h
    | [_], h => simp at h; omega
    | [_, _], h => simp at h; omega
    | [_, _, _], h => simp at h; omega

end Sys2Proof.Machine
end

