-- ==== Sys2Proof/Laws/Pipeline.lean ====
section
/-! SUPPORT. The internal steps of the core: what each leaves unchanged, and which phases it can lead to. -/

namespace Sys2Proof.Machine

/-! ## The parts of an internal step -/

theorem Engine.await_op (e : Engine) (r : Except ErrCode (List (Reg × Word))) : (e.await r).op = e.op := by cases r <;> rfl
theorem Engine.await_phase (e : Engine) (r : Except ErrCode (List (Reg × Word))) : (e.await r).phase = .commit := by
  cases r <;> rfl

theorem Engine.passDone_op (e : Engine) : e.passDone.op = e.op := by
  unfold Engine.passDone
  split
  · rfl
  · rfl
  · split <;> rfl

theorem tickCheck_op (w : Window) (e : Engine) : (tickCheck w e).op = e.op := by
  unfold tickCheck
  split <;> try rfl
  · split <;> rfl
  all_goals (unfold Engine.startOtp; split <;> rfl)

theorem tickKeyload_op (w : Window) (m : MsgMem) (e : Engine) : (tickKeyload w m e).op = e.op := by
  unfold tickKeyload
  split <;> rfl

theorem tickHash_op (m : MsgMem) (e : Engine) : (tickHash m e).op = e.op := by
  unfold tickHash
  split_ifs
  · cases readBlock m e.bufs e.seg1 e.seg2 e.blkidx <;> rfl
  · rfl
  · unfold Engine.blockDone
    dsimp only
    split_ifs
    · rfl
    · exact Engine.passDone_op _

theorem tickTrunc_op (e : Engine) : (tickTrunc e).op = e.op := by
  unfold tickTrunc
  split <;> rfl

theorem tickCal_op (w : Window) (e : Engine) : (tickCal w e).op = e.op := by
  unfold tickCal
  split <;> first | exact Engine.await_op _ _ | rfl

/-- An internal step keeps the latched command word (R63). -/
theorem Engine.tick_op (w : Window) (m : MsgMem) (e : Engine) : (e.tick w m).op = e.op := by
  unfold Engine.tick
  split
  · rfl
  · exact tickCheck_op w e
  · exact tickKeyload_op w m e
  · exact tickHash_op m e
  · exact tickTrunc_op e
  · exact tickCal_op w e
  · rfl

/-! ## The phases -/

theorem Engine.passDone_phase (e : Engine) : e.passDone.phase = .hash ∨ e.passDone.phase = .trunc ∨ e.passDone.phase = .commit := by
  unfold Engine.passDone
  split
  · exact .inr (.inr rfl)
  · exact .inl rfl
  · split <;> first | exact .inr (.inl rfl) | exact .inr (.inr rfl)

theorem tickCheck_phase (w : Window) (e : Engine) : (tickCheck w e).phase ≠ .idle ∧ (tickCheck w e).phase ≠ .check := by
  unfold tickCheck
  split <;> try (simp [Engine.abort, Engine.startHash]; done)
  · split <;> simp [Engine.abort]
  all_goals (unfold Engine.startOtp; split <;> simp [Engine.abort])

theorem tickKeyload_phase (w : Window) (m : MsgMem) (e : Engine) :
    (tickKeyload w m e).phase = .hash ∨ (tickKeyload w m e).phase = .commit := by
  unfold tickKeyload
  split
  · exact .inr rfl
  · exact .inl rfl

theorem tickHash_phase (m : MsgMem) (e : Engine) (h : e.phase = .hash) :
    (tickHash m e).phase = .hash ∨ (tickHash m e).phase = .trunc ∨ (tickHash m e).phase = .commit := by
  unfold tickHash
  split_ifs
  · cases readBlock m e.bufs e.seg1 e.seg2 e.blkidx
    · exact .inr (.inr rfl)
    · exact .inl h
  · exact .inl h
  · unfold Engine.blockDone
    dsimp only
    split_ifs
    · exact .inl h
    · exact Engine.passDone_phase _

theorem tickTrunc_phase (e : Engine) : (tickTrunc e).phase = .commit := by
  unfold tickTrunc
  split <;> rfl

theorem tickCal_phase (w : Window) (e : Engine) : (tickCal w e).phase = .commit := by
  unfold tickCal
  split <;> first | exact Engine.await_phase _ _ | rfl

/-- An internal step leads from IDLE to IDLE alone, and from no other phase to IDLE (R65). -/
theorem Engine.tick_phase_idle (w : Window) (m : MsgMem) (e : Engine) : (e.tick w m).phase = .idle ↔ e.phase = .idle := by
  cases hp : e.phase <;> simp only [Engine.tick, hp, reduceCtorEq, iff_false]
  · exact (tickCheck_phase w e).1
  · rcases tickKeyload_phase w m e with h | h <;> simp [h]
  · rcases tickHash_phase m e hp with h | h | h <;> simp [h]
  · simp [tickTrunc_phase]
  · simp [tickCal_phase]

theorem Engine.ticks_succ (w : Window) (m : MsgMem) (n : Nat) (e : Engine) :
    e.ticks w m (n + 1) = (e.tick w m).ticks w m n := rfl

/-- Internal steps keep the latched command word. -/
theorem Engine.ticks_op (w : Window) (m : MsgMem) (n : Nat) (e : Engine) : (e.ticks w m n).op = e.op := by
  induction n generalizing e with
  | zero => rfl
  | succ k ih => rw [Engine.ticks_succ, ih, Engine.tick_op]

theorem Engine.ticks_add (w : Window) (m : MsgMem) (n k : Nat) (e : Engine) :
    e.ticks w m (n + k) = (e.ticks w m n).ticks w m k := by
  induction n generalizing e with
  | zero => simp [Engine.ticks]
  | succ n ih => rw [Nat.add_right_comm, Engine.ticks_succ, ih, Engine.ticks_succ]

/-- In COMMIT the pipeline waits (R65). -/
theorem Engine.ticks_commit (w : Window) (m : MsgMem) (n : Nat) (e : Engine) (h : e.phase = .commit) : e.ticks w m n = e := by
  induction n with
  | zero => rfl
  | succ n ih => rw [Engine.ticks_succ, show e.tick w m = e by simp [Engine.tick, h], ih]

end Sys2Proof.Machine
end

