-- ==== Sys2Proof/Laws/Congruence.lean ====
section
/-! SUPPORT. What a command's result and an internal step depend on: the operand registers less their reserved bits, and the bytes
the command reads. -/

namespace Sys2Proof.Machine

/-- Two windows give every command the same operands. -/
structure SameRead (w w' : Window) : Prop where
  keyAddr : w'.keyAddr = w.keyAddr
  keyLen : w'.keyLen = w.keyLen
  pri : priSegment w' = priSegment w
  app : appSegment w' = appSegment w
  cnt : counterOf w' = counterOf w
  ts : timestampOf w' = timestampOf w
  dt : datetimeOf w' = datetimeOf w
  img : clockImageOf w' = clockImageOf w

theorem SameRead.key {w w' : Window} (h : SameRead w w') : keySegment w' = keySegment w := by rw [keySegment, keySegment, h.1, h.2]
theorem SameRead.checks {w w' : Window} (h : SameRead w w') (d : Nat) : otpChecks d w' = otpChecks d w := by rw [otpChecks, otpChecks, h.2]
theorem SameRead.appx {w w' : Window} (h : SameRead w w') (a : Bool) : appendixOf a w' = appendixOf a w := by rw [appendixOf, appendixOf, h.4]

theorem tick_congr_window {w w' : Window} (h : SameRead w w') (m : MsgMem) (e : Engine) : e.tick w' m = e.tick w m := by
  have h1 : tickCheck w' e = tickCheck w e := by
    simp only [tickCheck, Engine.startOtp, totpCounter, h.checks, h.pri, h.appx, h.cnt, h.ts, h.keyLen]
  have h2 : tickKeyload w' m e = tickKeyload w m e := by
    simp only [tickKeyload, messageSegment, h.key, h.pri]
  have h3 : tickCal w' e = tickCal w e := by
    simp only [tickCal, rtcDecodeResult, rtcEncodeResult, dtToUnixResult, unixToDtResult, rtcToUnixResult, leapResult, h.dt, h.img, h.ts]
  rw [Engine.tick, Engine.tick, h1, h2, h3]

theorem ticks_congr_window {w w' : Window} (h : SameRead w w') (m : MsgMem) (n : Nat) (e : Engine) : e.ticks w' m n = e.ticks w m n := by
  induction n generalizing e with
  | zero => rfl
  | succ n ih => rw [Engine.ticks_succ, Engine.ticks_succ, tick_congr_window h, ih]

theorem result_congr_window {w w' : Window} (h : SameRead w w') (m : MsgMem) (op : Word) : commandResult op w' m = commandResult op w m := by
  simp only [commandResult, sha1Result, hmacResult, hotpResult, totpResult, otpResult, totpCounter, rtcDecodeResult, rtcEncodeResult, dtToUnixResult, unixToDtResult, rtcToUnixResult, leapResult, h.dt, h.img, h.ts, h.checks, h.pri, h.appx, h.cnt, h.keyLen, h.key]

theorem lane_mask {x y m : Word} (k : Nat) (h : x &&& m = y &&& m) (hm : lane m k = 0xff#8) : lane x k = lane y k := by
  have := congrArg (lane · k) h
  simp only [lane] at this hm ⊢
  rwa [BitVec.extractLsb'_and, BitVec.extractLsb'_and, hm, show (0xff#8 : Byte) = BitVec.allOnes 8 from rfl, BitVec.and_allOnes,
    BitVec.and_allOnes] at this

theorem sameRead_of_operands {w w' : Window} (h : SameOperands w w') : SameRead w w' := by
  have f : ∀ r, r.isOperand = true → w'.get r = w.get r := h
  have a1 : w'.keyAddr = w.keyAddr := f .keyAddr rfl
  have a2 : w'.keyLen = w.keyLen := f .keyLen rfl
  have a3 : w'.priAddr = w.priAddr := f .priAddr rfl
  have a4 : w'.priLen = w.priLen := f .priLen rfl
  have a5 : w'.appAddr = w.appAddr := f .appAddr rfl
  have a6 : w'.appLen = w.appLen := f .appLen rfl
  have a7 : w'.cntLo = w.cntLo := f .cntLo rfl
  have a8 : w'.cntHi = w.cntHi := f .cntHi rfl
  have a9 : w'.tsLo = w.tsLo := f .tsLo rfl
  have a10 : w'.tsHi = w.tsHi := f .tsHi rfl
  have a11 : w'.dt0 = w.dt0 := f .dt0 rfl
  have a12 : w'.dt1 &&& dt1Mask = w.dt1 &&& dt1Mask := f .dt1 rfl
  have a13 : w'.rtcimg0 = w.rtcimg0 := f .rtcimg0 rfl
  have a14 : w'.rtcimg1 &&& rtcimg1Mask = w.rtcimg1 &&& rtcimg1Mask := f .rtcimg1 rfl
  have y : w'.dt1.extractLsb' 16 16 = w.dt1.extractLsb' 16 16 := by
    have := congrArg (fun x : Word => x.extractLsb' 16 16) a12
    rwa [BitVec.extractLsb'_and, BitVec.extractLsb'_and, show dt1Mask.extractLsb' 16 16 = BitVec.allOnes 16 from rfl, BitVec.and_allOnes,
      BitVec.and_allOnes] at this
  refine ⟨a1, a2, ?_, ?_, ?_, ?_, ?_, ?_⟩
  · rw [priSegment, priSegment, a3, a4]
  · rw [appSegment, appSegment, a5, a6]
  · rw [counterOf, counterOf, a7, a8]
  · rw [timestampOf, timestampOf, a9, a10]
  · rw [datetimeOf, datetimeOf, a11, y, lane_mask 0 a12 rfl]
  · rw [clockImageOf, clockImageOf, a13, lane_mask 0 a14 rfl, lane_mask 1 a14 rfl, lane_mask 2 a14 rfl]

theorem sameRead_ie (w : Window) (b : Bool) : SameRead w { w with ie := b } := by constructor <;> rfl
theorem sameRead_status (w : Window) (b : Status) : SameRead w { w with status := b } := by constructor <;> rfl

/-! ## Message memory -/

theorem readBytes_congr {f g : Nat → Except ErrCode Byte} {i n : Nat} (h : ∀ j, i ≤ j → j < i + n → f j = g j) : readBytes f i n = readBytes g i n := by
  induction n generalizing i with
  | zero => rfl
  | succ k ih => rw [readBytes, readBytes, h i (le_refl _) (by omega), ih (fun j h1 h2 => h j (by omega) (by omega))]

/-- `m'` agrees with `m` on the addresses of `P`. -/
def AgreeOn (P : Word → Prop) (m m' : MsgMem) : Prop := ∀ a, P a → m'.byte a = m.byte a ∧ m'.admitted a = m.admitted a

/-- The MM addresses of a segment are among those of `P`. -/
def SegIn (P : Word → Prop) (g : Segment) : Prop := g.src = .mm → ∀ i, i < g.len → P (g.base + BitVec.ofNat 32 i)

theorem segByte_congr {P : Word → Prop} {m m' : MsgMem} (h : AgreeOn P m m') (b : Buffers) {g : Segment} (hg : SegIn P g) {i : Nat} (hi : i < g.len) :
    segByte m' b g i = segByte m b g i := by
  cases hs : g.src <;> simp only [segByte, hs]
  have := h _ (hg hs i hi)
  rw [MsgMem.read, MsgMem.read, this.1, this.2]

theorem virtualByte_congr {P : Word → Prop} {m m' : MsgMem} (h : AgreeOn P m m') (b : Buffers) {g1 g2 : Segment} (h1 : SegIn P g1) (h2 : SegIn P g2) (j : Nat) :
    virtualByte m' b g1 g2 j = virtualByte m b g1 g2 j := by
  unfold virtualByte
  dsimp only
  by_cases c1 : j < g1.len
  · rw [if_pos c1, if_pos c1, segByte_congr h b h1 c1]
  rw [if_neg c1, if_neg c1]
  by_cases c2 : j < messageLen g1 g2
  · rw [if_pos c2, if_pos c2, segByte_congr h b h2 (by unfold messageLen at c2; omega)]
  rw [if_neg c2, if_neg c2]

theorem readBlock_congr {P : Word → Prop} {m m' : MsgMem} (h : AgreeOn P m m') (b : Buffers) {g1 g2 : Segment} (h1 : SegIn P g1) (h2 : SegIn P g2) (k : Nat) :
    readBlock m' b g1 g2 k = readBlock m b g1 g2 k := by
  unfold readBlock
  exact readBytes_congr fun j _ _ => virtualByte_congr h b h1 h2 j

theorem readKey_congr {P : Word → Prop} {m m' : MsgMem} (h : AgreeOn P m m') (b : Buffers) {g : Segment} (h1 : SegIn P g) :
    readKey m' b g = readKey m b g := by
  unfold readKey
  exact readBytes_congr fun j _ hj => segByte_congr h b h1 (by omega)

theorem hashBlocks_congr {P : Word → Prop} {m m' : MsgMem} (h : AgreeOn P m m') (b : Buffers) {g1 g2 : Segment} (h1 : SegIn P g1) (h2 : SegIn P g2) (k n : Nat) (h0 : HashState) :
    hashBlocks m' b g1 g2 k n h0 = hashBlocks m b g1 g2 k n h0 := by
  induction n generalizing k h0 with
  | zero => rfl
  | succ n ih =>
    rw [hashBlocks, hashBlocks, readBlock_congr h b h1 h2]
    simp only [ih]

theorem sha1_congr {P : Word → Prop} {m m' : MsgMem} (h : AgreeOn P m m') (b : Buffers) {g1 g2 : Segment} (h1 : SegIn P g1) (h2 : SegIn P g2) :
    sha1DigestWords m' b g1 g2 = sha1DigestWords m b g1 g2 := hashBlocks_congr h b h1 h2 _ _ _

theorem segIn_buf (P : Word → Prop) {g : Segment} (h : g.src ≠ .mm) : SegIn P g := fun hs => absurd hs h

theorem hmac_congr {P : Word → Prop} {m m' : MsgMem} (h : AgreeOn P m m') (b : Buffers) {g1 g2 : Segment} (h1 : SegIn P g1) (h2 : SegIn P g2) :
    hmacCore m' b g1 g2 = hmacCore m b g1 g2 := by
  unfold hmacCore
  rw [readKey_congr h b h1]
  cases readKey m b g1 with
  | error c => rfl
  | ok k =>
    dsimp only
    rw [sha1_congr h _ (segIn_buf P (g := ipadSegment) (by decide)) h2]
    cases sha1DigestWords m (withPads b k) ipadSegment g2 with
    | error c => rfl
    | ok k =>
      dsimp only
      rw [sha1_congr h _ (segIn_buf P (g := opadSegment) (by decide)) (segIn_buf P (g := innerSegment) (by decide))]

theorem covers_of_lt {b : Word} {src : Src} {len i : Nat} (hl : len < 2^32) (hi : i < len) : Segment.covers ⟨src, b, len⟩ (b + BitVec.ofNat 32 i) = true := by
  simp only [Segment.covers, add_sub_cancel_left, BitVec.toNat_ofNat, decide_eq_true_eq]
  omega

/-- A segment of message memory covers exactly its `len` wrapping addresses (R22). -/
theorem covers_iff (src : Src) (base n a : Word) : Segment.covers ⟨src, base, n.toNat⟩ a = true ↔ InSegment base n.toNat a := by
  refine ⟨fun h => ⟨_, of_decide_eq_true h, ?_⟩, ?_⟩
  · rw [BitVec.ofNat_toNat, BitVec.setWidth_eq]; exact (add_sub_cancel base a).symm
  · rintro ⟨i, hi, rfl⟩; exact covers_of_lt n.isLt hi
theorem segIn_key {P : Word → Prop} {w : Window} (h : ∀ a, (keySegment w).covers a = true → P a) : SegIn P (keySegment w) :=
  fun _ _ hi => h _ (covers_of_lt w.keyLen.isLt hi)
theorem segIn_pri {P : Word → Prop} {w : Window} (h : ∀ a, (priSegment w).covers a = true → P a) : SegIn P (priSegment w) :=
  fun _ _ hi => h _ (covers_of_lt w.priLen.isLt hi)
theorem segIn_app {P : Word → Prop} {w : Window} (h : ∀ a, (appSegment w).covers a = true → P a) : SegIn P (appSegment w) :=
  fun _ _ hi => h _ (covers_of_lt w.appLen.isLt hi)

theorem result_congr_mem {op : Word} {w : Window} {m m' : MsgMem} (h : AgreeOn (commandReads op w · = true) m m') :
   commandResult op w m' = commandResult op w m := by
  unfold commandResult
  cases hd : decode op with
  | error e => rfl
  | ok i =>
    cases i <;> dsimp only
    · rename_i app
      have hp : SegIn (commandReads op w · = true) (priSegment w) := segIn_pri fun a ha => by simp [commandReads, hd, ha]
      have ha : SegIn (commandReads op w · = true) (appendixOf app w) := by
        cases app
        · exact segIn_buf _ (g := noSegment) (by decide)
        · exact segIn_app fun a ha => by simp [commandReads, hd, ha]
      rw [sha1Result, sha1Result, sha1_congr h _ hp ha]
    · unfold hmacResult
      by_cases hk : Config.hmacKeyMax < w.keyLen.toNat
      · rw [if_pos hk, if_pos hk]
      · rw [if_neg hk, if_neg hk, hmac_congr h]
        · exact segIn_key fun a ha => by simp [commandReads, hd, ha]; omega
        · exact segIn_pri fun a ha => by simp [commandReads, hd, ha]; omega
    · rename_i d
      unfold hotpResult otpResult
      cases hc : otpChecks d w with
      | error c => rfl
      | ok u =>
        dsimp only
        rw [hmac_congr h _ _ (segIn_buf _ (g := counterSegment) (by decide))]
        exact segIn_key fun a ha => by simp [commandReads, hd, ha, hc, Except.isOk, Except.toBool]
    · rename_i d
      unfold totpResult otpResult
      cases hc : otpChecks d w with
      | error c => rfl
      | ok u =>
        dsimp only
        rw [hmac_congr h _ _ (segIn_buf _ (g := counterSegment) (by decide))]
        exact segIn_key fun a ha => by simp [commandReads, hd, ha, hc, Except.isOk, Except.toBool]

/-! ## Internal steps -/

/-- The segments an internal step reads lie among the addresses of `P`. -/
def Engine.ReadsIn (P : Word → Prop) (w : Window) (e : Engine) : Prop :=
  (e.phase = .keyload → SegIn P (keySegment w) ∧ SegIn P (messageSegment e.op w)) ∧
  (e.phase = .hash → SegIn P e.seg1 ∧ SegIn P e.seg2)

theorem Engine.readsIn_other {P : Word → Prop} {w : Window} {e : Engine} (h1 : e.phase ≠ .keyload) (h2 : e.phase ≠ .hash) :
    e.ReadsIn P w := ⟨fun h => absurd h h1, fun h => absurd h h2⟩

theorem Engine.readsIn_startHash {P : Word → Prop} {w : Window} {e : Engine} {p : Pass} {g1 g2 : Segment} (h1 : SegIn P g1)
    (h2 : SegIn P g2) : (e.startHash p g1 g2).ReadsIn P w := ⟨fun h => by simp [Engine.startHash] at h, fun _ => ⟨h1, h2⟩⟩

theorem segIn_messageSegment {op : Word} {w : Window} (h : decode op = .ok .hmac → SegIn (commandReads op w · = true) (priSegment w))
    (h' : decode op = .ok .hmac ∨ (∃ d, decode op = .ok (.hotp d)) ∨ ∃ d, decode op = .ok (.totp d)) :
    SegIn (commandReads op w · = true) (messageSegment op w) := by
  rcases h' with hd | ⟨d, hd⟩ | ⟨d, hd⟩ <;> rw [messageSegment, hd]
  · exact h hd
  · exact segIn_buf _ (g := counterSegment) (by decide)
  · exact segIn_buf _ (g := counterSegment) (by decide)

theorem tickCheck_readsIn (w : Window) (e : Engine) : (tickCheck w e).ReadsIn (commandReads e.op w · = true) w := by
  unfold tickCheck
  cases hd : decode e.op with
  | error x => exact Engine.readsIn_other (by simp [Engine.abort]) (by simp [Engine.abort])
  | ok i =>
    have otp : ∀ d c, (i = .hotp d ∨ i = .totp d) → (e.startOtp d c w).ReadsIn (commandReads e.op w · = true) w := by
      intro d c hi
      unfold Engine.startOtp
      cases hc : otpChecks d w with
      | error x => exact Engine.readsIn_other (by simp [Engine.abort]) (by simp [Engine.abort])
      | ok u =>
        refine ⟨fun _ => ⟨segIn_key fun a ha => ?_, ?_⟩, fun h => by simp at h⟩
        · rcases hi with rfl | rfl <;> simp [commandReads, hd, ha, hc, Except.isOk, Except.toBool]
        · refine segIn_messageSegment (fun h => ?_) ?_
          · rw [hd] at h
            rcases hi with rfl | rfl <;> simp at h
          · rcases hi with rfl | rfl
            · exact .inr (.inl ⟨d, hd⟩)
            · exact .inr (.inr ⟨d, hd⟩)
    cases i <;> dsimp only
    · rename_i app
      refine Engine.readsIn_startHash (segIn_pri fun a ha => by simp [commandReads, hd, ha]) ?_
      cases app
      · exact segIn_buf _ (g := noSegment) (by decide)
      · exact segIn_app fun a ha => by simp [commandReads, hd, ha]
    · split_ifs with hk
      · exact Engine.readsIn_other (by simp [Engine.abort]) (by simp [Engine.abort])
      · have hpri : SegIn (commandReads e.op w · = true) (priSegment w) := segIn_pri fun a ha => by
          simp [commandReads, hd, ha]; omega
        refine ⟨fun _ => ⟨segIn_key fun a ha => ?_, segIn_messageSegment (fun _ => hpri) (.inl hd)⟩, fun h => by simp at h⟩
        simp [commandReads, hd, ha]
        omega
    · exact otp _ _ (.inl rfl)
    · exact otp _ _ (.inr rfl)
    all_goals exact Engine.readsIn_other (by simp) (by simp)

/-- An internal step keeps the segments within the command's reads (R45). -/
theorem Engine.tick_readsIn (w : Window) (m : MsgMem) (e : Engine) (h : e.ReadsIn (commandReads e.op w · = true) w) :
    (e.tick w m).ReadsIn (commandReads e.op w · = true) w := by
  unfold Engine.tick
  cases hp : e.phase <;> dsimp only
  · exact Engine.readsIn_other (by simp [hp]) (by simp [hp])
  · exact tickCheck_readsIn w e
  · unfold tickKeyload
    split
    · exact Engine.readsIn_other (by simp [Engine.abort]) (by simp [Engine.abort])
    · exact Engine.readsIn_startHash (segIn_buf _ (by decide)) (h.1 hp).2
  · unfold tickHash
    split_ifs
    · cases readBlock m e.bufs e.seg1 e.seg2 e.blkidx
      · exact Engine.readsIn_other (by simp [Engine.abort]) (by simp [Engine.abort])
      · refine ⟨fun h' => ?_, fun _ => ?_⟩
        · simp only [Engine.doRound, Engine.loadBlock, hp, reduceCtorEq] at h'
        · simpa only [Engine.doRound, Engine.loadBlock] using h.2 hp
    · refine ⟨fun h' => ?_, fun _ => ?_⟩
      · simp only [Engine.doRound, hp, reduceCtorEq] at h'
      · simpa only [Engine.doRound] using h.2 hp
    · unfold Engine.blockDone
      dsimp only
      split_ifs
      · exact ⟨fun h' => by simp [hp] at h', fun _ => h.2 hp⟩
      · unfold Engine.passDone
        split
        · exact Engine.readsIn_other (by simp [Engine.settle]) (by simp [Engine.settle])
        · exact Engine.readsIn_startHash (segIn_buf _ (by decide)) (segIn_buf _ (by decide))
        · split <;> exact Engine.readsIn_other (by simp [Engine.settle]) (by simp [Engine.settle])
  · exact Engine.readsIn_other (by rw [tickTrunc_phase]; decide) (by rw [tickTrunc_phase]; decide)
  · exact Engine.readsIn_other (by rw [tickCal_phase]; decide) (by rw [tickCal_phase]; decide)
  · exact Engine.readsIn_other (by simp [hp]) (by simp [hp])

/-- An internal step depends on message memory through the bytes of its segments alone. -/
theorem tick_congr_mem {P : Word → Prop} {m m' : MsgMem} (ha : AgreeOn P m m') (w : Window) {e : Engine} (h : e.ReadsIn P w) :
    e.tick w m' = e.tick w m := by
  unfold Engine.tick
  cases hp : e.phase <;> dsimp only
  · unfold tickKeyload
    rw [readKey_congr ha _ (h.1 hp).1]
  · unfold tickHash
    rw [readBlock_congr ha _ (h.2 hp).1 (h.2 hp).2]

theorem ticks_congr_mem {op : Word} {w : Window} {m m' : MsgMem} (ha : AgreeOn (commandReads op w · = true) m m') (n : Nat)
    {e : Engine} (hop : e.op = op) (h : e.ReadsIn (commandReads op w · = true) w) : e.ticks w m' n = e.ticks w m n := by
  subst hop
  have key : ∀ (n : Nat) (f : Engine), f.op = e.op → f.ReadsIn (commandReads e.op w · = true) w → f.ticks w m' n = f.ticks w m n := by
    intro n
    induction n with
    | zero => intro f _ _; rfl
    | succ n ih =>
      intro f ho hf
      rw [Engine.ticks_succ, Engine.ticks_succ, tick_congr_mem ha w hf]
      refine ih _ ((Engine.tick_op w m f).trans ho) ?_
      have := Engine.tick_readsIn w m f
      rw [ho] at this
      exact this hf
  exact key n e rfl h

/-- Every address a host memory write changes is one of its own. -/
theorem anyRead_eq_false_iff (op : Word) (w : Window) (a : Word) (n : Nat) :
    anyRead op w a n = false ↔ ∀ j, j < n → commandReads op w (a + BitVec.ofNat 32 j) = false := by
  induction n generalizing a with
  | zero => simp [anyRead]
  | succ k ih =>
    have e : ∀ j, a + 1#32 + BitVec.ofNat 32 j = a + BitVec.ofNat 32 (j + 1) := fun j => by
      rw [BitVec.add_assoc, BitVec.add_comm 1#32, ← BitVec.ofNat_add]
    simp only [anyRead, Bool.or_eq_false_iff, ih, e]
    constructor
    · rintro ⟨h0, h⟩ j hj
      cases j with
      | zero => simpa using h0
      | succ j => exact h j (by omega)
    · exact fun h => ⟨by simpa using h 0 (by omega), fun j hj => h _ (by omega)⟩

end Sys2Proof.Machine
end

