-- ==== Sys2Proof/Laws/Decode.lean ====
section
/-! SUPPORT. The fields of a command word: they make up the word, they are its digits, and a word that decodes has the fields of
the command it decodes to. -/

namespace Sys2Proof

/-- A command word is its four fields (R58). -/
theorem word_of_fields (w : Word) : w = sbzField w ++ BitVec.ofBool (appField w) ++ digField w ++ opField w := by
  apply BitVec.eq_of_getLsbD_eq
  intro i hi
  simp only [sbzField, appField, digField, opField]
  grind

/-- The fields of a command word as numbers (R58). -/
theorem fields_toNat (w : Word) :
    (opField w).toNat = w.toNat % 2 ^ 8 ∧ (digField w).toNat = w.toNat / 2 ^ 8 % 2 ^ 4 ∧
    (appField w).toNat = w.toNat / 2 ^ 12 % 2 ∧ (sbzField w).toNat = w.toNat / 2 ^ 13 := by
  have := w.isLt
  refine ⟨?_, ?_, ?_, ?_⟩
  · simp [opField, BitVec.extractLsb'_toNat]
  · simp [digField, BitVec.extractLsb'_toNat, Nat.shiftRight_eq_div_pow]
  · rcases Nat.mod_two_eq_zero_or_one (w.toNat / 4096) with h | h <;>
      simp [appField, BitVec.getLsbD, Nat.testBit_eq_decide_div_mod_eq, h]
  · simp [sbzField, BitVec.extractLsb'_toNat, Nat.shiftRight_eq_div_pow]
    omega

theorem opField_eq_of_toNat {w : Word} {n : Nat} (h : (opField w).toNat = n) : opField w = BitVec.ofNat 8 n := by
  apply BitVec.eq_of_toNat_eq
  simp [← h]

/-- A word that decodes has SBZ zero and the OP, DIG and APP of the command it decodes to. -/
theorem decode_fields {w : Word} {i : Instr} (h : decode w = .ok i) :
    sbzField w = 0#19 ∧ opField w = opcode i ∧ digField w = encodeDig i ∧ appField w = encodeApp i := by
  unfold decode at h
  by_cases hs : sbzField w ≠ 0#19
  · simp [hs] at h
  rw [if_neg hs] at h
  refine ⟨by simpa using hs, ?_⟩
  obtain ⟨n, hn⟩ : ∃ n, (opField w).toNat = n := ⟨_, rfl⟩
  rw [hn] at h
  rw [opField_eq_of_toNat hn]
  by_cases hlt : n < 11
  · interval_cases n <;> simp only [plainCommand, digitCommand, reduceCtorEq] at h <;> split_ifs at h <;>
      simp_all only [Except.ok.injEq, ne_eq, not_not, Bool.not_eq_true] <;> subst h <;>
      simp_all [opcode, encodeDig, encodeApp]
  · split at h <;> first | omega | simp at h

end Sys2Proof
end

