-- ==== Sys2Proof/Laws/Frame.lean ====
section
/-! SUPPORT. The frame of the completion step: what a completed command leaves unchanged, and what a failed one answers. -/

namespace Sys2Proof.Machine

/-- A completion with a sound result leaves everything but STATUS, the phase and the command's result registers (R67, R131). -/
theorem frame_complete {i : Instr} {r : Except ErrCode (List (Reg × Word))} (s : State) (h : SoundResult i r) :
    Frame (writesOf i) s (complete r s) := by
  refine ⟨fun q hq hs => ?_, fun _ => by simp [MsgMem.byte], by simp, by simp, by simp, by simp, by simp⟩
  cases r with
  | error c => exact complete_error_get _ _ hs
  | ok p => exact complete_ok_get_of_not_mem _ _ (by rw [(h.2 p rfl).1]; exact hq) hs

/-- A success leaves everything but STATUS, the phase and the registers of PEND (R67). -/
theorem frame_succeed {written : List Reg} {s : State} {p : List (Reg × Word)} (hp : p.map Prod.fst = written) :
    Frame written s (complete (.ok p) s) :=
  ⟨fun _ hq hs => complete_ok_get_of_not_mem _ _ (by rw [hp]; exact hq) hs, fun _ => rfl, rfl, rfl, rfl, rfl, rfl⟩

/-- A failure leaves everything but STATUS and the phase (R131). -/
theorem frame_fail (code : ErrCode) (s : State) : Frame [] s (complete (.error code) s) :=
  ⟨fun _ _ hr => complete_error_get _ _ hr, fun _ => rfl, rfl, rfl, rfl, rfl, rfl⟩

theorem failsWith_of_exec {i : Instr} {s : State} {code : ErrCode} (h : exec i s = .next (complete (.error code) s)) :
    FailsWith i s code := ⟨_, h, rfl, frame_fail code s⟩

/-- The writes of a result set keep the reserved bits 0 and the bound of OTP (R16, R29). -/
theorem putAll_reserved (w : Window) (p : List (Reg × Word)) (h1 : w.dt1 &&& dt1Mask = w.dt1)
    (h2 : w.rtcimg1 &&& rtcimg1Mask = w.rtcimg1) (h3 : w.leap &&& leapMask = w.leap) (h4 : w.otp.toNat ≤ 999999999)
    (h : ∀ v, (Reg.otp, v) ∈ p → v.toNat ≤ 999999999) :
    (w.putAll p).dt1 &&& dt1Mask = (w.putAll p).dt1 ∧ (w.putAll p).rtcimg1 &&& rtcimg1Mask = (w.putAll p).rtcimg1 ∧
    (w.putAll p).leap &&& leapMask = (w.putAll p).leap ∧ (w.putAll p).otp.toNat ≤ 999999999 := by
  induction p generalizing w with
  | nil => exact ⟨h1, h2, h3, h4⟩
  | cons c rest ih =>
    obtain ⟨r, v⟩ := c
    refine ih (w.put r v) ?_ ?_ ?_ ?_ (fun v hv => h v (List.mem_cons_of_mem _ hv))
    · cases r <;> first | (simp only [Window.put, dt1Mask, BitVec.and_assoc, BitVec.and_self]; done) | exact h1
    · cases r <;> first | (simp only [Window.put, rtcimg1Mask, BitVec.and_assoc, BitVec.and_self]; done) | exact h2
    · cases r <;> first | (simp only [Window.put, leapMask, BitVec.and_assoc, BitVec.and_self]; done) | exact h3
    · cases r <;> first | exact h4 | exact h v (by simp)

end Sys2Proof.Machine
end

