-- ==== Sys2Proof/Laws/Hmac.lean ====
section
/-! SUPPORT. The HMAC controller and the truncator: where the key and the message answer, what they compute is HMAC-SHA1 and the
passcode of the key and message bytes (42_hmac.md R96 to R99, 43_otp.md R105, R107). -/

namespace Sys2Proof.Machine

/-- R96: filling and XORing is XORing with the zero-padded key. -/
theorem keyPad_eq_xoredKey (fill : Byte) {key : List Byte} (h : key.length ≤ 64) : keyPad fill key = xoredKey fill key := by
  refine List.ext_getElem (by simp [xoredKey, keyPad_length fill h]) fun i h1 h2 => ?_
  simp only [keyPad, xoredKey, List.getElem_map, List.getElem_range, List.getElem_append, List.length_map, List.getElem_replicate]
  split
  · rename_i hi
    rw [List.getD_eq_getElem _ _ hi]
  · rename_i hi
    rw [List.getD_eq_default _ _ (by omega)]
    simp

/-- R96: the key bytes, where each answers. -/
theorem readKey_eq {m : MsgMem} {bufs : Buffers} {g : Segment} (h : SegmentReads m bufs g) :
    readKey m bufs g = .ok (segmentBytes m bufs g) := by
  rw [readKey, readBytes_ok (g := fun j => (segmentBytes m bufs g).getD j 0#8) (fun j _ hj => segByte_eq h (by omega))]
  refine congrArg _ (List.ext_getElem (by simp) fun i h1 h2 => ?_)
  rw [List.getElem_map, List.getElem_range', List.getD_eq_getElem _ _ (by simp at h1; simpa using h1)]
  simp

/-- R42: a key byte that does not answer ends the command. -/
theorem readKey_of_unread {m : MsgMem} {bufs : Buffers} {g : Segment} (h : ¬SegmentReads m bufs g) :
    readKey m bufs g = .error .busError := by
  cases hr : readKey m bufs g with
  | error code =>
    obtain ⟨j, _, _, hj⟩ := readBytes_error hr
    rw [(segByte_error hj).1]
  | ok key =>
    refine absurd (fun i hi => ?_) h
    have key_of : ∀ i n bs, readBytes (segByte m bufs g) i n = .ok bs →
        ∀ j, i ≤ j → j < i + n → ∃ b, segByte m bufs g j = .ok b := by
      intro i n
      induction n generalizing i with
      | zero => intro bs _ j h1 h2; omega
      | succ k ih =>
        intro bs hb j h1 h2
        simp only [readBytes] at hb
        split at hb
        · simp at hb
        · rename_i b hbi
          split at hb
          · simp at hb
          · rename_i rest hrest
            rcases Nat.eq_or_lt_of_le h1 with rfl | hlt
            · exact ⟨b, hbi⟩
            · exact ih (i + 1) rest hrest j hlt (by omega)
    exact key_of 0 g.len key hr i (Nat.zero_le _) (by omega)

theorem segmentBytes_ipad (m : MsgMem) {bufs : Buffers} (h : bufs.ipad.length = 64) :
    SegmentReads m bufs ipadSegment ∧ segmentBytes m bufs ipadSegment = bufs.ipad :=
  segmentBytes_buffer (fun _ => rfl) h

theorem segmentBytes_opad (m : MsgMem) {bufs : Buffers} (h : bufs.opad.length = 64) :
    SegmentReads m bufs opadSegment ∧ segmentBytes m bufs opadSegment = bufs.opad :=
  segmentBytes_buffer (fun _ => rfl) h

theorem segmentBytes_inner (m : MsgMem) {bufs : Buffers} (h : bufs.inner.length = 20) :
    SegmentReads m bufs innerSegment ∧ segmentBytes m bufs innerSegment = bufs.inner :=
  segmentBytes_buffer (fun _ => rfl) h

theorem segmentBytes_counter (m : MsgMem) {bufs : Buffers} (h : bufs.cntbuf.length = 8) :
    SegmentReads m bufs counterSegment ∧ segmentBytes m bufs counterSegment = bufs.cntbuf :=
  segmentBytes_buffer (fun _ => rfl) h

/-- R99: where the key, of at most 64 bytes, and the message answer, the controller computes their HMAC-SHA1. -/
theorem hmacCore_eq {m : MsgMem} {bufs : Buffers} {keySeg msgSeg : Segment} {key msg : List Byte}
    (hk : SegmentReads m bufs keySeg) (hkb : segmentBytes m bufs keySeg = key) (hlen : key.length ≤ 64)
    (hm : SegmentReads m (withPads bufs key) msgSeg) (hmb : segmentBytes m (withPads bufs key) msgSeg = msg) :
    hmacCore m bufs keySeg msgSeg = .ok (hmacBytes key msg) := by
  have hi := segmentBytes_ipad m (bufs := withPads bufs key) (keyPad_length _ hlen)
  simp only [hmacCore, readKey_eq hk, hkb, sha1DigestWords_eq hi.1 hm, hi.2, hmb]
  have ho := segmentBytes_opad m
    (bufs := { withPads bufs key with inner := digestBytes (sha1Bytes ((withPads bufs key).ipad ++ msg)) })
    (keyPad_length _ hlen)
  have hn := segmentBytes_inner m
    (bufs := { withPads bufs key with inner := digestBytes (sha1Bytes ((withPads bufs key).ipad ++ msg)) })
    (digestBytes_length _)
  rw [sha1DigestWords_eq ho.1 hn.1, ho.2, hn.2, hmacBytes]
  simp only [withPads, keyPad_eq_xoredKey _ hlen]

/-- R42: a key or message byte that does not answer ends the command with BUS_ERROR. -/
theorem hmacCore_of_unread {m : MsgMem} {bufs : Buffers} {keySeg msgSeg : Segment}
    (h : ¬(SegmentReads m bufs keySeg ∧ ∀ b, SegmentReads m b msgSeg)) (hs : ∀ b b', SegmentReads m b msgSeg → SegmentReads m b' msgSeg) :
    hmacCore m bufs keySeg msgSeg = .error .busError := by
  unfold hmacCore
  by_cases hk : SegmentReads m bufs keySeg
  · rw [readKey_eq hk]
    have hm : ∀ b, ¬SegmentReads m b msgSeg := fun b hb => h ⟨hk, fun b' => hs b b' hb⟩
    dsimp only
    rw [sha1DigestWords_of_unread (fun hc => hm _ hc.2)]
  · rw [readKey_of_unread hk]

/-! ## The passcode -/

theorem beNat_snoc (s : List Byte) (b : Byte) : beNat (s ++ [b]) = beNat s * 256 + b.toNat := by
  simp [beNat]

/-- R72 for four bytes. -/
theorem be32_toNat (b0 b1 b2 b3 : Byte) :
    (be32 [b0, b1, b2, b3]).toNat = b0.toNat * 2 ^ 24 + b1.toNat * 2 ^ 16 + b2.toNat * 2 ^ 8 + b3.toNat := by
  have := b0.isLt; have := b1.isLt; have := b2.isLt; have := b3.isLt
  simp only [be32, beNat, List.foldl_cons, List.foldl_nil, BitVec.toNat_ofNat]
  omega

/-- R105 in arithmetic: the truncated value of a 20-byte digest. -/
theorem truncateDigest_eq {hs : List Byte} (h : hs.length = 20) :
    truncateDigest hs =
      ((hs.getD ((hs.getD 19 0#8).toNat % 16) 0#8).toNat * 2 ^ 24 +
        (hs.getD ((hs.getD 19 0#8).toNat % 16 + 1) 0#8).toNat * 2 ^ 16 +
        (hs.getD ((hs.getD 19 0#8).toNat % 16 + 2) 0#8).toNat * 2 ^ 8 +
        (hs.getD ((hs.getD 19 0#8).toNat % 16 + 3) 0#8).toNat) % 2 ^ 31 := by
  have hoff : (hs.getD 19 0#8 &&& 0x0f#8).toNat = (hs.getD 19 0#8).toNat % 16 := by
    rw [BitVec.toNat_and]
    exact Nat.and_two_pow_sub_one_eq_mod _ 4
  have hmask : ∀ x : Word, (x &&& 0x7fffffff#32).toNat = x.toNat % 2 ^ 31 := fun x => by
    rw [BitVec.toNat_and]
    exact Nat.and_two_pow_sub_one_eq_mod _ 31
  simp only [truncateDigest, hoff, hmask]
  generalize hk : (hs.getD 19 0#8).toNat % 16 = k
  have hk : k ≤ 15 := by omega
  have htake : (hs.drop k).take 4 = [hs.getD k 0#8, hs.getD (k + 1) 0#8, hs.getD (k + 2) 0#8, hs.getD (k + 3) 0#8] := by
    refine List.ext_getElem (by simp; omega) fun i h1 h2 => ?_
    simp only [List.length_cons, List.length_nil] at h2
    rw [List.getElem_take, List.getElem_drop]
    have hg : ∀ n (hn : n < hs.length), hs[n] = hs.getD n 0#8 := fun n hn => (List.getD_eq_getElem _ _ hn).symm
    rw [hg]
    interval_cases i <;> rfl
  rw [htake, be32_toNat]

/-- R107: the passcode of an HMAC result. -/
theorem passcode_eq_otpOf (dig counter : Nat) (key : List Byte) :
    passcode dig (digestBytes (hmacBytes key (be64bytes counter))) = otpOf dig counter key := by
  rw [passcode, truncateDigest_eq (digestBytes_length _)]
  rfl

end Sys2Proof.Machine
end

