-- ==== Sys2Proof/Laws/Memory.lean ====
section
/-! SUPPORT. Message memory: a byte read back is the byte written, a write leaves every other byte, and every write keeps the
canonical form. -/

namespace Sys2Proof.Machine

theorem Memory.wfFrom_mono {lo lo' : Nat} {m : Memory} (h : Memory.wfFrom lo m = true) (hle : lo' ≤ lo) :
    Memory.wfFrom lo' m = true := by
  cases m with
  | nil => rfl
  | cons c rest =>
    simp only [wfFrom, Bool.and_eq_true, decide_eq_true_eq] at h ⊢
    exact ⟨⟨⟨by omega, h.1.1.2⟩, h.1.2⟩, h.2⟩

theorem Memory.read_below {lo a : Nat} {m : Memory} (h : Memory.wfFrom lo m = true) (ha : a < lo) :
    Memory.read m a = Memory.unlisted := by
  induction m generalizing lo with
  | nil => rfl
  | cons c rest ih =>
    simp only [wfFrom, Bool.and_eq_true, decide_eq_true_eq] at h
    simp only [read, if_neg (show a ≠ c.1 by omega)]
    exact ih h.2 (by omega)

theorem Memory.read_write_ne {m : Memory} {a b : Nat} (v : Byte) (h : b ≠ a) :
    Memory.read (Memory.write m a v) b = Memory.read m b := by
  induction m with
  | nil => simp only [write]; split <;> simp [read, h]
  | cons c rest ih => simp only [write]; split_ifs <;> simp_all [read]

theorem Memory.read_write_same {lo a : Nat} {m : Memory} (v : Byte) (h : Memory.wfFrom lo m = true) :
    Memory.read (Memory.write m a v) a = v := by
  induction m generalizing lo with
  | nil => simp only [write]; split <;> simp_all [read]
  | cons c rest ih =>
    simp only [wfFrom, Bool.and_eq_true, decide_eq_true_eq] at h
    simp only [write]
    split_ifs with h1 h2 h3 h4
    · subst h2
      simp only [read, if_neg (show a ≠ c.1 by omega)]
      exact read_below h.2 (by omega)
    · simp [read]
    · subst h4 h3
      exact read_below h.2 (by omega)
    · simp [read]
    · simp only [read, if_neg h3]
      exact ih h.2

theorem Memory.wfFrom_write {lo a : Nat} {m : Memory} (v : Byte) (h : Memory.wfFrom lo m = true) (hlo : lo ≤ a)
    (ha : a < 2 ^ 32) : Memory.wfFrom lo (Memory.write m a v) = true := by
  induction m generalizing lo with
  | nil => simp only [write]; split <;> simp_all [wfFrom]
  | cons c rest ih =>
    have h' := h
    simp only [wfFrom, Bool.and_eq_true, decide_eq_true_eq, bne_iff_ne] at h
    simp only [write]
    split_ifs with h1 h2 h3 h4
    · exact h'
    · simp only [wfFrom, Bool.and_eq_true, decide_eq_true_eq, bne_iff_ne]
      exact ⟨⟨⟨hlo, ha⟩, h2⟩, ⟨⟨by omega, h.1.1.2⟩, h.1.2⟩, h.2⟩
    · exact wfFrom_mono h.2 (by omega)
    · simp only [wfFrom, Bool.and_eq_true, decide_eq_true_eq, bne_iff_ne]
      exact ⟨⟨⟨hlo, ha⟩, h4⟩, h3 ▸ h.2⟩
    · simp only [wfFrom, Bool.and_eq_true, decide_eq_true_eq, bne_iff_ne]
      exact ⟨h.1, ih h.2 (by omega)⟩

/-- Every write of a byte keeps the canonical form. -/
theorem Memory.wf_write {m : Memory} (a : Word) (v : Byte) (h : m.wf = true) : (Memory.write m a.toNat v).wf = true :=
  wfFrom_write v h (Nat.zero_le _) a.isLt

/-- Every host memory write keeps the canonical form. -/
theorem Memory.wf_writeBytes {m : Memory} (a : Word) (data : List Byte) (h : m.wf = true) : (m.writeBytes a data).wf = true := by
  induction data generalizing m a with
  | nil => exact h
  | cons v rest ih => exact ih _ (wf_write a v h)

theorem Memory.reset_wf : State.reset.mm.cells.wf = true := rfl

/-- A host memory write leaves every address it does not name. -/
theorem Memory.read_writeBytes_other {m : Memory} (a : Word) (data : List Byte) (b : Word)
    (h : ∀ i, i < data.length → b ≠ a + BitVec.ofNat 32 i) :
    Memory.read (m.writeBytes a data) b.toNat = Memory.read m b.toNat := by
  induction data generalizing m a with
  | nil => rfl
  | cons v rest ih =>
    have h0 : b ≠ a := by simpa using h 0 (by simp)
    simp only [writeBytes]
    rw [ih (a + 1#32) (fun i hi => ?_), read_write_ne v (fun he => h0 (BitVec.eq_of_toNat_eq he))]
    have := h (i + 1) (by simpa using hi)
    rw [show a + 1#32 + BitVec.ofNat 32 i = a + BitVec.ofNat 32 (i + 1) by
      rw [BitVec.add_assoc, BitVec.add_comm 1#32, ← BitVec.ofNat_add]]
    exact this

/-- A host memory write of at most 2^32 bytes puts each byte at its address. -/
theorem Memory.read_writeBytes_self {m : Memory} (a : Word) (data : List Byte) (i : Nat) (hi : i < data.length)
    (hlen : data.length ≤ 2 ^ 32) (h : m.wf = true) :
    Memory.read (m.writeBytes a data) (a + BitVec.ofNat 32 i).toNat = data.getD i 0#8 := by
  induction data generalizing m a i with
  | nil => simp at hi
  | cons v rest ih =>
    simp only [writeBytes]
    cases i with
    | zero =>
      simp only [List.getD_cons_zero, BitVec.add_zero]
      rw [read_writeBytes_other, read_write_same v h]
      intro j hj he
      simp only [List.length_cons] at hlen
      have := congrArg BitVec.toNat he
      simp only [BitVec.toNat_add, BitVec.toNat_ofNat] at this
      have := a.isLt
      omega
    | succ k =>
      have := ih (a + 1#32) k (by simpa using hi) (by simp at hlen; omega) (wf_write a v h)
      rw [show a + 1#32 + BitVec.ofNat 32 k = a + BitVec.ofNat 32 (k + 1) by
        rw [BitVec.add_assoc, BitVec.add_comm 1#32, ← BitVec.ofNat_add]] at this
      simpa using this

@[simp] theorem MsgMem.admitted_cells (m : MsgMem) (cells : Memory) (a : Word) :
    ({ m with cells := cells } : MsgMem).admitted a = m.admitted a := rfl

end Sys2Proof.Machine
end

