-- ==== Sys2Proof/Laws/PerInstr.lean ====
section
/-! SUPPORT. A family of statements about every command as syntax, one lemma per constructor: the word of a well-formed command is
legal (30_encoding.md R62). -/

namespace Sys2Proof.Laws

/-- R62: a well-formed command is encoded by a legal word. -/
def EncodeLegal.Statement (i : Instr) : Prop := i.wellFormed = true → legal (encode i) = true

theorem EncodeLegal.sha1 (app : Bool) : EncodeLegal.Statement (.sha1 app) := fun _ => by cases app <;> decide
theorem EncodeLegal.hmac : EncodeLegal.Statement .hmac := fun _ => by decide
theorem EncodeLegal.hotp (dig : Nat) : EncodeLegal.Statement (.hotp dig) := fun h => by
  have h : dig < 16 := by simpa [Instr.wellFormed] using h
  interval_cases dig <;> decide
theorem EncodeLegal.totp (dig : Nat) : EncodeLegal.Statement (.totp dig) := fun h => by
  have h : dig < 16 := by simpa [Instr.wellFormed] using h
  interval_cases dig <;> decide
theorem EncodeLegal.rtcDecode : EncodeLegal.Statement .rtcDecode := fun _ => by decide
theorem EncodeLegal.rtcEncode : EncodeLegal.Statement .rtcEncode := fun _ => by decide
theorem EncodeLegal.dtToUnix : EncodeLegal.Statement .dtToUnix := fun _ => by decide
theorem EncodeLegal.unixToDt : EncodeLegal.Statement .unixToDt := fun _ => by decide
theorem EncodeLegal.rtcToUnix : EncodeLegal.Statement .rtcToUnix := fun _ => by decide
theorem EncodeLegal.leap : EncodeLegal.Statement .leap := fun _ => by decide

end Sys2Proof.Laws
end

