-- ==== Sys2Proof/Laws/Remaining.lean ====
section
/-! SUPPORT. What the pipeline still has to compute: a function of the internal state that every internal step keeps, from the
accepted command's `Exec` to what waits in COMMIT; and that the pipeline gets there. -/

namespace Sys2Proof.Machine

theorem segByte_bufs (m : MsgMem) {b b' : Buffers} {g : Segment}
   (h : match g.src with | .ipad => b'.ipad = b.ipad | .opad => b'.opad = b.opad | .inner => b'.inner = b.inner | .cntbuf => b'.cntbuf = b.cntbuf | .mm => True | .none => True) (i : Nat) :
   segByte m b' g i = segByte m b g i := by
  unfold segByte
  cases hs : g.src <;> simp only [hs] at h ⊢ <;> rw [h]

/-- Two sets of buffers give a segment the same bytes. -/
def SameBytes (m : MsgMem) (b b' : Buffers) (g : Segment) : Prop := ∀ i, segByte m b' g i = segByte m b g i

theorem hashBlocks_bufs {m : MsgMem} {b b' : Buffers} {g1 g2 : Segment} (h1 : SameBytes m b b' g1) (h2 : SameBytes m b b' g2) (k n : Nat) (h0 : HashState) :
    hashBlocks m b' g1 g2 k n h0 = hashBlocks m b g1 g2 k n h0 := by
  have hv : virtualByte m b' g1 g2 = virtualByte m b g1 g2 := by
    funext j; unfold virtualByte; dsimp only; rw [h1, h2]
  induction n generalizing k h0 with
  | zero => rfl
  | succ n ih => rw [hashBlocks, hashBlocks, readBlock, readBlock, hv]; simp only [ih]

theorem sha1_bufs {m : MsgMem} {b b' : Buffers} {g1 g2 : Segment} (h1 : SameBytes m b b' g1) (h2 : SameBytes m b b' g2) :
    sha1DigestWords m b' g1 g2 = sha1DigestWords m b g1 g2 := hashBlocks_bufs h1 h2 _ _ _

theorem hmac_bufs {m : MsgMem} {b b' : Buffers} {g1 g2 : Segment} (h1 : SameBytes m b b' g1) (h2 : ∀ k, SameBytes m (withPads b k) (withPads b' k) g2) :
    hmacCore m b' g1 g2 = hmacCore m b g1 g2 := by
  unfold hmacCore
  have : readKey m b' g1 = readKey m b g1 := by rw [readKey, readKey, show segByte m b' g1 = segByte m b g1 from funext h1]
  rw [this]
  cases readKey m b g1 with
  | error c => rfl
  | ok k =>
    dsimp only
    rw [sha1_bufs (b := withPads b k) (b' := withPads b' k) (fun i => segByte_bufs m (g := ipadSegment) rfl i) (h2 k)]
    cases sha1DigestWords m (withPads b k) ipadSegment g2 with
    | error c => rfl
    | ok k =>
      dsimp only
      exact sha1_bufs (fun i => segByte_bufs m (g := opadSegment) rfl i) (fun i => segByte_bufs m (g := innerSegment) rfl i)

/-- The result set of HMAC, HOTP or TOTP for an HMAC result (R94, R108). -/
def finalPend (op : Word) (h : HashState) : List (Reg × Word) :=
  match decode op with
  | .ok (.hotp d) => pendOtp d h
  | .ok (.totp d) => pendOtp d h
  | _ => pendDigest h

/-- The HashState the engine invocation that is running ends with (R91). -/
def Engine.hashLeft (m : MsgMem) (e : Engine) : Except ErrCode HashState :=
  if e.t = 0 then hashBlocks m e.bufs e.seg1 e.seg2 e.blkidx (blockCount (messageLen e.seg1 e.seg2) - e.blkidx) e.h
  else hashBlocks m e.bufs e.seg1 e.seg2 (e.blkidx + 1) (blockCount (messageLen e.seg1 e.seg2) - (e.blkidx + 1))
          (addWorking e.h (sha1Rounds e.t (e.w.drop e.t) e.work))

/-- The result set after the engine invocation that is running ended with `h` (R99). -/
def Engine.afterPass (m : MsgMem) (e : Engine) (h : HashState) : Except ErrCode (List (Reg × Word)) :=
  match e.pass with
  | .single => .ok (pendDigest h)
  | .inner =>
    match sha1DigestWords m { e.bufs with inner := digestBytes h } opadSegment innerSegment with
    | .error c => .error c
    | .ok h2 => .ok (finalPend e.op h2)
  | .outer => .ok (finalPend e.op h)

/-- The continuation of a result that may be an error. -/
def thenDo {α β : Type} (r : Except ErrCode α) (f : α → Except ErrCode β) : Except ErrCode β :=
  match r with
  | .error c => .error c
  | .ok a => f a

/-- What the pipeline will hold for the completion step. -/
def Engine.remaining (w : Window) (m : MsgMem) (e : Engine) : Except ErrCode (List (Reg × Word)) :=
  match e.phase with
  | .idle => .ok []
  | .check => commandResult e.op w m
  | .keyload => thenDo (hmacCore m e.bufs (keySegment w) (messageSegment e.op w)) fun h => .ok (finalPend e.op h)
  | .hash => thenDo (e.hashLeft m) (e.afterPass m)
  | .trunc => .ok (finalPend e.op e.h)
  | .cal => commandResult e.op w m
  | .commit => e.outcome

/-- What holds of the internal state at every point of the pipeline. -/
structure Engine.Good (e : Engine) : Prop where
  hash : e.phase = .hash → e.blkidx < blockCount (messageLen e.seg1 e.seg2) ∧ e.t ≤ 80 ∧ (e.t ≠ 0 → e.w.length = 80)
  perr : e.phase ≠ .commit → e.perr = .none
  cal : e.phase = .cal → ∃ i, decode e.op = .ok i ∧ (i = .rtcDecode ∨ i = .rtcEncode ∨ i = .dtToUnix ∨ i = .unixToDt ∨ i = .rtcToUnix ∨ i = .leap)

theorem outcome_abort (e : Engine) {c : ErrCode} (h : c ≠ .none) : (e.abort c).outcome = .error c := by
  simp [Engine.outcome, Engine.abort, h]
theorem outcome_settle (e : Engine) (p) : (e.settle p).outcome = .ok p := by
  simp [Engine.outcome, Engine.settle]

theorem blockCount_pos (n : Nat) : 0 < blockCount n := by
  unfold blockCount padLen; omega

theorem remaining_abort (w : Window) (m : MsgMem) (e : Engine) {c : ErrCode} (h : c ≠ .none) :
    (e.abort c).remaining w m = .error c := by
  show (e.abort c).outcome = _
  exact outcome_abort e h
theorem remaining_settle (w : Window) (m : MsgMem) (e : Engine) (p) : (e.settle p).remaining w m = .ok p := by
  show (e.settle p).outcome = _
  exact outcome_settle e p

theorem remaining_startHash (w : Window) (m : MsgMem) (e : Engine) (p : Pass) (g1 g2 : Segment) :
   (e.startHash p g1 g2).remaining w m = thenDo (sha1DigestWords m e.bufs g1 g2) ((e.startHash p g1 g2).afterPass m) := by
  show thenDo ((e.startHash p g1 g2).hashLeft m) _ = _
  rfl

theorem afterPass_doRound (m : MsgMem) (e : Engine) : e.doRound.afterPass m = e.afterPass m := by
  funext h; simp only [Engine.afterPass, Engine.doRound]
theorem afterPass_loadBlock (m : MsgMem) (e : Engine) (b : List Byte) : (e.loadBlock b).afterPass m = e.afterPass m := by
  funext h; simp only [Engine.afterPass, Engine.loadBlock]
theorem afterPass_single (m : MsgMem) (e : Engine) (hp : e.pass = .single) (h : HashState) :
    e.afterPass m h = .ok (pendDigest h) := by
  simp only [Engine.afterPass, hp]
theorem afterPass_outer (m : MsgMem) (e : Engine) (hp : e.pass = .outer) (h : HashState) :
    e.afterPass m h = .ok (finalPend e.op h) := by
  simp only [Engine.afterPass, hp]
theorem afterPass_inner (m : MsgMem) (e : Engine) (hp : e.pass = .inner) (h : HashState) : e.afterPass m h =
    thenDo (sha1DigestWords m { e.bufs with inner := digestBytes h } opadSegment innerSegment) (fun h2 => .ok (finalPend e.op h2)) := by
  simp only [Engine.afterPass, hp]
  cases sha1DigestWords m { e.bufs with inner := digestBytes h } opadSegment innerSegment <;> rfl
theorem rounds_split (ws : List Word) (t : Nat) (v : Working) (h : t < ws.length) :
    sha1Rounds t (ws.drop t) v = sha1Rounds (t + 1) (ws.drop (t + 1)) (sha1Round t (ws.getD t 0#32) v) := by
  rw [List.drop_eq_getElem_cons h, List.getD_eq_getElem _ _ h, sha1Rounds]
theorem startHash_pass (e : Engine) (p : Pass) (g1 g2 : Segment) : (e.startHash p g1 g2).pass = p := rfl
theorem startHash_op (e : Engine) (p : Pass) (g1 g2 : Segment) : (e.startHash p g1 g2).op = e.op := by simp only [Engine.startHash]
theorem startHash_bufs (e : Engine) (p : Pass) (g1 g2 : Segment) :
    (e.startHash p g1 g2).bufs = e.bufs := by simp only [Engine.startHash]
theorem remaining_of_hash (w : Window) (m : MsgMem) (e : Engine) (hp : e.phase = .hash) :
    e.remaining w m = thenDo (e.hashLeft m) (e.afterPass m) := by simp only [Engine.remaining, hp]

theorem remaining_check (w : Window) (m : MsgMem) (e : Engine) : (tickCheck w e).remaining w m = commandResult e.op w m := by
  unfold tickCheck commandResult
  cases hd : decode e.op with
  | error x => dsimp only; rw [remaining_abort _ _ _ (by decide)]
  | ok i =>
    cases i <;> dsimp only
    · rename_i app
      rw [remaining_startHash, sha1Result]
      rw [sha1_bufs (b' := e.bufs) (b := noBuffers)]
      · cases sha1DigestWords m noBuffers (priSegment w) (appendixOf app w) <;> rfl
      · exact fun i => segByte_bufs m (g := priSegment w) trivial i
      · cases app
        · exact fun i => segByte_bufs m (g := noSegment) trivial i
        · exact fun i => segByte_bufs m (g := appSegment w) trivial i
    · unfold hmacResult
      by_cases hk : Config.hmacKeyMax < w.keyLen.toNat
      · rw [if_pos hk, if_pos hk, remaining_abort _ _ _ (by decide)]
      · rw [if_neg hk, if_neg hk]
        show thenDo (hmacCore m e.bufs (keySegment w) (messageSegment e.op w)) (fun h => .ok (finalPend e.op h)) = _
        have : messageSegment e.op w = priSegment w := by rw [messageSegment, hd]
        rw [this, hmac_bufs (b := noBuffers) (b' := e.bufs)]
        · have hf : ∀ h, finalPend e.op h = pendDigest h := fun h => by rw [finalPend, hd]
          simp only [hf]
          cases hmacCore m noBuffers (keySegment w) (priSegment w) <;> rfl
        · exact fun i => segByte_bufs m (g := keySegment w) trivial i
        · exact fun k i => segByte_bufs m (g := priSegment w) trivial i
    · rename_i d
      unfold hotpResult otpResult Engine.startOtp
      rcases otpChecks_cases d w with ⟨_, hc⟩ | ⟨_, _, hc⟩ | ⟨_, _, _, hc⟩ <;> rw [hc] <;> dsimp only
      · rw [remaining_abort _ _ _ (by decide)]
      · rw [remaining_abort _ _ _ (by decide)]
      · show thenDo (hmacCore m (withCounter e.bufs (counterOf w)) (keySegment w) (messageSegment e.op w)) (fun h => .ok (finalPend e.op h)) = _
        have : messageSegment e.op w = counterSegment := by rw [messageSegment, hd]
        rw [this, hmac_bufs (b := withCounter noBuffers (counterOf w)) (b' := withCounter e.bufs (counterOf w))]
        · have hf : ∀ h, finalPend e.op h = pendOtp d h := fun h => by rw [finalPend, hd]
          simp only [hf]
          cases hmacCore m (withCounter noBuffers (counterOf w)) (keySegment w) counterSegment <;> rfl
        · exact fun i => segByte_bufs m (g := keySegment w) trivial i
        · exact fun k i => segByte_bufs m (g := counterSegment) rfl i
    · rename_i d
      unfold totpResult otpResult Engine.startOtp
      rcases otpChecks_cases d w with ⟨_, hc⟩ | ⟨_, _, hc⟩ | ⟨_, _, _, hc⟩ <;> rw [hc] <;> dsimp only
      · rw [remaining_abort _ _ _ (by decide)]
      · rw [remaining_abort _ _ _ (by decide)]
      · show thenDo (hmacCore m (withCounter e.bufs (totpCounter w)) (keySegment w) (messageSegment e.op w)) (fun h => .ok (finalPend e.op h)) = _
        have : messageSegment e.op w = counterSegment := by rw [messageSegment, hd]
        rw [this, hmac_bufs (b := withCounter noBuffers (totpCounter w)) (b' := withCounter e.bufs (totpCounter w))]
        · have hf : ∀ h, finalPend e.op h = pendOtp d h := fun h => by rw [finalPend, hd]
          simp only [hf]
          cases hmacCore m (withCounter noBuffers (totpCounter w)) (keySegment w) counterSegment <;> rfl
        · exact fun i => segByte_bufs m (g := keySegment w) trivial i
        · exact fun k i => segByte_bufs m (g := counterSegment) rfl i
    all_goals
      simp only [Engine.remaining, commandResult, hd]

theorem remaining_keyload (w : Window) (m : MsgMem) (e : Engine) (hp : e.phase = .keyload) :
    (tickKeyload w m e).remaining w m = e.remaining w m := by
  have hr : e.remaining w m = thenDo (hmacCore m e.bufs (keySegment w) (messageSegment e.op w)) fun h => .ok (finalPend e.op h) := by
    simp only [Engine.remaining, hp]
  rw [hr]
  unfold tickKeyload hmacCore
  cases hk : readKey m e.bufs (keySegment w) with
  | error c =>
    have : c = .busError := by
      obtain ⟨j, _, _, h⟩ := readBytes_error hk
      exact (segByte_error h).1
    subst this
    exact remaining_abort w m _ (by decide)
  | ok key =>
    dsimp only
    rw [remaining_startHash]
    cases sha1DigestWords m (withPads e.bufs key) ipadSegment (messageSegment e.op w) with
    | error c => simp only [thenDo]
    | ok h1 =>
      simp only [thenDo]
      rw [afterPass_inner _ _ (startHash_pass _ _ _ _), startHash_bufs, startHash_op]
      simp only [thenDo]

theorem remaining_hash (w : Window) (m : MsgMem) (e : Engine) (hp : e.phase = .hash) (g : e.Good) :
    (tickHash m e).remaining w m = e.remaining w m := by
  obtain ⟨hb, ht, hw⟩ := g.hash hp
  have hr : e.remaining w m = thenDo (e.hashLeft m) (e.afterPass m) := by simp only [Engine.remaining, hp]
  rw [hr]
  unfold tickHash
  by_cases h0 : e.t = 0
  · rw [if_pos h0]
    have hl : e.hashLeft m = hashBlocks m e.bufs e.seg1 e.seg2 e.blkidx (blockCount (messageLen e.seg1 e.seg2) - e.blkidx) e.h := by
      rw [Engine.hashLeft, if_pos h0]
    obtain ⟨n, hn⟩ : ∃ n, blockCount (messageLen e.seg1 e.seg2) - e.blkidx = n + 1 := ⟨_, (Nat.succ_pred_eq_of_pos (by omega)).symm⟩
    rw [hl, hn, hashBlocks]
    cases hk : readBlock m e.bufs e.seg1 e.seg2 e.blkidx with
    | error c =>
      have := readBlock_error hk
      subst this
      exact remaining_abort w m _ (by decide)
    | ok blk =>
      dsimp only
      have hlen : (schedule blk).length = 80 := schedule_length (readBytes_length hk)
      have hx : (e.loadBlock blk).doRound.remaining w m = thenDo ((e.loadBlock blk).doRound.hashLeft m) (e.afterPass m) := by
        rw [remaining_of_hash w m _ (by simp only [Engine.doRound, Engine.loadBlock, hp]), afterPass_doRound, afterPass_loadBlock]
      rw [hx]
      have hy : (e.loadBlock blk).doRound.hashLeft m = hashBlocks m e.bufs e.seg1 e.seg2 (e.blkidx + 1) n (compress e.h blk) := by
        have : (e.loadBlock blk).doRound.t ≠ 0 := by simp [Engine.doRound]
        rw [Engine.hashLeft, if_neg this]
        have hn' : blockCount (messageLen e.seg1 e.seg2) - (e.blkidx + 1) = n := by omega
        simp only [Engine.doRound, Engine.loadBlock, hn', compress, h0]
        rw [← rounds_split _ 0 _ (by rw [hlen]; decide), List.drop_zero]
      rw [hy]
  · rw [if_neg h0]
    have hl : e.hashLeft m = hashBlocks m e.bufs e.seg1 e.seg2 (e.blkidx + 1) (blockCount (messageLen e.seg1 e.seg2) - (e.blkidx + 1))
          (addWorking e.h (sha1Rounds e.t (e.w.drop e.t) e.work)) := by
      rw [Engine.hashLeft, if_neg h0]
    by_cases h1 : e.t < Config.rounds
    · rw [if_pos h1]
      have hx : e.doRound.remaining w m = thenDo (e.doRound.hashLeft m) (e.afterPass m) := by
        rw [remaining_of_hash w m _ (by simp only [Engine.doRound, hp]), afterPass_doRound]
      have hy : e.doRound.hashLeft m = e.hashLeft m := by
        rw [hl, Engine.hashLeft, if_neg (by simp [Engine.doRound])]
        simp only [Engine.doRound]
        rw [← rounds_split _ _ _ (by rw [hw h0]; exact h1)]
      rw [hx, hy]
    · rw [if_neg h1]
      have h80 : e.t = 80 := by unfold Config.rounds at h1; omega
      have hd : e.w.drop e.t = [] := by apply List.drop_eq_nil_of_le; rw [hw h0, h80]
      rw [hl, hd, sha1Rounds]
      unfold Engine.blockDone
      by_cases h2 : e.blkidx + 1 < blockCount (messageLen e.seg1 e.seg2)
      · dsimp only
        rw [if_pos h2]
        simp only [Engine.remaining, hp]
        rw [Engine.hashLeft, if_pos rfl]
        congr 1
      · dsimp only
        rw [if_neg h2]
        have : blockCount (messageLen e.seg1 e.seg2) - (e.blkidx + 1) = 0 := by omega
        rw [this, hashBlocks]
        rw [show thenDo (.ok (addWorking e.h e.work)) (e.afterPass m) = e.afterPass m (addWorking e.h e.work) from rfl]
        unfold Engine.passDone
        cases hps : e.pass <;> dsimp only
        · rw [remaining_settle, afterPass_single m e hps]
        · rw [remaining_startHash, afterPass_inner m e hps]
          congr 1
        · rw [afterPass_outer m e hps]
          cases hdec : decode e.op with
          | error x => dsimp only; rw [remaining_settle, finalPend, hdec]
          | ok i => cases i <;> dsimp only [] <;> first | rw [remaining_settle, finalPend, hdec] | (simp only [Engine.remaining])

/-- Every internal step keeps what remains to be computed (R31, R65). -/
theorem remaining_tick (w : Window) (m : MsgMem) (e : Engine) (g : e.Good) : (e.tick w m).remaining w m = e.remaining w m := by
  unfold Engine.tick
  cases hp : e.phase <;> dsimp only
  · rw [remaining_check w m e]; simp only [Engine.remaining, hp]
  · exact remaining_keyload w m e hp
  · exact remaining_hash w m e hp g
  · unfold tickTrunc
    have : e.remaining w m = .ok (finalPend e.op e.h) := by simp only [Engine.remaining, hp]
    rw [this, finalPend]
    cases hdec : decode e.op with
    | error x => exact remaining_settle w m _ _
    | ok i => cases i <;> exact remaining_settle w m _ _
  · unfold tickCal
    have : e.remaining w m = commandResult e.op w m := by simp only [Engine.remaining, hp]
    rw [this]
    obtain ⟨i, hd, hi⟩ := g.cal hp
    have hw : ∀ r : Except ErrCode (List (Reg × Word)), r ≠ .error .none → (e.await r).remaining w m = r := by
      intro r hr
      cases r with
      | error c => exact remaining_abort w m _ (fun h => hr (by rw [h]))
      | ok p => exact remaining_settle w m _ _
    rw [hd]; unfold commandResult; rw [hd]
    rcases hi with rfl | rfl | rfl | rfl | rfl | rfl <;> dsimp only <;> apply hw
    · unfold rtcDecodeResult; split_ifs <;> simp
    · unfold rtcEncodeResult; split_ifs <;> simp
    · unfold dtToUnixResult; split_ifs <;> simp
    · unfold unixToDtResult; split_ifs <;> simp
    · unfold rtcToUnixResult; split_ifs <;> simp
    · unfold leapResult; simp


theorem good_of_commit {e : Engine} (h : e.phase = .commit) : e.Good :=
  ⟨fun h' => (by simp [h] at h'), fun h' => absurd h h', fun h' => (by simp [h] at h')⟩
theorem good_abort (e : Engine) (c : ErrCode) : (e.abort c).Good := good_of_commit rfl
theorem good_settle (e : Engine) (p) : (e.settle p).Good := good_of_commit rfl
theorem good_startHash {e : Engine} (p : Pass) (g1 g2 : Segment) (h : e.perr = .none) : (e.startHash p g1 g2).Good :=
  ⟨fun _ => ⟨blockCount_pos _, Nat.zero_le _, fun h => absurd rfl h⟩, fun _ => h, fun h' => by simp [Engine.startHash] at h'⟩

theorem good_tick (w : Window) (m : MsgMem) (e : Engine) (g : e.Good) : (e.tick w m).Good := by
  unfold Engine.tick
  cases hp : e.phase <;> dsimp only
  · exact g
  · have hn := g.perr (by rw [hp]; decide)
    have hk : ∀ b, ({ e with phase := .keyload, bufs := b } : Engine).Good := fun b =>
      ⟨fun h => by simp at h, fun _ => hn, fun h => by simp at h⟩
    unfold tickCheck
    cases hd : decode e.op with
    | error x => exact good_abort _ _
    | ok i =>
      cases i <;> dsimp only
      · exact good_startHash _ _ _ hn
      · split
        · exact good_abort _ _
        · exact hk e.bufs
      · unfold Engine.startOtp; split
        · exact good_abort _ _
        · exact hk _
      · unfold Engine.startOtp; split
        · exact good_abort _ _
        · exact hk _
      all_goals exact ⟨fun h => by simp at h, fun _ => hn, fun _ => ⟨_, hd, by simp⟩⟩
  · have hn := g.perr (by rw [hp]; decide)
    unfold tickKeyload; split
    · exact good_abort _ _
    · exact good_startHash _ _ _ hn
  · have hn := g.perr (by rw [hp]; decide)
    obtain ⟨hb, ht, hw⟩ := g.hash hp
    unfold tickHash
    split_ifs with h0 h1
    · cases hk : readBlock m e.bufs e.seg1 e.seg2 e.blkidx with
      | error c => exact good_abort _ _
      | ok blk => 
        dsimp only
        have hlen : (schedule blk).length = 80 := schedule_length (readBytes_length hk)
        refine ⟨fun _ => ⟨?_, ?_, fun _ => ?_⟩, fun _ => ?_, fun h => ?_⟩
        · simpa only [Engine.doRound, Engine.loadBlock] using hb
        · simp only [Engine.doRound, Engine.loadBlock]; omega
        · simpa only [Engine.doRound, Engine.loadBlock] using hlen
        · simpa only [Engine.doRound, Engine.loadBlock] using hn
        · simp only [Engine.doRound, Engine.loadBlock, hp] at h; cases h
    · unfold Config.rounds at h1
      refine ⟨fun _ => ⟨?_, ?_, fun _ => ?_⟩, fun _ => ?_, fun h => ?_⟩
      · simpa only [Engine.doRound] using hb
      · simp only [Engine.doRound]; omega
      · simpa only [Engine.doRound] using hw h0
      · simpa only [Engine.doRound] using hn
      · simp only [Engine.doRound, hp] at h; cases h
    · unfold Engine.blockDone
      by_cases h2 : e.blkidx + 1 < blockCount (messageLen e.seg1 e.seg2)
      · dsimp only; rw [if_pos h2]
        exact ⟨fun _ => ⟨h2, Nat.zero_le _, fun h => absurd rfl h⟩, fun _ => hn, fun h => by simp [hp] at h⟩
      · dsimp only; rw [if_neg h2]
        unfold Engine.passDone
        cases e.pass <;> dsimp only
        · exact good_settle _ _
        · exact good_startHash _ _ _ hn
        · split
          · exact ⟨fun h => by simp at h, fun _ => hn, fun h => by simp at h⟩
          · exact ⟨fun h => by simp at h, fun _ => hn, fun h => by simp at h⟩
          · exact good_settle _ _
  · unfold tickTrunc; split <;> exact good_settle _ _
  · unfold tickCal
    have ha : ∀ r, (e.await r).Good := fun r => good_of_commit (Engine.await_phase _ _)
    split <;> first | exact ha _ | exact good_abort _ _
  · exact g

theorem remaining_ticks (w : Window) (m : MsgMem) (n : Nat) (e : Engine) (g : e.Good) :
    (e.ticks w m n).remaining w m = e.remaining w m ∧ (e.ticks w m n).Good := by
  induction n generalizing e with
  | zero => exact ⟨rfl, g⟩
  | succ n ih =>
    rw [Engine.ticks_succ]
    have := ih _ (good_tick w m e g)
    exact ⟨this.1.trans (remaining_tick w m e g), this.2⟩

/-- `k` rounds of a block. -/
theorem hash_rounds (w : Window) (m : MsgMem) (k : Nat) : ∀ e : Engine, e.phase = .hash → 0 < e.t → e.t + k ≤ 80 →
    ∃ e', e.ticks w m k = e' ∧ e'.phase = .hash ∧ e'.t = e.t + k ∧ e'.blkidx = e.blkidx ∧ e'.seg1 = e.seg1 ∧ e'.seg2 = e.seg2 ∧ e'.pass = e.pass := by
  induction k with
  | zero => intro e hp _ _; exact ⟨e, rfl, hp, rfl, rfl, rfl, rfl, rfl⟩
  | succ k ih =>
    intro e hp h0 hk
    have ht : e.tick w m = e.doRound := by
      simp only [Engine.tick, hp, tickHash]
      rw [if_neg (by omega), if_pos (by unfold Config.rounds; omega)]
    obtain ⟨e', h1, h2, h3, h4⟩ := ih e.doRound (by simp only [Engine.doRound, hp]) (by simp only [Engine.doRound]; omega) (by simp only [Engine.doRound]; omega)
    refine ⟨e', by rw [Engine.ticks_succ, ht, h1], h2, by rw [h3]; simp only [Engine.doRound]; omega, ?_⟩
    simpa only [Engine.doRound] using h4

/-- From the start of a block the pipeline gets to the end of the block, or to COMMIT. -/
theorem hash_block (w : Window) (m : MsgMem) (e : Engine) (hp : e.phase = .hash) (h0 : e.t = 0) :
    ∃ n e', e.ticks w m n = e' ∧ (e'.phase = .commit ∨ (e'.phase = .hash ∧ e'.t = 80 ∧ e'.blkidx = e.blkidx ∧ e'.seg1 = e.seg1 ∧ e'.seg2 = e.seg2 ∧ e'.pass = e.pass)) := by
  have ht : e.tick w m = tickHash m e := by simp only [Engine.tick, hp]
  unfold tickHash at ht
  rw [if_pos h0] at ht
  cases hk : readBlock m e.bufs e.seg1 e.seg2 e.blkidx with
  | error c =>
    rw [hk] at ht
    exact ⟨1, e.abort c, by rw [Engine.ticks_succ, ht]; rfl, .inl rfl⟩
  | ok blk =>
    rw [hk] at ht; dsimp only at ht
    obtain ⟨e', h1, h2, h3, h4⟩ := hash_rounds w m 79 (e.loadBlock blk).doRound (by simp only [Engine.doRound, Engine.loadBlock, hp]) (by simp only [Engine.doRound]; omega)
      (by simp only [Engine.doRound, Engine.loadBlock, h0]; omega)
    refine ⟨80, e', by rw [Engine.ticks_succ, ht, h1], .inr ⟨h2, by rw [h3]; simp only [Engine.doRound, Engine.loadBlock, h0], ?_⟩⟩
    simpa only [Engine.doRound, Engine.loadBlock] using h4

/-- From the start of a block the pipeline gets to the end of the invocation, or to COMMIT. -/
theorem hash_pass (w : Window) (m : MsgMem) (k : Nat) : ∀ e : Engine, e.phase = .hash → e.t = 0 → e.blkidx + k = blockCount (messageLen e.seg1 e.seg2) → 0 < k →
    ∃ n e', e.ticks w m n = e' ∧ (e'.phase = .commit ∨ ∃ f : Engine, f.pass = e.pass ∧ e' = f.passDone) := by
  induction k with
  | zero => intro e _ _ _ h; omega
  | succ k ih =>
    intro e hp h0 hk _
    obtain ⟨n, e', h1, hc | ⟨h2, h3, h4, h5, h6, h7⟩⟩ := hash_block w m e hp h0
    · exact ⟨n, e', h1, .inl hc⟩
    · have ht : e'.tick w m = e'.blockDone := by
        simp only [Engine.tick, h2, tickHash]
        rw [if_neg (by omega), if_neg (by unfold Config.rounds; omega)]
      by_cases hlt : e'.blkidx + 1 < blockCount (messageLen e'.seg1 e'.seg2)
      · have hbd : e'.blockDone = { e' with h := addWorking e'.h e'.work, blkidx := e'.blkidx + 1, t := 0 } := by
          unfold Engine.blockDone; dsimp only; rw [if_pos hlt]
        obtain ⟨n', e'', g1, g2⟩ := ih { e' with h := addWorking e'.h e'.work, blkidx := e'.blkidx + 1, t := 0 } h2 rfl (by
          show e'.blkidx + 1 + k = blockCount (messageLen e'.seg1 e'.seg2)
          rw [h4, h5, h6]; omega) (by rw [h4, h5, h6] at hlt; omega)
        refine ⟨n + (n' + 1), e'', by rw [Engine.ticks_add, h1, Engine.ticks_succ, ht, hbd, g1], ?_⟩
        rcases g2 with g | ⟨f, g, g'⟩
        · exact .inl g
        · exact .inr ⟨f, g.trans h7, g'⟩
      · have hbd : e'.blockDone = ({ e' with h := addWorking e'.h e'.work } : Engine).passDone := by
          unfold Engine.blockDone; dsimp only; rw [if_neg hlt]
        exact ⟨n + 1, _, by rw [Engine.ticks_add, h1, Engine.ticks_succ, ht]; rfl, .inr ⟨{ e' with h := addWorking e'.h e'.work }, h7, hbd⟩⟩

theorem reach_startHash (w : Window) (m : MsgMem) (e : Engine) (p : Pass) (g1 g2 : Segment) :
    ∃ n e', (e.startHash p g1 g2).ticks w m n = e' ∧ (e'.phase = .commit ∨ ∃ f : Engine, f.pass = p ∧ e' = f.passDone) :=
  hash_pass w m (blockCount (messageLen g1 g2)) (e.startHash p g1 g2) rfl rfl (by show 0 + _ = _; rw [Nat.zero_add]; rfl) (blockCount_pos _)

/-- Some number of internal steps gets the pipeline to COMMIT. -/
def Reaches (w : Window) (m : MsgMem) (e : Engine) : Prop := ∃ n, (e.ticks w m n).phase = .commit

theorem Reaches.of_ticks {w : Window} {m : MsgMem} {e : Engine} (n : Nat) (h : Reaches w m (e.ticks w m n)) : Reaches w m e := by
  obtain ⟨k, h⟩ := h
  exact ⟨n + k, by rw [Engine.ticks_add]; exact h⟩
theorem Reaches.of_commit {w : Window} {m : MsgMem} {e : Engine} (h : e.phase = .commit) : Reaches w m e := ⟨0, h⟩

theorem Reaches.start {w : Window} {m : MsgMem} (e : Engine) {p : Pass} (g1 g2 : Segment) (h : ∀ f : Engine, f.pass = p → Reaches w m f.passDone) :
    Reaches w m (e.startHash p g1 g2) := by
  obtain ⟨n, e', h1, hc | ⟨f', hf, h2⟩⟩ := reach_startHash w m e p g1 g2
  · exact ⟨n, by rw [h1]; exact hc⟩
  · exact .of_ticks n (by rw [h1, h2]; exact h f' hf)

theorem reach_trunc {w : Window} {m : MsgMem} {e : Engine} (h : e.phase = .trunc) : Reaches w m e := by
  refine .of_ticks 1 (.of_commit ?_)
  show (e.tick w m).phase = _
  simp only [Engine.tick, h]; exact tickTrunc_phase e

theorem reach_outer {w : Window} {m : MsgMem} {f : Engine} (h : f.pass = .outer) : Reaches w m f.passDone := by
  unfold Engine.passDone; rw [h]; dsimp only
  split
  · exact reach_trunc rfl
  · exact reach_trunc rfl
  · exact .of_commit rfl

theorem reach_inner {w : Window} {m : MsgMem} {f : Engine} (h : f.pass = .inner) : Reaches w m f.passDone := by
  unfold Engine.passDone; rw [h]; dsimp only
  exact .start _ _ _ fun f' hf => reach_outer hf

theorem reach_keyload {w : Window} {m : MsgMem} {e : Engine} (h : e.phase = .keyload) : Reaches w m e := by
  refine .of_ticks 1 ?_
  show Reaches w m (e.tick w m)
  simp only [Engine.tick, h]
  unfold tickKeyload; split
  · exact .of_commit rfl
  · rename_i key _
    exact .start _ _ _ fun f' hf => reach_inner hf

theorem reach_cal {w : Window} {m : MsgMem} {e : Engine} (h : e.phase = .cal) : Reaches w m e := by
  refine .of_ticks 1 (.of_commit ?_)
  show (e.tick w m).phase = _
  simp only [Engine.tick, h]; exact tickCal_phase w e

end Sys2Proof.Machine
end

