-- ==== Sys2Proof/Tests/Slice0.lean ====
section
/-! SUPPORT. The model's own tests: the checks of WellFormed, decoding of words written out from 30_encoding.md R58 to R60, one step
of each command on the vectors of 95_test_vectors.md, and for every statement with hypotheses a witness that meets them. -/

namespace Sys2Proof.Tests

open Sys2Proof Sys2Proof.Machine

/-! ## WellFormed -/

theorem test_wellFormed_refuses_hotp_16 : Instr.wellFormed (.hotp 16) = false := by decide
theorem test_wellFormed_refuses_totp_16 : Instr.wellFormed (.totp 16) = false := by decide
theorem test_wellFormed_accepts_hotp_15 : Instr.wellFormed (.hotp 15) = true := by decide

/-! ## Decoding, bit by bit: SBZ [31:13], APP [12], DIG [11:8], OP [7:0] -/

theorem test_decode_sha1 : decode 0b00000000000000000000000000000001#32 = .ok (.sha1 false) := by decide
theorem test_decode_sha1_app : decode 0b00000000000000000001000000000001#32 = .ok (.sha1 true) := by decide
theorem test_decode_hmac : decode 0b00000000000000000000000000000010#32 = .ok .hmac := by decide
theorem test_decode_hotp_6 : decode 0b00000000000000000000011000000011#32 = .ok (.hotp 6) := by decide
theorem test_decode_totp_8 : decode 0b00000000000000000000100000000100#32 = .ok (.totp 8) := by decide
theorem test_decode_rtcDecode : decode 0b00000000000000000000000000000101#32 = .ok .rtcDecode := by decide
theorem test_decode_rtcEncode : decode 0b00000000000000000000000000000110#32 = .ok .rtcEncode := by decide
theorem test_decode_dtToUnix : decode 0b00000000000000000000000000000111#32 = .ok .dtToUnix := by decide
theorem test_decode_unixToDt : decode 0b00000000000000000000000000001000#32 = .ok .unixToDt := by decide
theorem test_decode_rtcToUnix : decode 0b00000000000000000000000000001001#32 = .ok .rtcToUnix := by decide
theorem test_decode_leap : decode 0b00000000000000000000000000001010#32 = .ok .leap := by decide

theorem test_decode_illegal_words :
    decode 0x00000000#32 = .error .reservedOpcode ∧ decode 0x0000000B#32 = .error .reservedOpcode ∧
    decode 0x00000101#32 = .error .digNotZero ∧ decode 0x00000105#32 = .error .digNotZero ∧
    decode 0x00001002#32 = .error .appNotZero ∧ decode 0x00001003#32 = .error .appNotZero ∧
    decode 0x00002603#32 = .error .sbzNotZero ∧ decode 0x80000001#32 = .error .sbzNotZero := by decide

theorem test_decodeTableWord :
    decodeTableWord 32 0x1001 = some (.sha1 true) ∧ decodeTableWord 32 0x0F04 = some (.totp 15) ∧
    decodeTableWord 32 0x2603 = none := by decide

/-! ## One step of each command -/

/-- A core after reset with some registers and some bytes of message memory set. -/
def prepared (regs : List (Reg × Word)) (cells : Memory) : State :=
  { State.reset with win := Window.reset.putAll regs, mm := { State.reset.mm with cells := cells } }

/-- What a register holds after the one step that runs a command word. -/
def after (s : State) (w : Nat) (r : Reg) : Option Word :=
  match step (s.withFetchWord 32 w) with
  | .next t => some (t.win.get r)
  | .fault _ => none
  | .refused _ => none

/-- Bytes of message memory from an address on; none of them is 0. -/
def bytesFrom (a : Nat) : List Nat → Memory
  | [] => []
  | b :: rest => (a, BitVec.ofNat 8 b) :: bytesFrom (a + 1) rest

/-- "12345678901234567890" at 0x2000 (95_test_vectors.md 5.4). -/
def otpKey : Memory :=
  bytesFrom 0x2000 [0x31, 0x32, 0x33, 0x34, 0x35, 0x36, 0x37, 0x38, 0x39, 0x30, 0x31, 0x32, 0x33, 0x34, 0x35, 0x36, 0x37, 0x38, 0x39,
    0x30]

/-- 95_test_vectors.md 5.1: PRI = "ab", APP = "c". -/
theorem test_sha1_splits_abc :
    after (prepared [(.priAddr, 0x1000#32), (.priLen, 2#32), (.appAddr, 0x3000#32), (.appLen, 1#32)]
      (bytesFrom 0x1000 [0x61, 0x62] ++ bytesFrom 0x3000 [0x63])) 0x1001 .digest4 = some 0x9cd0d89d#32 := by decide +kernel

/-- 95_test_vectors.md 5.1, errors: a byte at 0xFFFFFFF0 is not admitted. -/
theorem test_sha1_bus_error :
    after (prepared [(.priAddr, 0xFFFFFFF0#32), (.priLen, 32#32)] []) 0x1 .status = some 0x00000406#32 := by decide +kernel

/-- 95_test_vectors.md 5.2: "Jefe". -/
theorem test_hmac_jefe :
    after (prepared [(.keyAddr, 0x2000#32), (.keyLen, 4#32), (.priAddr, 0x2004#32), (.priLen, 28#32)]
      (bytesFrom 0x2000 [0x4a, 0x65, 0x66, 0x65, 0x77, 0x68, 0x61, 0x74, 0x20, 0x64, 0x6f, 0x20, 0x79, 0x61, 0x20, 0x77, 0x61, 0x6e,
        0x74, 0x20, 0x66, 0x6f, 0x72, 0x20, 0x6e, 0x6f, 0x74, 0x68, 0x69, 0x6e, 0x67, 0x3f])) 0x2 .digest4 =
      some 0x259a7c79#32 := by decide +kernel

/-- 95_test_vectors.md 5.2: KEY_LEN = 65. -/
theorem test_hmac_key_too_long :
    after (prepared [(.keyAddr, 0x2000#32), (.keyLen, 65#32)] []) 0x2 .status = some 0x00000106#32 := by decide +kernel

/-- 95_test_vectors.md 5.4: counter 1, six digits. -/
theorem test_hotp_counter_1 :
    after (prepared [(.keyAddr, 0x2000#32), (.keyLen, 20#32), (.cntLo, 1#32)] otpKey) 0x603 .otp = some 287082#32 := by
  decide +kernel

/-- 95_test_vectors.md 5.4: DIG = 10. -/
theorem test_hotp_ten_digits :
    after (prepared [(.keyAddr, 0x2000#32), (.keyLen, 20#32)] otpKey) 0xA03 .status = some 0x00000206#32 := by decide +kernel

/-- 95_test_vectors.md 5.5: now = 20000000000 needs TS_HI. -/
theorem test_totp_high_timestamp :
    after (prepared [(.keyAddr, 0x2000#32), (.keyLen, 20#32), (.tsLo, 0xa817c800#32), (.tsHi, 4#32)] otpKey) 0x804 .otp =
      some 65353130#32 := by decide +kernel

/-- 43_otp.md R103: the key check comes before the digit check. -/
theorem test_totp_key_check_first :
    after (prepared [(.keyLen, 80#32)] []) 0x4 .status = some 0x00000106#32 := by decide +kernel

/-- 95_test_vectors.md 5.6: `15 30 71 03 29 82 24`, 12-hour mode, 2024-02-29 23:30:15. -/
theorem test_rtcDecode_pm :
    after (prepared [(.rtcimg0, 0x03713015#32), (.rtcimg1, 0x00248229#32)] []) 0x5 .dt0 = some 0x1D171E0F#32 ∧
    after (prepared [(.rtcimg0, 0x03713015#32), (.rtcimg1, 0x00248229#32)] []) 0x5 .dt1 = some 0x07E80002#32 := by decide +kernel

/-- 95_test_vectors.md 5.6: February 29 in 2023. -/
theorem test_rtcDecode_no_such_day :
    after (prepared [(.rtcimg0, 0x01000000#32), (.rtcimg1, 0x00230229#32)] []) 0x5 .status = some 0x00000206#32 := by decide +kernel

/-- 95_test_vectors.md 5.6: 2009-02-13 23:31:30. -/
theorem test_rtcEncode :
    after (prepared [(.dt0, 0x0D171F1E#32), (.dt1, 0x07D90002#32)] []) 0x6 .rtcout0 = some 0x23313000#32 ∧
    after (prepared [(.dt0, 0x0D171F1E#32), (.dt1, 0x07D90002#32)] []) 0x6 .rtcout1 = some 0x09821301#32 := by decide +kernel

/-- 95_test_vectors.md 5.6: the year 2100. -/
theorem test_rtcEncode_year_2100 :
    after (prepared [(.dt0, 0x01000000#32), (.dt1, 0x08340001#32)] []) 0x6 .status = some 0x00000206#32 := by decide +kernel

/-- 95_test_vectors.md 5.6: 2024-02-29 23:59:59. -/
theorem test_dtToUnix_leap_day :
    after (prepared [(.dt0, 0x1D173B3B#32), (.dt1, 0x07E80002#32)] []) 0x7 .tsLo = some 1709251199#32 := by decide +kernel

/-- 95_test_vectors.md 5.6: 1969-12-31 23:59:59. -/
theorem test_dtToUnix_before_epoch :
    after (prepared [(.dt0, 0x1F173B3B#32), (.dt1, 0x07B1000C#32)] []) 0x7 .status = some 0x00000206#32 := by decide +kernel

/-- 95_test_vectors.md 5.6: 946684800 is 2000-01-01, which the strict loops get wrong. -/
theorem test_unixToDt_first_of_year :
    after (prepared [(.tsLo, 946684800#32)] []) 0x8 .dt0 = some 0x01000000#32 ∧
    after (prepared [(.tsLo, 946684800#32)] []) 0x8 .dt1 = some 0x07D00001#32 := by decide +kernel

/-- 95_test_vectors.md 5.6: TS_HI = 1. -/
theorem test_unixToDt_too_late :
    after (prepared [(.tsHi, 1#32)] []) 0x8 .status = some 0x00000206#32 := by decide +kernel

/-- 95_test_vectors.md 5.6: the first image of the table. -/
theorem test_rtcToUnix :
    after (prepared [(.rtcimg0, 0x05233130#32), (.rtcimg1, 0x00098213#32)] []) 0x9 .tsLo = some 0x499602D2#32 ∧
    after (prepared [(.rtcimg0, 0x05233130#32), (.rtcimg1, 0x00098213#32)] []) 0x9 .dt0 = some 0x0D171F1E#32 := by decide +kernel

/-- 95_test_vectors.md 5.6: an image of 1900 fails and DT keeps its value. -/
theorem test_rtcToUnix_1900 :
    after (prepared [(.rtcimg1, 0x00000101#32)] []) 0x9 .status = some 0x00000206#32 ∧
    after (prepared [(.rtcimg1, 0x00000101#32)] []) 0x9 .dt0 = some 0#32 := by decide +kernel

/-- 95_test_vectors.md 5.6: 2000 with MON = 0. -/
theorem test_leap_2000 : after (prepared [(.dt1, 0x07D00000#32)] []) 0xA .leap = some 1#32 := by decide +kernel

/-- 95_test_vectors.md 5.6: 2100, where LEAP held 1. -/
theorem test_leap_2100 : after (prepared [(.dt1, 0x08340000#32), (.leap, 1#32)] []) 0xA .leap = some 0#32 := by decide +kernel

/-! ## Primitives and the host's port -/

/-- 95_test_vectors.md 3. -/
theorem test_primitives :
    choose 0xf0f0f0f0#32 0xff00ff00#32 0x0ff00ff0#32 = 0xff00ff00#32 ∧
    parity 0xf0f0f0f0#32 0xff00ff00#32 0x0ff00ff0#32 = 0#32 ∧
    majority 0xf0f0f0f0#32 0xff00ff00#32 0x0ff00ff0#32 = 0xfff0fff0#32 ∧
    rotl32 0xdeadbeef#32 30 = 0xf7ab6fbb#32 ∧ rotl32 0x12345678#32 5 = 0x468acf02#32 ∧
    be32 [0xc1#8, 0x39#8, 0x7e#8, 0xea#8] = 0xc1397eea#32 := by decide +kernel

/-- 95_test_vectors.md 4: the residues where the source's other formula fails. -/
theorem test_padding : padLen 56 = 63 ∧ padLen 63 = 56 ∧ padLen 55 = 0 ∧ padLen 64 = 55 ∧ blockCount 120 = 3 := by decide

/-- 95_test_vectors.md 5.8: WR STATUS, 2 on STATUS = 0x206 leaves 0x204. -/
theorem test_status_clear :
    ({ busy := false, done := true, err := true, ovr := false, errcode := .processing } : Status).toWord = 0x206#32 ∧
    (({ busy := false, done := true, err := true, ovr := false, errcode := .processing } : Status).clear 2#32).toWord = 0x204#32 := by
  decide

/-- 95_test_vectors.md 5.8: WR DT1 and WR RTCIMG1 of all ones. -/
theorem test_reserved_bits :
    (Window.reset.put .dt1 0xFFFFFFFF#32).get .dt1 = 0xFFFF00FF#32 ∧
    (Window.reset.put .rtcimg1 0xFFFFFFFF#32).get .rtcimg1 = 0x00FFFFFF#32 := by decide

/-- 20_memory.md R49: byte 0 of a buffer is in bits 7:0, and R26's img[2] is the hours byte. -/
theorem test_lanes : ofLanes 1#8 2#8 3#8 4#8 = 0x04030201#32 ∧ lane 0x04030201#32 2 = 3#8 := by decide

/-- 10_state.md R15: the offsets of the address and length registers, of CNT, TS, DT and the results. -/
theorem test_window_offsets :
    regAt 0x10 = some .keyAddr ∧ regAt 0x14 = some .keyLen ∧ regAt 0x18 = some .priAddr ∧ regAt 0x1C = some .priLen ∧
    regAt 0x28 = some .cntLo ∧ regAt 0x30 = some .tsLo ∧ regAt 0x38 = some .dt0 ∧ regAt 0x3C = some .dt1 ∧
    regAt 0x48 = some .rtcout0 ∧ regAt 0x50 = some .digest0 ∧ regAt 0x64 = some .otp ∧ regAt 0x68 = some .leap ∧
    regAt 0x6C = none := by decide

/-- 41_sha1.md R90, on the digest of "abc" of 95_test_vectors.md 5.1: its first byte and its last. -/
theorem test_digest_bytes :
    (digestBytes ⟨0xa9993e36#32, 0x4706816a#32, 0xba3e2571#32, 0x7850c26c#32, 0x9cd0d89d#32⟩).getD 0 0#8 = 0xa9#8 ∧
    (digestBytes ⟨0xa9993e36#32, 0x4706816a#32, 0xba3e2571#32, 0x7850c26c#32, 0x9cd0d89d#32⟩).getD 19 0#8 = 0x9d#8 := by decide

/-! ## Witnesses: the hypotheses of each statement are met together -/

/-- A core with a command word in flight and a schedule. -/
def flying (w : Word) (script : List Event) : State := { acceptCommand w State.reset with script := script }

/-- An idle core with a schedule. -/
def scheduled (script : List Event) : State := { State.reset with script := script }

theorem witness_DecodeOfEncodeIsTheInstruction : Instr.wellFormed (.hotp 15) = true ∧ Instr.wellFormed (.totp 0) = true := by decide

theorem witness_EncodeOfDecodeIsTheWord : decode 0x00001001#32 = .ok (.sha1 true) ∧ decode 0x00000F04#32 = .ok (.totp 15) := by
  decide

theorem witness_DecoderAcceptsExactlyTheLegalWords : decode 0x00000603#32 = .ok (.hotp 6) := by decide

/-- One word for each clause of R61, each with a core that has it in flight. -/
theorem witness_IllegalWordCompletesWithIllegalCmd :
    (0x00000000#32 : Word).toNat % 256 = 0 ∧ 11 ≤ (0x0000000B#32 : Word).toNat % 256 ∧
    (0x00002603#32 : Word).toNat / 2 ^ 13 ≠ 0 ∧
    ((0x00000101#32 : Word).toNat / 2 ^ 8 % 16 ≠ 0 ∧ (0x00000101#32 : Word).toNat % 256 ≠ 3 ∧
      (0x00000101#32 : Word).toNat % 256 ≠ 4) ∧
    ((0x00001002#32 : Word).toNat / 2 ^ 12 % 2 = 1 ∧ (0x00001002#32 : Word).toNat % 256 ≠ 1) ∧
    ∀ w, (flying w []).script = [] ∧ (flying w []).eng.phase ≠ .idle ∧ (flying w []).eng.op = w :=
  ⟨by decide, by decide, by decide, by decide, by decide, fun _ => ⟨rfl, by simp [flying, acceptCommand], rfl⟩⟩

theorem witness_StepRunsTheDecodedCommand :
    (flying 0x603#32 []).eng.phase ≠ .idle ∧ decode (flying 0x603#32 []).eng.op = .ok (.hotp 6) ∧ (flying 0x603#32 []).script = [] ∧
    (flying 0x603#32 [.finish]).script = .finish :: [] := by decide

theorem witness_IdleCoreWaits :
    State.reset.eng.phase = .idle ∧ State.reset.script = [] ∧ (scheduled [.tick]).script = .tick :: [] ∧
    (scheduled [.finish]).script = .finish :: [] := by decide

theorem witness_FailedCommandChangesOnlyStatus :
    (∃ t, (∃ i, exec i (prepared [(.keyLen, 65#32)] []) = .next t) ∧ t.win.status.err = true) ∧
    (∃ t, (flying 0#32 []).eng.phase ≠ .idle ∧ (flying 0#32 []).script = [] ∧ step (flying 0#32 []) = .next t ∧
      t.win.status.err = true) :=
  ⟨⟨_, ⟨.hmac, rfl⟩, by decide⟩, ⟨_, by decide, by decide, rfl, by decide⟩⟩

theorem witness_CommandsWriteOnlyTheirResults :
    (∃ t, exec (.sha1 true) State.reset = .next t) ∧ (∃ t, exec .hmac State.reset = .next t) ∧
    (∃ t, exec (.hotp 6) State.reset = .next t) ∧ (∃ t, exec (.totp 6) State.reset = .next t) ∧
    (∃ t, exec .rtcDecode State.reset = .next t) ∧ (∃ t, exec .rtcEncode State.reset = .next t) ∧
    (∃ t, exec .dtToUnix State.reset = .next t) ∧ (∃ t, exec .unixToDt State.reset = .next t) ∧
    (∃ t, exec .rtcToUnix State.reset = .next t) ∧ (∃ t, exec .leap State.reset = .next t) :=
  ⟨⟨_, rfl⟩, ⟨_, rfl⟩, ⟨_, rfl⟩, ⟨_, rfl⟩, ⟨_, rfl⟩, ⟨_, rfl⟩, ⟨_, rfl⟩, ⟨_, rfl⟩, ⟨_, rfl⟩, ⟨_, rfl⟩⟩

/-- Segments of three bytes, one of them up to the last admitted address. -/
def segments : State :=
  prepared [(.keyAddr, 0x2000#32), (.keyLen, 3#32), (.priAddr, 0x1000#32), (.priLen, 3#32), (.appAddr, 0x00FFFFFD#32),
    (.appLen, 3#32)] []

theorem witness_Sha1DigestsPrimaryThenAppendix :
    PriAdmitted segments ∧ AppAdmitted segments ∧ (List.replicate 64 0x61#8).length = 64 ∧ 0 < 80 ∧ 79 < 80 :=
  ⟨fun i (h : i < 3) => by interval_cases i <;> decide, fun i (h : i < 3) => by interval_cases i <;> decide, by decide, by decide,
    by decide⟩

theorem witness_PadIsMinimal :
    (56 + 63 + 1) % 64 = 56 ∧ 55 % 64 ≤ 55 ∧ 56 ≤ 56 % 64 := by decide

theorem witness_BlockCountOfLength : 119 % 64 ≤ 55 ∧ 56 ≤ 120 % 64 := by decide

theorem witness_BigEndianPackingRoundTrip : 0xbeef < 2 ^ (8 * 2) ∧ 1 < 2 ∧ 0 < 5 ∧ 4 < 5 ∧ 0 < 4 ∧ 3 < 4 := by decide

theorem witness_ScheduleFollowsTheRecurrence :
    (List.replicate 64 0x61#8).length = 64 ∧ 15 < 16 ∧ 16 ≤ 16 ∧ 16 < 80 ∧ 79 < 80 := by decide

theorem witness_HmacDigestsKeyAndMessage :
    segments.win.keyLen.toNat ≤ 64 ∧ (prepared [(.keyLen, 64#32)] []).win.keyLen.toNat ≤ 64 ∧ KeyAdmitted segments ∧
    PriAdmitted segments :=
  ⟨by decide, by decide, fun i (h : i < 3) => by interval_cases i <;> decide, fun i (h : i < 3) => by interval_cases i <;> decide⟩

theorem witness_HmacRejectsLongKeys : 64 < (prepared [(.keyLen, 65#32)] []).win.keyLen.toNat := by decide

/-- Segments of one byte at the first address that is not admitted. -/
def unread : State :=
  prepared [(.keyAddr, 0x01000000#32), (.keyLen, 1#32), (.priAddr, 0x01000000#32), (.priLen, 1#32), (.appAddr, 0x01000000#32),
    (.appLen, 1#32)] []

theorem witness_UnadmittedByteGivesBusError :
    ¬(PriAdmitted unread ∧ (true = true → AppAdmitted unread)) ∧ unread.win.keyLen.toNat ≤ 64 ∧
    ¬(KeyAdmitted unread ∧ PriAdmitted unread) ∧ (1 ≤ 1 ∧ 1 ≤ 9) ∧ ¬KeyAdmitted unread :=
  ⟨fun h => absurd (h.1 0 (by decide)) (by decide), by decide, fun h => absurd (h.1 0 (by decide)) (by decide),
    by decide, fun h => absurd (h 0 (by decide)) (by decide)⟩

theorem witness_HotpWritesPasscodeOfCounter :
    segments.win.keyLen.toNat ≤ 64 ∧ 1 ≤ 1 ∧ 9 ≤ 9 ∧ KeyAdmitted segments :=
  ⟨by decide, by decide, by decide, fun i (h : i < 3) => by interval_cases i <;> decide⟩

theorem witness_TotpWritesPasscodeOfTimeStep :
    segments.win.keyLen.toNat ≤ 64 ∧ 1 ≤ 9 ∧ 1 ≤ 9 ∧ KeyAdmitted segments :=
  ⟨by decide, by decide, by decide, fun i (h : i < 3) => by interval_cases i <;> decide⟩

theorem witness_PasscodeBelowTenToTheDigits : 9 ≤ 9 := by decide

theorem witness_OtpChecksKeyThenDigits :
    64 < (prepared [(.keyLen, 65#32)] []).win.keyLen.toNat ∧ (prepared [(.keyLen, 64#32)] []).win.keyLen.toNat ≤ 64 ∧
    (0 = 0 ∨ 10 ≤ 0) ∧ (10 = 0 ∨ 10 ≤ 10) := by decide

theorem witness_RtcDecodeWritesDatetime :
    (clockImageOf (prepared [(.rtcimg1, 0x00000101#32)] []).win).wf = true ∧ (clockImageOf State.reset.win).wf = false := by
  decide +kernel

theorem witness_HoursByteOfBothModes :
    (0x23#8 : Byte).toNat / 64 % 2 = 0 ∧ (0x72#8 : Byte).toNat / 64 % 2 = 1 ∧ hourOk 0x23#8 = true ∧ hourOk 0x72#8 = true ∧
    23 ≤ 23 ∧ 1 ≤ 12 ∧ 12 ≤ 12 := by decide

theorem witness_BcdRoundTrip : 99 ≤ 99 := by decide

/-- 1900-01-01 00:00:00 in DT0 and DT1 (95_test_vectors.md 5.6). -/
def dt1900 : State := prepared [(.dt0, 0x01000000#32), (.dt1, 0x076C0001#32)] []

/-- 1970-01-01 00:00:00 in DT0 and DT1 (95_test_vectors.md 5.6). -/
def dt1970 : State := prepared [(.dt0, 0x01000000#32), (.dt1, 0x07B20001#32)] []

theorem witness_RtcEncodeWritesImage :
    (datetimeOf dt1900.win).wf = true ∧ (datetimeOf State.reset.win).wf = false := by decide +kernel

theorem witness_DtToUnixWritesTimestamp :
    (datetimeOf dt1970.win).wf = true ∧ 1970 ≤ (datetimeOf dt1970.win).year ∧ (datetimeOf State.reset.win).wf = false ∧
    (datetimeOf dt1900.win).year < 1970 := by decide +kernel

theorem witness_UnixToDtWritesDatetime :
    (prepared [(.tsLo, 4102444799#32)] []).win.tsHi.toNat * 2 ^ 32 + (prepared [(.tsLo, 4102444799#32)] []).win.tsLo.toNat ≤
      4102444799 ∧
    4102444799 < (prepared [(.tsLo, 4102444800#32)] []).win.tsHi.toNat * 2 ^ 32 +
      (prepared [(.tsLo, 4102444800#32)] []).win.tsLo.toNat := by decide

/-- The clock image of 1970-01-01 00:00:00 (95_test_vectors.md 5.6). -/
def img1970 : State := prepared [(.rtcimg0, 0x01000000#32), (.rtcimg1, 0x00700101#32)] []

theorem witness_RtcToUnixWritesDatetimeAndTimestamp :
    (clockImageOf img1970.win).wf = true ∧ 1970 ≤ (decodeImage (clockImageOf img1970.win)).year ∧
    (clockImageOf State.reset.win).wf = false ∧
    (decodeImage (clockImageOf (prepared [(.rtcimg1, 0x00000101#32)] []).win)).year < 1970 := by decide +kernel

theorem witness_RtcToUnixIsDecodeThenConvert :
    ∃ t, exec .rtcToUnix img1970 = .next t ∧ t.win.status.err = false :=
  ⟨complete (rtcToUnixResult img1970.win) img1970, rfl, by decide +kernel⟩

theorem witness_FromUnixOfToUnix : (⟨59, 59, 23, 31, 12, 2099⟩ : Datetime).wf = true ∧ 1970 ≤ 2099 := by decide

theorem witness_ToUnixOfFromUnix : 4102444799 ≤ 4102444799 := by decide

theorem witness_DecodeOfEncodedImage :
    (⟨59, 59, 23, 29, 2, 2000⟩ : Datetime).wf = true ∧ (⟨0, 0, 0, 1, 1, 1900⟩ : Datetime).wf = true := by decide

theorem witness_TimestampBoundAndEpoch :
    (⟨0, 0, 0, 1, 1, 1970⟩ : Datetime).wf = true ∧ 1970 ≤ 1970 ∧ 1 ≤ 1 ∧ 1 ≤ 11 ∧ 11 ≤ 11 := by decide

theorem witness_HostReadHasNoSideEffect :
    (scheduled [rd 0#32 .digest4]).script = rd (scheduled [rd 0#32 .digest4]).base .digest4 :: [] ∧
    (0x6C ≤ 0x6C ∧ 0x6C ≤ 0xFC ∧ 0x6C % 4 = 0) ∧ (0x6C ≤ 0xFC ∧ 0xFC ≤ 0xFC ∧ 0xFC % 4 = 0) ∧
    (scheduled [.read 4 0xFC#32]).script =
      .read 4 ((scheduled [.read 4 0xFC#32]).base + BitVec.ofNat 32 0xFC) :: [] ∧
    (scheduled [.read 4 0x68#32]).script =
      .read 4 ((scheduled [.read 4 0x68#32]).base + BitVec.ofNat 32 0x68) :: [] := by decide

theorem witness_IdleOperandWriteIsStored :
    (scheduled [wr 0#32 .dt1 7#32]).script = wr (scheduled [wr 0#32 .dt1 7#32]).base .dt1 7#32 :: [] ∧ Reg.isOperand .dt1 = true ∧
    Reg.isOperand .rtcimg1 = true ∧ Reg.isOperand .keyLen = true ∧ (scheduled [wr 0#32 .dt1 7#32]).win.status.busy = false := by
  decide

theorem witness_BusyOperandWriteIsDropped :
    (flying 1#32 [wr 0#32 .keyLen 5#32]).script = wr (flying 1#32 [wr 0#32 .keyLen 5#32]).base .keyLen 5#32 :: [] ∧
    Reg.isOperand .keyLen = true ∧ (flying 1#32 [wr 0#32 .keyLen 5#32]).win.status.busy = true := by decide

theorem witness_ReadOnlyWritesAreIgnored :
    Reg.isOperand .digest0 = false ∧ Reg.digest0 ≠ .ctrl ∧ Reg.digest0 ≠ .status ∧ Reg.digest0 ≠ .cmd ∧
    (scheduled [wr 0#32 .digest0 7#32]).script = wr (scheduled [wr 0#32 .digest0 7#32]).base .digest0 7#32 :: [] ∧
    (scheduled [.write 4 0x6C#32 7#32]).script =
      .write 4 ((scheduled [.write 4 0x6C#32 7#32]).base + BitVec.ofNat 32 0x6C) 7#32 :: [] := by decide

theorem witness_IdleCmdWriteIsAccepted :
    (scheduled [wr 0#32 .cmd 0#32]).script = wr (scheduled [wr 0#32 .cmd 0#32]).base .cmd 0#32 :: [] ∧
    (scheduled [wr 0#32 .cmd 0#32]).win.status.busy = false := by decide

theorem witness_BusyCmdWriteSetsOverrunOnly :
    (flying 1#32 [wr 0#32 .cmd 2#32]).script = wr (flying 1#32 [wr 0#32 .cmd 2#32]).base .cmd 2#32 :: [] ∧
    (flying 1#32 [wr 0#32 .cmd 2#32]).win.status.busy = true := by decide

theorem witness_StatusWriteClearsWrittenOnes :
    (scheduled [clr 0#32]).script = wr (scheduled [clr 0#32]).base .status 0x0000000E#32 :: [] := by decide

theorem witness_CtrlWriteSetsEnableOrResets :
    (scheduled [srst 0#32]).script = wr (scheduled [srst 0#32]).base .ctrl 2#32 :: [] ∧ (2#32 : Word).toNat / 2 % 2 = 1 ∧
    (scheduled [wr 0#32 .ctrl 1#32]).script = wr (scheduled [wr 0#32 .ctrl 1#32]).base .ctrl 1#32 :: [] ∧
    (1#32 : Word).toNat / 2 % 2 = 0 := by decide

theorem witness_ResetValues : (scheduled [.resetInput]).script = .resetInput :: [] := by decide

theorem witness_InterruptLineFollowsEnableAndDone :
    (∃ t, exec .leap dt1900 = .next t) ∧
    (∃ t, (flying 0#32 []).eng.phase ≠ .idle ∧ (flying 0#32 []).script = [] ∧ step (flying 0#32 []) = .next t) ∧
    (∃ t, (flying 0xA#32 [.finish]).eng.phase ≠ .idle ∧ (flying 0xA#32 [.finish]).script = .finish :: [] ∧
      step (flying 0xA#32 [.finish]) = .next t) :=
  ⟨⟨_, rfl⟩, ⟨_, by decide, by decide, rfl⟩, ⟨_, by decide, by decide, rfl⟩⟩

theorem witness_NarrowOrMisalignedAccessIsRefused :
    ((0x10#32 : Word) - (scheduled [.read 1 0x10#32]).base).toNat < 256 ∧ 1 ≠ 4 ∧
    (scheduled [.read 1 0x10#32]).script = .read 1 0x10#32 :: [] ∧
    ((0xFF#32 : Word) - (scheduled [.write 4 0xFF#32 1#32]).base).toNat < 256 ∧
    ((0xFF#32 : Word) - (scheduled [.write 4 0xFF#32 1#32]).base).toNat % 4 ≠ 0 ∧
    (scheduled [.write 4 0xFF#32 1#32]).script = .write 4 0xFF#32 1#32 :: [] := by decide

/-- A core with a command in flight on the segments above, and a host write of one byte of message memory. -/
def racing (w : Word) (addr : Word) : State := { acceptCommand w segments with script := [.mem addr [7#8]] }

theorem witness_WritingAnOperandByteRaces :
    (∀ w addr, (racing w addr).script = .mem addr [7#8] :: [] ∧ (racing w addr).eng.phase ≠ .idle) ∧ 0 < [7#8].length ∧
    decode 0x1001#32 = .ok (.sha1 true) ∧ decode 2#32 = .ok .hmac ∧ decode 0x103#32 = .ok (.hotp 1) ∧
    decode 0x904#32 = .ok (.totp 9) ∧
    (2 < segments.win.priLen.toNat ∧ (0x1002#32 : Word) + BitVec.ofNat 32 0 = segments.win.priAddr + BitVec.ofNat 32 2) ∧
    (2 < segments.win.appLen.toNat ∧ (0x00FFFFFF#32 : Word) + BitVec.ofNat 32 0 = segments.win.appAddr + BitVec.ofNat 32 2) ∧
    (2 < segments.win.keyLen.toNat ∧ (0x2002#32 : Word) + BitVec.ofNat 32 0 = segments.win.keyAddr + BitVec.ofNat 32 2) ∧
    segments.win.keyLen.toNat ≤ 64 :=
  ⟨fun _ _ => ⟨rfl, by simp [racing, acceptCommand]⟩, by decide, by decide, by decide, by decide, by decide, by decide, by decide,
    by decide, by decide⟩

/-- HOTP with a digit count of 0 reads no byte. -/
theorem reads_nothing (addr a : Word) : ¬ ReadsByte (racing 0x3#32 addr).eng.op (racing 0x3#32 addr).win a := by
  have hd : decode (racing 0x3#32 addr).eng.op = .ok (.hotp 0) := by change decode 0x3#32 = _; decide
  simp [ReadsByte, hd]

/-- SHA1 with an appendix does not read the byte after its primary segment. -/
theorem reads_not_1003 (addr : Word) : ¬ ReadsByte (racing 0x1001#32 addr).eng.op (racing 0x1001#32 addr).win 0x1003#32 := by
  have hd : decode (racing 0x1001#32 addr).eng.op = .ok (.sha1 true) := by
    change decode 0x1001#32 = _; decide
  have hp : ¬ InSegment segments.win.priAddr segments.win.priLen.toNat 0x1003#32 := by rw [← covers_iff .mm]; decide
  have ha : ¬ InSegment segments.win.appAddr segments.win.appLen.toNat 0x1003#32 := by rw [← covers_iff .mm]; decide
  simpa [ReadsByte, hd] using ⟨hp, ha⟩

/-- A digit count of 0 fails its check before any read, and 0x1003 lies just past the primary segment. -/
theorem witness_MemoryWriteStoresTheBytes :
    (scheduled [.mem 0x1000#32 [7#8]]).script = .mem 0x1000#32 [7#8] :: [] ∧
    (scheduled [.mem 0x1000#32 [7#8]]).eng.phase = .idle ∧ [7#8].length ≤ 2 ^ 32 ∧
    (scheduled [.mem 0x1000#32 [7#8]]).mm.cells.wf = true ∧
    (∀ i, i < [7#8].length → ¬ ReadsByte (racing 0x3#32 0x2000#32).eng.op (racing 0x3#32 0x2000#32).win
      (0x2000#32 + BitVec.ofNat 32 i)) ∧
    (∀ i, i < [7#8].length → ¬ ReadsByte (racing 0x1001#32 0x1003#32).eng.op (racing 0x1001#32 0x1003#32).win
      (0x1003#32 + BitVec.ofNat 32 i)) :=
  ⟨by decide, by decide, by decide, by decide, fun i _ => reads_nothing _ _,
    fun i (h : i < 1) => by interval_cases i; exact reads_not_1003 _⟩

theorem witness_OnlyTheHostWritesMemory :
    (∃ t, step State.reset = .next t) ∧ ∀ addr data rest, State.reset.script ≠ .mem addr data :: rest :=
  ⟨⟨_, rfl⟩, fun _ _ _ h => by cases h⟩

theorem witness_ResultsChangeOnlyAtCompletion :
    (flying 1#32 [.write 4 0x04#32 1#32]).script = .write 4 0x04#32 1#32 :: [] ∧
    (∃ t, step (flying 1#32 [.write 4 0x04#32 1#32]) = .next t) ∧ (flying 1#32 [.write 4 0x04#32 1#32]).win.status.busy = true ∧
    Event.write 4 0x04#32 1#32 ≠ .finish ∧ Event.write 4 0x04#32 1#32 ≠ .resetInput ∧
    windowOffset (flying 1#32 [.write 4 0x04#32 1#32]).base 0x04#32 = 0x04 ∧ (1#32 : Word).getLsbD 1 = false :=
  ⟨by decide, ⟨_, rfl⟩, by decide, by decide, by decide, by decide, by decide⟩

theorem witness_InternalStepIsInvisible : (flying 1#32 [.tick]).script = .tick :: [] := by decide

/-- The empty message takes 82 internal steps: CHECK, eighty rounds, the end of the block. -/
theorem witness_PipelineComputesTheCommandFunction :
    (flying 1#32 []).eng.phase = .check ∧ (flying 1#32 []).eng.pend = [] ∧ (flying 1#32 []).eng.perr = .none ∧
    ((flying 1#32 []).eng.ticks State.reset.win State.reset.mm 82).phase = .commit := by decide +kernel

/-- LEAP stands in COMMIT after two internal steps. -/
def committing : State :=
  let s := flying 0xA#32 []
  { s with eng := Engine.ticks s.win s.mm 2 s.eng }

theorem witness_PipelineComputesTheCommandFunction_commit :
    committing.PipelineOnTrack ∧ committing.eng.phase = .commit ∧ committing.script = [] ∧
    (flying 0#32 [.finish]).eng.phase ≠ .idle ∧ (flying 0#32 [.finish]).script = .finish :: [] :=
  ⟨fun _ => ⟨rfl, 2, (flying 0xA#32 []).eng, rfl, rfl, rfl, rfl, rfl⟩, by decide +kernel, rfl, by decide, by decide⟩

theorem witness_PipelineReachesCommit : (flying 0x603#32 []).eng.phase = .check := by decide

theorem witness_EveryStepKeepsThePipelineOnTrack :
    (flying 0xA#32 [.tick]).PipelineOnTrack ∧ ∃ t, step (flying 0xA#32 [.tick]) = .next t :=
  ⟨fun _ => ⟨rfl, 0, (flying 0xA#32 []).eng, rfl, rfl, rfl, rfl, rfl⟩, ⟨_, rfl⟩⟩

theorem witness_ResultDependsOnOperandsAndReadBytesOnly :
    SameOperands State.reset.win { State.reset.win with otp := 7#32 } ∧
    ∀ a, commandReads 1#32 State.reset.win a = true →
      (scheduled []).mm.byte a = State.reset.mm.byte a ∧ (scheduled []).mm.admitted a = State.reset.mm.admitted a :=
  ⟨fun r h => by cases r <;> first | rfl | exact absurd h (by decide), fun _ _ => ⟨rfl, rfl⟩⟩

theorem witness_WaitEndsAfterCompletion :
    (flying 0xA#32 [.wait]).script = .wait :: [] ∧ (flying 0xA#32 [.wait]).win.status.busy = true ∧
    (flying 0xA#32 [.wait]).eng.phase ≠ .idle := by decide

theorem witness_InvariantKeptByEveryStep : State.reset.Inv ∧ ∃ t, step State.reset = .next t :=
  ⟨⟨by decide, by decide, by decide, by decide, by decide, by decide, by decide, by decide, by decide, by decide⟩, ⟨_, rfl⟩⟩

theorem witness_EngineShapeKeptByEveryStep : State.reset.EngineShape ∧ ∃ t, step State.reset = .next t :=
  ⟨⟨by decide, by decide, by decide, by decide, by decide, by decide, by decide, by decide, by decide, by decide, by decide,
    by decide⟩, ⟨_, rfl⟩⟩

end Sys2Proof.Tests
end

section
/-! PROOFS. The family of the state (10_state.md): the three invariants that every step keeps, what the pipeline brings to COMMIT, and
the host's writes of the window. -/

namespace Sys2Proof.Machine

/-! ## What a step can do to the window, the internal state and memory

`step_cases` says what moves at each event. The invariants speak of the window, the internal state and memory alone, so the events
are put together here by what they do to these three. -/

/-- What a completion may return, of a decoded command or of an illegal word: one of the four error codes a command raises (R130),
or a result set whose passcode is below 10^9 (R29). -/
structure Completable (r : Except ErrCode (List (Reg × Word))) : Prop where
  error : ∀ code, r = .error code →
    code = .inputSize ∨ code = .processing ∨ code = .busError ∨ code = .illegalCmd
  otp : ∀ p, r = .ok p → ∀ v, (Reg.otp, v) ∈ p → v.toNat ≤ 999999999

theorem Completable.of_sound {i : Instr} {r : Except ErrCode (List (Reg × Word))} (h : SoundResult i r) : Completable r where
  error code hc := by
    rcases h.1 code hc with h | h | h <;> simp [h]
  otp p hp := (h.2 p hp).2

theorem completable_illegalCmd : Completable (.error .illegalCmd) where
  error code hc := by simp [← Except.error.inj hc]
  otp p hp := by simp at hp

/-- Everything a step can do to the window, the internal state and message memory. -/
inductive Effect (s t : State) : Prop where
  /-- The schedule and the observation alone move. -/
  | none (hw : t.win = s.win) (he : t.eng = s.eng) (hm : t.mm = s.mm)
  /-- CTRL.IE is written (R18). -/
  | enable (ie : Bool) (hw : t.win = { s.win with ie := ie }) (he : t.eng = s.eng) (hm : t.mm = s.mm)
  /-- STATUS is acknowledged (R19). -/
  | clear (v : Word) (hw : t.win = { s.win with status := s.win.status.clear v }) (he : t.eng = s.eng) (hm : t.mm = s.mm)
  /-- A CMD write finds the core busy (R64). -/
  | overrun (hw : t.win = { s.win with status := s.win.status.overrun }) (he : t.eng = s.eng) (hm : t.mm = s.mm)
  /-- A command is accepted (R63). -/
  | accept (v : Word) (hw : t.win = (acceptCommand v s).win) (he : t.eng = (acceptCommand v s).eng) (hm : t.mm = s.mm)
  /-- An operand register is written while the core is idle (R21). -/
  | operand (r : Reg) (v : Word) (hr : r.isOperand = true) (hb : s.win.status.busy = false) (hw : t.win = s.win.put r v)
      (he : t.eng = s.eng) (hm : t.mm = s.mm)
  /-- The host writes bytes of memory that no command in flight reads (R56). -/
  | store (addr : Word) (data : List Byte)
      (hrace : s.eng.phase = .idle ∨ anyRead s.eng.op s.win addr data.length = false) (hw : t.win = s.win)
      (he : t.eng = s.eng) (hm : t.mm = { s.mm with cells := s.mm.cells.writeBytes addr data })
  /-- Either reset (R143). -/
  | reset (hw : t.win = Window.reset) (he : t.eng = Engine.reset) (hm : t.mm = s.mm)
  /-- An internal step (R65 (a)). -/
  | tick (hw : t.win = s.win) (he : t.eng = s.eng.tick s.win s.mm) (hm : t.mm = s.mm)
  /-- The completion step (R65 (b), R67). -/
  | complete (r : Except ErrCode (List (Reg × Word))) (hr : Completable r) (hw : t.win = (Machine.complete r s).win)
      (he : t.eng = { s.eng with phase := .idle }) (hm : t.mm = s.mm)

/-- The completion step leaves the schedule out of account. -/
theorem complete_win_script (r : Except ErrCode (List (Reg × Word))) (s : State) (rest : List Event) :
    (complete r { s with script := rest }).win = (complete r s).win := by
  cases r <;> rfl

theorem Effect.of_writeReg (r : Reg) (v : Word) (s : State) (rest : List Event) :
    Effect s (writeReg r v { s with script := rest }) := by
  rcases writeReg_cases r v { s with script := rest } with
    h | ⟨-, -, h⟩ | ⟨-, -, h⟩ | ⟨-, h⟩ | ⟨-, -, h⟩ | ⟨-, -, h⟩ | ⟨hr, hb, h⟩ <;> rw [h]
  · exact .none rfl rfl rfl
  · exact .reset rfl rfl rfl
  · exact .enable _ rfl rfl rfl
  · exact .clear v rfl rfl rfl
  · exact .overrun rfl rfl rfl
  · exact .accept v rfl rfl rfl
  · exact .operand r v hr hb rfl rfl rfl

theorem Effect.of_runCommand {s t : State} {rest : List Event} (h : runCommand { s with script := rest } = .next t) :
    Effect s t := by
  obtain ⟨r, hr, ht⟩ : ∃ r, Completable r ∧
      runCommand { s with script := rest } = .next (Machine.complete r { s with script := rest }) := by
    rcases runCommand_sound { s with script := rest } with ⟨i, r, -, -, ht, hs⟩ | ⟨-, ht⟩
    · exact ⟨r, .of_sound hs, ht⟩
    · exact ⟨_, completable_illegalCmd, ht⟩
  obtain rfl := Host.Outcome.next.inj (h.symm.trans ht)
  exact .complete r hr (complete_win_script r s rest) (complete_eng r _) (complete_mm r _)

theorem step_effect {s t : State} (h : step s = .next t) : Effect s t := by
  cases step_cases h with
  | waits _ _ ht => subst ht; exact .none rfl rfl rfl
  | skips _ _ _ ht => subst ht; exact .none rfl rfl rfl
  | writes _ _ v r rest _ _ ht => subst ht; exact .of_writeReg r v s rest
  | reads _ _ _ _ _ ht => subst ht; exact .none rfl rfl rfl
  | stores addr data _ _ hrace ht => subst ht; exact .store addr data hrace rfl rfl rfl
  | polls _ _ _ ht => subst ht; exact .none rfl rfl rfl
  | pollsBusy _ _ _ ht => subst ht; exact .none rfl rfl rfl
  | resets _ _ ht => subst ht; exact .reset rfl rfl rfl
  | ticks _ _ ht => subst ht; exact .tick rfl rfl rfl
  | completes _ _ _ ht => exact .of_runCommand ht

/-! ## The pipeline stays on track -/

/-- An idle sequencer is on track. -/
theorem onTrack_of_idle {t : State} (h : t.eng.phase = .idle) : t.PipelineOnTrack := fun hp => absurd h hp

/-- What an internal step reads of the window and BUSY are all that the track depends on in the window. -/
theorem State.PipelineOnTrack.of_sameRead {s t : State} (h : s.PipelineOnTrack) (hw : SameRead s.win t.win)
    (hb : t.win.status.busy = s.win.status.busy) (he : t.eng = s.eng) (hm : t.mm = s.mm) : t.PipelineOnTrack := by
  intro hp
  rw [he] at hp
  obtain ⟨hbusy, n, e, hop, hphase, hpend, hperr, hn⟩ := h hp
  refine ⟨hb.trans hbusy, n, e, by rw [he, hop], hphase, hpend, hperr, ?_⟩
  rw [he, hm, ticks_congr_window hw, hn]

/-- An accepted command stands at the start of its track (R63). -/
theorem onTrack_of_accept {s t : State} {v : Word} (hw : t.win = (acceptCommand v s).win)
    (he : t.eng = (acceptCommand v s).eng) : t.PipelineOnTrack :=
  fun _ => ⟨by rw [hw]; rfl, 0, t.eng, rfl, by rw [he]; rfl, by rw [he]; rfl, by rw [he]; rfl, rfl⟩

/-- Memory that differs in no byte the command in flight reads leaves it on its track (R56). -/
theorem State.PipelineOnTrack.of_agreeOn {s t : State} (h : s.PipelineOnTrack) (hw : t.win = s.win) (he : t.eng = s.eng)
    (hm : s.eng.phase ≠ .idle → AgreeOn (commandReads s.eng.op s.win · = true) s.mm t.mm) : t.PipelineOnTrack := by
  intro hp
  rw [he] at hp
  obtain ⟨hbusy, n, e, hop, hphase, hpend, hperr, hn⟩ := h hp
  refine ⟨by rw [hw, hbusy], n, e, by rw [he, hop], hphase, hpend, hperr, ?_⟩
  have hin : e.ReadsIn (commandReads s.eng.op s.win · = true) s.win :=
    Engine.readsIn_other (by simp [hphase]) (by simp [hphase])
  rw [he, hw, ticks_congr_mem (hm hp) n hop hin, hn]

/-- A host memory write agrees with the memory before it on every address it does not name. -/
theorem agreeOn_writeBytes {P : Word → Prop} (m : MsgMem) (addr : Word) (data : List Byte)
    (h : ∀ j, j < data.length → ¬P (addr + BitVec.ofNat 32 j)) :
    AgreeOn P m { m with cells := m.cells.writeBytes addr data } := fun a ha =>
  ⟨Memory.read_writeBytes_other addr data a fun j hj heq => h j hj (heq ▸ ha), rfl⟩

/-- One internal step more is a step further on the track. -/
theorem State.PipelineOnTrack.of_tick {s t : State} (h : s.PipelineOnTrack) (hw : t.win = s.win)
    (he : t.eng = s.eng.tick s.win s.mm) (hm : t.mm = s.mm) : t.PipelineOnTrack := by
  intro hp
  rw [he, ne_eq, Engine.tick_phase_idle] at hp
  obtain ⟨hbusy, n, e, hop, hphase, hpend, hperr, hn⟩ := h hp
  refine ⟨by rw [hw, hbusy], n + 1, e, by rw [he, Engine.tick_op, hop], hphase, hpend, hperr, ?_⟩
  rw [he, hw, hm, Engine.ticks_add, ← hn]
  rfl

/-- Settles O55: an operand is written only where BUSY is 0, and a memory write that does not race leaves every byte the command
reads, so its internal steps go as they went before. -/
theorem everyStepKeepsThePipelineOnTrack : Obligations.EveryStepKeepsThePipelineOnTrack := by
  intro s t h hstep
  cases step_effect hstep with
  | none hw he hm => exact h.of_agreeOn hw he fun _ _ _ => by simp [hm]
  | enable ie hw he hm => exact h.of_sameRead (hw ▸ sameRead_ie _ ie) (by rw [hw]) he hm
  | clear v hw he hm => exact h.of_sameRead (hw ▸ sameRead_status _ _) (by rw [hw, Status.clear_busy]) he hm
  | overrun hw he hm => exact h.of_sameRead (hw ▸ sameRead_status _ _) (by rw [hw, Status.overrun_busy]) he hm
  | accept v hw he _ => exact onTrack_of_accept hw he
  | operand r v _ hb _ he _ =>
    refine onTrack_of_idle (by_contra fun hp => ?_)
    rw [he] at hp
    obtain ⟨hbusy, -⟩ := h hp
    simp [hb] at hbusy
  | store addr data hrace hw he hm =>
    refine h.of_agreeOn hw he fun hp => hm ▸ agreeOn_writeBytes s.mm addr data fun j hj => ?_
    simp [(anyRead_eq_false_iff _ _ _ _).mp (hrace.resolve_left hp) j hj]
  | reset _ he _ => exact onTrack_of_idle (by rw [he]; rfl)
  | tick hw he hm => exact h.of_tick hw he hm
  | complete _ _ _ he _ => exact onTrack_of_idle (by rw [he])

/-! ## The invariant of the window, the sequencer and memory -/

/-- The part of `State.Inv` that speaks of the flags of STATUS alone (R19, R130). -/
structure Status.Sound (f : Status) : Prop where
  in_flight : f.busy = true → f.done = false ∧ f.err = false ∧ f.errcode = .none
  err_code : f.err = true → f.errcode ≠ .none
  no_hex_code : f.errcode ≠ .invalidHexChar ∧ f.errcode ≠ .sizing

/-- The part of `State.Inv` that speaks of stored registers: the reserved bits are 0 and OTP is bounded (R16, R29). -/
structure Window.Masked (w : Window) : Prop where
  dt1 : w.dt1 &&& dt1Mask = w.dt1
  rtcimg1 : w.rtcimg1 &&& rtcimg1Mask = w.rtcimg1
  leap : w.leap &&& leapMask = w.leap
  otp : w.otp.toNat ≤ 999999999

theorem State.inv_iff (s : State) :
    s.Inv ↔ s.win.status.Sound ∧ s.win.Masked ∧ (s.eng.phase = .idle ↔ s.win.status.busy = false) ∧
      (s.win.status.busy = true → s.eng.op = s.win.cmd) ∧ s.mm.cells.wf = true := by
  constructor
  · rintro ⟨hphase, hflight, herr, hhex, hop, hdt1, himg1, hleap, hotp, hmem⟩
    exact ⟨⟨hflight, herr, hhex⟩, ⟨hdt1, himg1, hleap, hotp⟩, hphase, hop, hmem⟩
  · rintro ⟨⟨hflight, herr, hhex⟩, ⟨hdt1, himg1, hleap, hotp⟩, hphase, hop, hmem⟩
    exact ⟨hphase, hflight, herr, hhex, hop, hdt1, himg1, hleap, hotp, hmem⟩

/-! ### The flags -/

theorem Status.reset_sound : Status.reset.Sound := ⟨by decide, by decide, by decide⟩

theorem Status.accepted_sound (f : Status) : f.accepted.Sound :=
  ⟨fun _ => ⟨rfl, rfl, rfl⟩, by simp [Status.accepted], by simp [Status.accepted]⟩

theorem Status.succeeded_sound (f : Status) : f.succeeded.Sound :=
  ⟨by simp [Status.succeeded], by simp [Status.succeeded], by simp [Status.succeeded]⟩

theorem Status.failed_sound (f : Status) {code : ErrCode} (h1 : code ≠ .none) (h2 : code ≠ .invalidHexChar)
    (h3 : code ≠ .sizing) : (f.failed code).Sound :=
  ⟨by simp [Status.failed], fun _ => h1, h2, h3⟩

theorem Status.Sound.overrun {f : Status} (h : f.Sound) : f.overrun.Sound := { h with }

/-- An acknowledgement clears flags and leaves BUSY and ERRCODE (R19). -/
theorem Status.Sound.clear {f : Status} (h : f.Sound) (v : Word) : (f.clear v).Sound where
  in_flight hb := by
    obtain ⟨hdone, herr, hcode⟩ := h.in_flight hb
    simp [hdone, herr, hcode]
  err_code he := h.err_code (Bool.and_eq_true_iff.mp he).1
  no_hex_code := h.no_hex_code

/-! ### The stored registers -/

theorem Window.reset_masked : Window.reset.Masked := ⟨rfl, rfl, rfl, by decide⟩

theorem Window.Masked.putAll {w : Window} (h : w.Masked) (p : List (Reg × Word))
    (hp : ∀ v, (Reg.otp, v) ∈ p → v.toNat ≤ 999999999) : (w.putAll p).Masked := by
  obtain ⟨hdt1, himg1, hleap, hotp⟩ := putAll_reserved w p h.dt1 h.rtcimg1 h.leap h.otp hp
  exact ⟨hdt1, himg1, hleap, hotp⟩

/-- OTP is no operand register, so the host does not write it (R21). -/
theorem Window.Masked.put_operand {w : Window} (h : w.Masked) {r : Reg} (hr : r.isOperand = true) (v : Word) :
    (w.put r v).Masked := by
  refine h.putAll [(r, v)] fun x hx => ?_
  obtain ⟨rfl, -⟩ : Reg.otp = r ∧ x = v := by simpa using hx
  simp [Reg.isOperand] at hr

/-! ### The completion -/

theorem complete_busy (r : Except ErrCode (List (Reg × Word))) (s : State) : (complete r s).win.status.busy = false := by
  cases r <;> rfl

theorem Completable.status_sound {r : Except ErrCode (List (Reg × Word))} (h : Completable r) (s : State) :
    (complete r s).win.status.Sound := by
  cases r with
  | ok p => exact Status.succeeded_sound _
  | error code =>
    refine Status.failed_sound _ ?_ ?_ ?_ <;> rcases h.error code rfl with rfl | rfl | rfl | rfl <;> decide

theorem Completable.masked {r : Except ErrCode (List (Reg × Word))} (h : Completable r) {s : State} (hw : s.win.Masked) :
    (complete r s).win.Masked := by
  cases r with
  | ok p => exact { hw.putAll p (h.otp p rfl) with }
  | error code => exact { hw with }

/-- Settles O58: each thing a step can do keeps the flags, the stored registers and the form of memory. -/
theorem invariantKeptByEveryStep : Obligations.InvariantKeptByEveryStep := by
  intro s t h hstep
  obtain ⟨hst, hmask, hphase, hop, hmem⟩ := s.inv_iff.mp h
  rw [State.inv_iff]
  cases step_effect hstep with
  | none hw he hm => rw [hw, he, hm]; exact ⟨hst, hmask, hphase, hop, hmem⟩
  | enable ie hw he hm => rw [hw, he, hm]; exact ⟨hst, { hmask with }, hphase, hop, hmem⟩
  | clear v hw he hm => rw [hw, he, hm]; exact ⟨hst.clear v, { hmask with }, hphase, hop, hmem⟩
  | overrun hw he hm => rw [hw, he, hm]; exact ⟨hst.overrun, { hmask with }, hphase, hop, hmem⟩
  | accept v hw he hm =>
    rw [hw, he, hm]
    exact ⟨Status.accepted_sound _, { hmask with }, by simp [acceptCommand, Status.accepted], fun _ => rfl, hmem⟩
  | operand r v hr _ hw he hm =>
    rw [hw, he, hm, Window.put_status, Window.put_cmd]
    exact ⟨hst, hmask.put_operand hr v, hphase, hop, hmem⟩
  | store addr data _ hw he hm =>
    rw [hw, he, hm]
    exact ⟨hst, hmask, hphase, hop, Memory.wf_writeBytes addr data hmem⟩
  | reset hw he hm =>
    rw [hw, he, hm]
    exact ⟨Status.reset_sound, Window.reset_masked, by decide, fun hb => absurd hb (by decide), hmem⟩
  | tick hw he hm =>
    rw [hw, he, hm, Engine.tick_phase_idle, Engine.tick_op]
    exact ⟨hst, hmask, hphase, hop, hmem⟩
  | complete r hr hw he hm =>
    rw [hw, he, hm, complete_busy]
    exact ⟨hr.status_sound s, hr.masked hmask, by simp, by simp, hmem⟩

/-! ## The shape of the internal state -/

/-- The part of `State.EngineShape` that does not look at the phase: the sizes of what the internal state holds (R34 to R37). -/
structure Engine.Sized (e : Engine) : Prop where
  sched : e.w.length = 80
  block : e.blk.length = 64
  ipad : e.bufs.ipad.length = 64
  opad : e.bufs.opad.length = 64
  inner : e.bufs.inner.length = 20
  cntbuf : e.bufs.cntbuf.length = 8
  round : e.t ≤ 80
  seg1 : e.seg1.len ≤ e.seg1.src.capacity
  seg2 : e.seg2.len ≤ e.seg2.src.capacity

/-- R35: in HASH the block index is one of a block of the message. -/
def Engine.BlockInRange (e : Engine) : Prop := e.phase = .hash → e.blkidx < blockCount (messageLen e.seg1 e.seg2)

theorem State.engineShape_iff (s : State) :
    s.EngineShape ↔ s.eng.Sized ∧ s.eng.BlockInRange ∧ (s.eng.phase = .keyload → s.win.keyLen.toNat ≤ 64) ∧
      (s.eng.phase ≠ .idle → s.win.status.busy = true) := by
  constructor
  · rintro ⟨h1, h2, h3, h4, h5, h6, h7, h8, h9, hblk, hkey, hbusy⟩
    exact ⟨⟨h1, h2, h3, h4, h5, h6, h7, h8, h9⟩, hblk, hkey, hbusy⟩
  · rintro ⟨⟨h1, h2, h3, h4, h5, h6, h7, h8, h9⟩, hblk, hkey, hbusy⟩
    exact ⟨h1, h2, h3, h4, h5, h6, h7, h8, h9, hblk, hkey, hbusy⟩

/-- Outside HASH there is nothing to say of the block index. -/
theorem Engine.blockInRange_of_phase_ne {e : Engine} (h : e.phase ≠ .hash) : e.BlockInRange := fun hp => absurd hp h

/-- The segment fits its source (R80). -/
def Segment.Fits (g : Segment) : Prop := g.len ≤ g.src.capacity

theorem Segment.fits_mm (base len : Word) : Segment.Fits ⟨.mm, base, len.toNat⟩ := by
  have := len.isLt
  simp only [Segment.Fits, Src.capacity]
  omega

theorem appendixOf_fits (app : Bool) (w : Window) : (appendixOf app w).Fits := by
  cases app
  · exact Nat.le_refl 0
  · exact Segment.fits_mm w.appAddr w.appLen

theorem messageSegment_fits (op : Word) (w : Window) : (messageSegment op w).Fits := by
  unfold messageSegment
  split
  · exact Nat.le_refl 8
  · exact Nat.le_refl 8
  · exact Segment.fits_mm w.priAddr w.priLen

/-! ### The parts of an internal step keep the sizes -/

theorem Engine.Sized.withPhase {e : Engine} (h : e.Sized) (p : Phase) : ({ e with phase := p } : Engine).Sized := { h with }

theorem Engine.Sized.abort {e : Engine} (h : e.Sized) (code : ErrCode) : (e.abort code).Sized := { h with }

theorem Engine.Sized.settle {e : Engine} (h : e.Sized) (pend : List (Reg × Word)) : (e.settle pend).Sized := { h with }

theorem Engine.Sized.await {e : Engine} (h : e.Sized) (r : Except ErrCode (List (Reg × Word))) : (e.await r).Sized := by
  cases r with
  | error code => exact h.abort code
  | ok pend => exact h.settle pend

theorem Engine.Sized.startHash {e : Engine} (h : e.Sized) (pass : Pass) {g1 g2 : Segment} (h1 : g1.Fits) (h2 : g2.Fits) :
    (e.startHash pass g1 g2).Sized := { h with round := Nat.zero_le _, seg1 := h1, seg2 := h2 }

theorem Engine.blockInRange_startHash (e : Engine) (pass : Pass) (g1 g2 : Segment) : (e.startHash pass g1 g2).BlockInRange :=
  fun _ => blockCount_pos _

theorem Engine.Sized.withCounter {e : Engine} (h : e.Sized) (counter : Nat) :
    ({ e with phase := .keyload, bufs := Machine.withCounter e.bufs counter } : Engine).Sized :=
  { h with cntbuf := be64bytes_length counter }

theorem Engine.Sized.loadBlock {e : Engine} (h : e.Sized) {blk : List Byte} (hb : blk.length = 64) : (e.loadBlock blk).Sized :=
  { h with block := hb, sched := schedule_length hb }

theorem Engine.Sized.doRound {e : Engine} (h : e.Sized) (ht : e.t < 80) : e.doRound.Sized := { h with round := ht }

theorem Engine.Sized.passDone {e : Engine} (h : e.Sized) : e.passDone.Sized := by
  unfold Engine.passDone
  split
  · exact h.settle _
  · have hi : ({ e with bufs := { e.bufs with inner := digestBytes e.h } } : Engine).Sized :=
      { h with inner := digestBytes_length e.h }
    exact hi.startHash _ (Nat.le_refl 64) (Nat.le_refl 20)
  · split
    · exact h.withPhase _
    · exact h.withPhase _
    · exact h.settle _

theorem Engine.blockInRange_passDone (e : Engine) : e.passDone.BlockInRange := by
  unfold Engine.passDone
  split
  · exact Engine.blockInRange_of_phase_ne (by simp [Engine.settle])
  · exact Engine.blockInRange_startHash _ _ _ _
  · split <;> exact Engine.blockInRange_of_phase_ne (by simp [Engine.settle])

/-- Everything CHECK can do: an error, the start of SHA1, the key of HMAC or of a passcode where its length has passed the check, or
the calendar (log entry 20). -/
theorem tickCheck_cases (w : Window) (e : Engine) :
    (∃ code, tickCheck w e = e.abort code) ∨
    (∃ app, tickCheck w e = e.startHash .single (priSegment w) (appendixOf app w)) ∨
    (w.keyLen.toNat ≤ 64 ∧ tickCheck w e = { e with phase := .keyload }) ∨
    (w.keyLen.toNat ≤ 64 ∧ ∃ c, tickCheck w e = { e with phase := .keyload, bufs := withCounter e.bufs c }) ∨
    tickCheck w e = { e with phase := .cal } := by
  have otp : ∀ dig c, (∃ code, e.startOtp dig c w = e.abort code) ∨
      (w.keyLen.toNat ≤ 64 ∧ e.startOtp dig c w = { e with phase := .keyload, bufs := withCounter e.bufs c }) := by
    intro dig c
    unfold Engine.startOtp
    rcases otpChecks_cases dig w with ⟨-, hc⟩ | ⟨-, -, hc⟩ | ⟨hk, -, -, hc⟩ <;> rw [hc]
    · exact .inl ⟨_, rfl⟩
    · exact .inl ⟨_, rfl⟩
    · exact .inr ⟨hk, rfl⟩
  unfold tickCheck
  cases decode e.op with
  | error _ => exact .inl ⟨_, rfl⟩
  | ok i =>
    cases i with
    | sha1 app => exact .inr (.inl ⟨app, rfl⟩)
    | hmac =>
      dsimp only
      split_ifs with hk
      · exact .inl ⟨_, rfl⟩
      · exact .inr (.inr (.inl ⟨not_lt.mp hk, rfl⟩))
    | hotp dig => exact (otp dig _).imp_right fun ⟨hk, h⟩ => .inr (.inr (.inl ⟨hk, _, h⟩))
    | totp dig => exact (otp dig _).imp_right fun ⟨hk, h⟩ => .inr (.inr (.inl ⟨hk, _, h⟩))
    | rtcDecode | rtcEncode | dtToUnix | unixToDt | rtcToUnix | leap => exact .inr (.inr (.inr (.inr rfl)))

theorem tickCheck_sized (w : Window) {e : Engine} (h : e.Sized) : (tickCheck w e).Sized := by
  rcases tickCheck_cases w e with ⟨code, ht⟩ | ⟨app, ht⟩ | ⟨-, ht⟩ | ⟨-, c, ht⟩ | ht <;> rw [ht]
  · exact h.abort code
  · exact h.startHash _ (Segment.fits_mm w.priAddr w.priLen) (appendixOf_fits app w)
  · exact h.withPhase _
  · exact h.withCounter c
  · exact h.withPhase _

/-- KEYLOAD makes pads of 64 bytes of a key that has passed the check (R96). -/
theorem tickKeyload_sized {w : Window} (m : MsgMem) {e : Engine} (h : e.Sized) (hk : w.keyLen.toNat ≤ 64) :
    (tickKeyload w m e).Sized := by
  unfold tickKeyload
  cases hr : readKey m e.bufs (keySegment w) with
  | error code => exact h.abort code
  | ok key =>
    have hlen : key.length ≤ 64 := (readBytes_length hr).trans_le hk
    have hp : ({ e with bufs := withPads e.bufs key } : Engine).Sized :=
      { h with ipad := keyPad_length _ hlen, opad := keyPad_length _ hlen }
    exact hp.startHash _ (Nat.le_refl 64) (messageSegment_fits e.op w)

theorem tickHash_sized (m : MsgMem) {e : Engine} (h : e.Sized) : (tickHash m e).Sized := by
  unfold tickHash
  split_ifs with h0 h80
  · cases hr : readBlock m e.bufs e.seg1 e.seg2 e.blkidx with
    | error code => exact h.abort code
    | ok blk => exact (h.loadBlock (readBytes_length hr)).doRound (show e.t < 80 by omega)
  · exact h.doRound h80
  · have hd : ({ e with h := addWorking e.h e.work } : Engine).Sized := { h with }
    unfold Engine.blockDone
    dsimp only
    split_ifs
    · exact { hd with round := Nat.zero_le _ }
    · exact hd.passDone

theorem tickHash_blockInRange (m : MsgMem) {e : Engine} (h : e.BlockInRange) : (tickHash m e).BlockInRange := by
  unfold tickHash
  split_ifs
  · cases readBlock m e.bufs e.seg1 e.seg2 e.blkidx with
    | error code => exact Engine.blockInRange_of_phase_ne (by simp [Engine.abort])
    | ok blk => exact h
  · exact h
  · unfold Engine.blockDone
    dsimp only
    split_ifs with hlt
    · exact fun _ => hlt
    · exact Engine.blockInRange_passDone _

theorem tickTrunc_sized {e : Engine} (h : e.Sized) : (tickTrunc e).Sized := by
  unfold tickTrunc
  split <;> exact h.settle _

theorem tickCal_sized (w : Window) {e : Engine} (h : e.Sized) : (tickCal w e).Sized := by
  unfold tickCal
  cases decode e.op with
  | error _ => exact h.abort _
  | ok i =>
    cases i with
    | sha1 | hmac | hotp | totp => exact h.abort _
    | rtcDecode | rtcEncode | dtToUnix | unixToDt | rtcToUnix | leap => exact h.await _

/-! ### An internal step keeps the shape -/

/-- Every internal step keeps the sizes, where KEYLOAD finds a key that has passed the check. -/
theorem Engine.tick_sized {w : Window} (m : MsgMem) {e : Engine} (h : e.Sized)
    (hk : e.phase = .keyload → w.keyLen.toNat ≤ 64) : (e.tick w m).Sized := by
  unfold Engine.tick
  split
  · exact h
  · exact tickCheck_sized w h
  · exact tickKeyload_sized m h (hk ‹_›)
  · exact tickHash_sized m h
  · exact tickTrunc_sized h
  · exact tickCal_sized w h
  · exact h

theorem tickCheck_blockInRange (w : Window) (e : Engine) : (tickCheck w e).BlockInRange := by
  rcases tickCheck_cases w e with ⟨code, ht⟩ | ⟨app, ht⟩ | ⟨-, ht⟩ | ⟨-, c, ht⟩ | ht <;> rw [ht]
  · exact Engine.blockInRange_of_phase_ne (by simp [Engine.abort])
  · exact Engine.blockInRange_startHash _ _ _ _
  · exact Engine.blockInRange_of_phase_ne (by simp)
  · exact Engine.blockInRange_of_phase_ne (by simp)
  · exact Engine.blockInRange_of_phase_ne (by simp)

theorem tickKeyload_blockInRange (w : Window) (m : MsgMem) (e : Engine) : (tickKeyload w m e).BlockInRange := by
  unfold tickKeyload
  split
  · exact Engine.blockInRange_of_phase_ne (by simp [Engine.abort])
  · exact Engine.blockInRange_startHash _ _ _ _

/-- Every internal step keeps the block index in range. -/
theorem Engine.tick_blockInRange (w : Window) (m : MsgMem) {e : Engine} (h : e.BlockInRange) : (e.tick w m).BlockInRange := by
  unfold Engine.tick
  split
  · exact h
  · exact tickCheck_blockInRange w e
  · exact tickKeyload_blockInRange w m e
  · exact tickHash_blockInRange m h
  · exact Engine.blockInRange_of_phase_ne (by simp [tickTrunc_phase])
  · exact Engine.blockInRange_of_phase_ne (by simp [tickCal_phase])
  · exact h

/-- CHECK leads to KEYLOAD only where the key has passed the check (R95, R101). -/
theorem tickCheck_keyload {w : Window} {e : Engine} (h : (tickCheck w e).phase = .keyload) : w.keyLen.toNat ≤ 64 := by
  rcases tickCheck_cases w e with ⟨code, ht⟩ | ⟨app, ht⟩ | ⟨hk, -⟩ | ⟨hk, -⟩ | ht
  · simp [ht, Engine.abort] at h
  · simp [ht, Engine.startHash] at h
  · exact hk
  · exact hk
  · simp [ht] at h

/-- An internal step leads to KEYLOAD from CHECK alone, so the key has passed the check there. -/
theorem Engine.tick_keyload {w : Window} {m : MsgMem} {e : Engine} (h : (e.tick w m).phase = .keyload) :
    w.keyLen.toNat ≤ 64 := by
  cases hp : e.phase <;> simp only [Engine.tick, hp] at h
  case check => exact tickCheck_keyload h
  case keyload => rcases tickKeyload_phase w m e with h' | h' <;> simp [h'] at h
  case hash => rcases tickHash_phase m e hp with h' | h' | h' <;> simp [h'] at h
  case trunc => simp [tickTrunc_phase] at h
  case cal => simp [tickCal_phase] at h
  all_goals simp at h

/-! ### A step keeps the shape -/

/-- The shape of an idle core is its sizes. -/
theorem engineShape_of_idle {t : State} (h : t.eng.Sized) (hp : t.eng.phase = .idle) : t.EngineShape :=
  t.engineShape_iff.mpr ⟨h, Engine.blockInRange_of_phase_ne (by simp [hp]), by simp [hp], fun hn => absurd hp hn⟩

/-- A step that leaves the internal state, KEY_LEN and BUSY keeps the shape. -/
theorem State.EngineShape.of_eng_eq {s t : State} (h : s.EngineShape) (he : t.eng = s.eng) (hk : t.win.keyLen = s.win.keyLen)
    (hb : t.win.status.busy = s.win.status.busy) : t.EngineShape := by
  rw [State.engineShape_iff, he, hk, hb]
  exact s.engineShape_iff.mp h

theorem Engine.reset_sized : Engine.reset.Sized :=
  ⟨by decide, by decide, by decide, by decide, by decide, by decide, by decide, by decide, by decide⟩

theorem Engine.Sized.accept {s : State} (h : s.eng.Sized) (v : Word) : (acceptCommand v s).eng.Sized := { h with }

/-- Settles O60: KEY_LEN is written only where BUSY is 0, and an internal step enters KEYLOAD only past the key check. -/
theorem engineShapeKeptByEveryStep : Obligations.EngineShapeKeptByEveryStep := by
  intro s t h hstep
  obtain ⟨hsized, hblk, hkey, hbusy⟩ := s.engineShape_iff.mp h
  cases step_effect hstep with
  | none hw he _ => exact h.of_eng_eq he (by rw [hw]) (by rw [hw])
  | enable ie hw he _ => exact h.of_eng_eq he (by rw [hw]) (by rw [hw])
  | clear v hw he _ => exact h.of_eng_eq he (by rw [hw]) (by rw [hw, Status.clear_busy])
  | overrun hw he _ => exact h.of_eng_eq he (by rw [hw]) (by rw [hw, Status.overrun_busy])
  | accept v hw he _ =>
    refine t.engineShape_iff.mpr ⟨he ▸ hsized.accept v, ?_, ?_, fun _ => by rw [hw]; rfl⟩
    · exact Engine.blockInRange_of_phase_ne (by simp [he, acceptCommand])
    · simp [he, acceptCommand]
  | operand r v _ hb _ he _ =>
    refine engineShape_of_idle (he ▸ hsized) (by_contra fun hp => ?_)
    rw [he] at hp
    simp [hbusy hp] at hb
  | store addr data _ hw he _ => exact h.of_eng_eq he (by rw [hw]) (by rw [hw])
  | reset _ he _ => exact engineShape_of_idle (he ▸ Engine.reset_sized) (by rw [he]; rfl)
  | tick hw he _ =>
    rw [State.engineShape_iff, hw, he, ne_eq, Engine.tick_phase_idle]
    exact ⟨Engine.tick_sized s.mm hsized hkey, Engine.tick_blockInRange s.win s.mm hblk, Engine.tick_keyload, hbusy⟩
  | complete _ _ _ he _ => exact engineShape_of_idle (he ▸ hsized.withPhase _) (by rw [he])

theorem State.reset_inv : State.reset.Inv :=
  State.reset.inv_iff.mpr ⟨Status.reset_sound, Window.reset_masked, by decide, by decide, Memory.reset_wf⟩

/-- Settles O59. -/
theorem invariantHoldsAtReset : Obligations.InvariantHoldsAtReset :=
  ⟨State.reset_inv, engineShape_of_idle Engine.reset_sized rfl, onTrack_of_idle rfl⟩

/-! ## What the internal steps bring to COMMIT -/

/-- An accepted command that waits in CHECK is at a point of the pipeline. -/
theorem good_of_check {e : Engine} (hp : e.phase = .check) (hn : e.perr = .none) : e.Good where
  hash h := by simp [hp] at h
  perr _ := hn
  cal h := by simp [hp] at h

/-- R31: what the internal steps bring to COMMIT is `Exec`'s result, since every step keeps what remains to be computed. -/
theorem ticks_outcome {w : Window} {m : MsgMem} {e : Engine} {n : Nat} (hp : e.phase = .check) (hn : e.perr = .none)
    (hc : (e.ticks w m n).phase = .commit) : (e.ticks w m n).outcome = commandResult e.op w m :=
  calc (e.ticks w m n).outcome = (e.ticks w m n).remaining w m := by simp only [Engine.remaining, hc]
    _ = e.remaining w m := (remaining_ticks w m n e (good_of_check hp hn)).1
    _ = commandResult e.op w m := by simp only [Engine.remaining, hp]

/-- R66, R67: the meaning of a decoded command completes with `Exec`'s result. -/
theorem exec_eq_complete {i : Instr} {s : State} (h : decode s.eng.op = .ok i) :
    exec i s = .next (complete (commandResult s.eng.op s.win s.mm) s) := by
  unfold commandResult
  rw [h]
  cases i <;> rfl

/-- R66, R67: the completion step commits `Exec`'s result, of a legal or an illegal word. -/
theorem runCommand_eq_complete (s : State) :
    runCommand s = .next (complete (commandResult s.eng.op s.win s.mm) s) := by
  unfold runCommand
  cases h : decode s.eng.op with
  | ok i => exact exec_eq_complete h
  | error e => simp only [commandResult, h]

theorem coreFinish_of_busy {s : State} (h : s.eng.phase ≠ .idle) : coreFinish s = runCommand s := if_neg h

/-- With nothing scheduled a command in flight completes with `Exec`'s result. -/
theorem step_completes {s : State} (hp : s.eng.phase ≠ .idle) (hs : s.script = []) :
    step s = .next (complete (commandResult s.eng.op s.win s.mm) s) := by
  rw [step_of_empty hs, coreFinish_of_busy hp, runCommand_eq_complete]

/-- A `finish` event completes a command in flight with `Exec`'s result. -/
theorem step_finish {s : State} {rest : List Event} (hp : s.eng.phase ≠ .idle) (hs : s.script = .finish :: rest) :
    step s = .next (complete (commandResult s.eng.op s.win s.mm) { s with script := rest }) := by
  rw [step_of_event hs]
  exact (coreFinish_of_busy (s := { s with script := rest }) hp).trans (runCommand_eq_complete _)

/-- R31: what waits in COMMIT on the track of a command is `Exec`'s result. -/
theorem State.PipelineOnTrack.outcome_eq {s : State} (h : s.PipelineOnTrack) (hc : s.eng.phase = .commit) :
    s.eng.outcome = commandResult s.eng.op s.win s.mm := by
  obtain ⟨-, n, e, hop, hphase, -, hperr, hn⟩ := h (by simp [hc])
  rw [← hop, hn]
  exact ticks_outcome hphase hperr (hn ▸ hc)

/-- Settles O53: the internal steps keep what remains to be computed, and the completion step commits `Exec`'s result. -/
theorem pipelineComputesTheCommandFunction : Obligations.PipelineComputesTheCommandFunction := by
  refine ⟨fun w m e n hp _ hn hc => ticks_outcome hp hn hc, fun s hp => ⟨runCommand_eq_complete s, ?_, ?_⟩, ?_⟩
  · exact fun hs => step_completes hp hs
  · exact fun rest hs => step_finish hp hs
  · intro s h hc hs
    rw [h.outcome_eq hc, step_completes (by simp [hc]) hs]

/-! ## The host's writes of the window -/

/-- A scheduled `WR` of a register reaches it (R69). -/
theorem step_wr {s : State} {r : Reg} {v : Word} {rest : List Event} (h : s.script = wr s.base r v :: rest) :
    step s = .next (writeReg r v { s with script := rest }) := by
  rw [step_of_event h]
  exact runEvent_wr r v { s with script := rest }

/-- Bit `k` of a word in arithmetic. -/
theorem getLsbD_eq_decide (v : Word) (k : Nat) : v.getLsbD k = decide (v.toNat / 2 ^ k % 2 = 1) :=
  Nat.testBit_eq_decide_div_mod_eq

/-! ### Operands -/

theorem Reg.isOperand_iff (r : Reg) : r.isOperand = true ↔ r ∈ operandRegs := by
  cases r <;> decide

theorem writeReg_operand_idle {r : Reg} {s : State} (v : Word) (hr : r.isOperand = true) (hb : s.win.status.busy = false) :
    writeReg r v s = { s with win := s.win.put r v } := by
  cases r <;> simp_all [writeReg, writeOperand, Reg.isOperand]

theorem Window.get_put_dt1 (w : Window) (v : Word) : (w.put .dt1 v).get .dt1 = v &&& dt1Mask := by
  simp only [Window.put, Window.get, BitVec.and_assoc, BitVec.and_self]

theorem Window.get_put_rtcimg1 (w : Window) (v : Word) : (w.put .rtcimg1 v).get .rtcimg1 = v &&& rtcimg1Mask := by
  simp only [Window.put, Window.get, BitVec.and_assoc, BitVec.and_self]

/-- An operand register without reserved bits holds the value written. -/
theorem Window.get_put_operand (w : Window) {r : Reg} (v : Word) (hr : r.isOperand = true) (h1 : r ≠ .dt1)
    (h2 : r ≠ .rtcimg1) : (w.put r v).get r = v := by
  cases r <;> simp_all [Window.put, Window.get, Reg.isOperand]

/-- Settles O37. -/
theorem idleOperandWriteIsStored : Obligations.IdleOperandWriteIsStored := by
  refine ⟨Reg.isOperand_iff, fun s rest r v hs hr hb => ?_⟩
  refine ⟨{ s with script := rest, win := s.win.put r v }, ?_, Window.get_put_operand _ v hr, ?_, ?_, ?_, rfl⟩
  · rw [step_wr hs]
    exact congrArg _ (writeReg_operand_idle v hr hb)
  · rintro rfl
    exact Window.get_put_dt1 _ v
  · rintro rfl
    exact Window.get_put_rtcimg1 _ v
  · exact fun q hq => Window.get_put_ne _ v hq

/-! ### Read-only registers and reserved offsets -/

/-- A register the host may not write ignores the write (R17). -/
theorem writeReg_readOnly {r : Reg} (v : Word) (s : State) (hr : r.isOperand = false) (h1 : r ≠ .ctrl) (h2 : r ≠ .status)
    (h3 : r ≠ .cmd) : writeReg r v s = s := by
  rcases writeReg_cases r v s with h | ⟨h, -⟩ | ⟨h, -⟩ | ⟨h, -⟩ | ⟨h, -⟩ | ⟨h, -⟩ | ⟨h, -⟩
  · exact h
  · exact absurd h h1
  · exact absurd h h1
  · exact absurd h h2
  · exact absurd h h3
  · exact absurd h h3
  · simp [hr] at h

/-- A reserved offset ignores the write (R16). -/
theorem runEvent_write_reserved (s : State) (v : Word) {off : Nat} (h1 : 0x6C ≤ off) (h2 : off ≤ 0xFC) (h4 : off % 4 = 0) :
    runEvent (.write 4 (s.base + BitVec.ofNat 32 off) v) s = .next s := by
  simp only [runEvent, hostWrite, checkAccess_ok s (show off < 256 by omega) h4, writeWindow, regAt_reserved h1]

/-- Settles O39. -/
theorem readOnlyWritesAreIgnored : Obligations.ReadOnlyWritesAreIgnored := by
  refine fun s rest v => ⟨fun r hr h1 h2 h3 hs => ?_, fun off h1 h2 h4 hs => ?_⟩
  · rw [step_wr hs, writeReg_readOnly v _ hr h1 h2 h3]
  · rw [step_of_event hs]
    exact runEvent_write_reserved { s with script := rest } v h1 h2 h4

/-! ### STATUS -/

/-- A flag that a W1C write leaves is one that was set and whose written bit is 0. -/
theorem clearedFlag_iff (b : Bool) (v : Word) (k : Nat) :
    (b && !v.getLsbD k) = true ↔ b = true ∧ v.toNat / 2 ^ k % 2 = 0 := by
  simp [getLsbD_eq_decide]

/-- Settles O42. -/
theorem statusWriteClearsWrittenOnes : Obligations.StatusWriteClearsWrittenOnes := by
  intro s rest v hs
  refine ⟨{ s with script := rest, win := { s.win with status := s.win.status.clear v } }, step_wr hs,
    clearedFlag_iff _ v 1, clearedFlag_iff _ v 2, clearedFlag_iff _ v 3, rfl, rfl, ?_, rfl⟩
  exact fun r hr => Window.get_with_status _ _ hr

/-- The number of two bit vectors put together. -/
theorem toNat_append_eq_add {m n : Nat} (x : BitVec m) (y : BitVec n) : (x ++ y).toNat = x.toNat * 2 ^ n + y.toNat := by
  rw [BitVec.toNat_append, Nat.shiftLeft_eq, Nat.mul_comm, ← Nat.two_pow_add_eq_or_of_lt y.isLt]

theorem toNat_ofBool_eq_ite (b : Bool) : (BitVec.ofBool b).toNat = if b then 1 else 0 := by cases b <;> rfl

/-- R19: STATUS as a number. -/
theorem Status.toWord_toNat (f : Status) : f.toWord.toNat =
    (if f.busy then 1 else 0) + (if f.done then 2 else 0) + (if f.err then 4 else 0) + (if f.ovr then 8 else 0) +
      256 * f.errcode.toBits.toNat := by
  simp only [Status.toWord, toNat_append_eq_add, toNat_ofBool_eq_ite, BitVec.toNat_ofNat]
  split_ifs <;> omega

/-- Settles O43. -/
theorem statusWordLayout : Obligations.StatusWordLayout :=
  ⟨fun w => w.status.toWord_toNat, rfl, rfl, rfl, rfl, rfl, rfl, rfl⟩

/-! ### CTRL and reset -/

/-- CTRL is the only register whose value a change of IE changes. -/
theorem Window.get_with_ie (w : Window) (ie : Bool) {q : Reg} (h : q ≠ .ctrl) : ({ w with ie := ie } : Window).get q = w.get q := by
  cases q <;> first | rfl | exact absurd rfl h

theorem ctrlWord_toNat (ie : Bool) : (ctrlWord ie).toNat = if ie then 1 else 0 := by
  rw [ctrlWord, toNat_append_eq_add, toNat_ofBool_eq_ite]
  simp

theorem writeReg_ctrl_srst {v : Word} (s : State) (hv : v.toNat / 2 % 2 = 1) : writeReg .ctrl v s = resetCore s :=
  if_pos ((getLsbD_eq_decide v 1).trans (decide_eq_true hv))

theorem writeReg_ctrl_enable {v : Word} (s : State) (hv : v.toNat / 2 % 2 = 0) :
    writeReg .ctrl v s = { s with win := { s.win with ie := decide (v.toNat % 2 = 1) } } := by
  have hsrst : v.getLsbD 1 = false := (getLsbD_eq_decide v 1).trans (decide_eq_false (by omega))
  have hie : v.getLsbD 0 = decide (v.toNat % 2 = 1) := by rw [getLsbD_eq_decide, pow_zero, Nat.div_one]
  rw [writeReg, writeCtrl, hsrst, hie]
  rfl

/-- Settles O44. -/
theorem ctrlWriteSetsEnableOrResets : Obligations.CtrlWriteSetsEnableOrResets := by
  refine fun s rest v hs => ⟨fun hv => ?_, fun hv => ?_⟩
  · rw [step_wr hs, writeReg_ctrl_srst _ hv]
    rfl
  · rw [step_wr hs, writeReg_ctrl_enable _ hv]
    refine ⟨_, rfl, decide_eq_true_iff, ?_, fun r hr => Window.get_with_ie _ _ hr, rfl⟩
    simp only [Window.get, ctrlWord_toNat, decide_eq_true_eq]
    split_ifs <;> omega

/-- Settles O45. -/
theorem resetValues : Obligations.ResetValues := by
  refine ⟨fun r => ?_, rfl, rfl, rfl, rfl, fun s rest hs => ?_⟩
  · cases r <;> decide
  · rw [step_of_event hs]
    rfl

end Sys2Proof.Machine
end

section
/-! PROOFS. The family of message memory and the bus (20_memory.md): who writes memory, what a byte that is not admitted does to a
command, and the host's accesses of the window. -/

namespace Sys2Proof.Machine

/-! ## Bytes that are not admitted

A segment of message memory answers exactly where all of it is admitted, so a segment that is not ends the command that reads it. -/

/-- A segment of message memory answers exactly where it is admitted, whatever the buffers hold (R42, R80). -/
theorem segmentReads_mm_iff {m : MsgMem} (bufs : Buffers) {base : Word} {len : Nat} :
    SegmentReads m bufs ⟨.mm, base, len⟩ ↔ AdmittedAt m base len := by
  refine ⟨fun h i hi => ?_, segmentReads_mm bufs⟩
  obtain ⟨b, hb⟩ : ∃ b, m.read (base + BitVec.ofNat 32 i) = .ok b := h i hi
  rcases m.read_cases (base + BitVec.ofNat 32 i) with ⟨ha, -⟩ | ⟨-, he⟩
  · exact ha
  · rw [he] at hb
    cases hb

/-- The second segment of SHA1 that answers is admitted where APP = 1 (R75). -/
theorem appAdmitted_of_segmentReads {app : Bool} {s : State} {bufs : Buffers}
    (h : SegmentReads s.mm bufs (appendixOf app s.win)) (happ : app = true) : AppAdmitted s := by
  subst happ
  exact (segmentReads_mm_iff bufs).mp h

theorem sha1Result_of_unadmitted {app : Bool} {s : State} (h : ¬(PriAdmitted s ∧ (app = true → AppAdmitted s))) :
    sha1Result app s.win s.mm = .error .busError := by
  have hread : ¬(SegmentReads s.mm noBuffers (priSegment s.win) ∧ SegmentReads s.mm noBuffers (appendixOf app s.win)) :=
    fun hr => h ⟨(segmentReads_mm_iff _).mp hr.1, appAdmitted_of_segmentReads hr.2⟩
  rw [sha1Result, sha1DigestWords_of_unread hread]

theorem hmacResult_of_unadmitted {s : State} (hk : s.win.keyLen.toNat ≤ 64) (h : ¬(KeyAdmitted s ∧ PriAdmitted s)) :
    hmacResult s.win s.mm = .error .busError := by
  have hread : ¬(SegmentReads s.mm noBuffers (keySegment s.win) ∧ ∀ b, SegmentReads s.mm b (priSegment s.win)) :=
    fun hr => h ⟨(segmentReads_mm_iff _).mp hr.1, (segmentReads_mm_iff noBuffers).mp (hr.2 _)⟩
  rw [hmacResult, if_neg (not_lt.mpr hk),
    hmacCore_of_unread hread fun b b' hr => (segmentReads_mm_iff b').mpr ((segmentReads_mm_iff b).mp hr)]

/-- HOTP and TOTP read the key alone: their message is the counter, which lies in a buffer (R104). -/
theorem otpResult_of_unadmitted {dig : Nat} (counter : Nat) {s : State} (hk : s.win.keyLen.toNat ≤ 64) (h1 : 1 ≤ dig)
    (h9 : dig ≤ 9) (h : ¬KeyAdmitted s) : otpResult dig counter s.win s.mm = .error .busError := by
  have hchecks : otpChecks dig s.win = .ok () := by
    rw [otpChecks, if_neg (not_lt.mpr hk), if_pos ⟨h1, h9⟩]
  have hcore : hmacCore s.mm (withCounter noBuffers counter) (keySegment s.win) counterSegment = .error .busError :=
    hmacCore_of_unread (fun hr => h ((segmentReads_mm_iff _).mp hr.1)) fun _ _ _ _ _ => ⟨_, rfl⟩
  rw [otpResult, hchecks]
  simp only [hcore]

/-- A command whose function gives an error fails with it (R131). -/
theorem failsWith_of_result {i : Instr} {s : State} {r : Except ErrCode (List (Reg × Word))} {code : ErrCode}
    (h : exec i s = .next (complete r s)) (hr : r = .error code) : FailsWith i s code :=
  failsWith_of_exec (hr ▸ h)

/-- Settles O18: the segments a command reads are the ones its function hands to the engine, and the engine fails with BUS_ERROR
where one of them does not answer. -/
theorem unadmittedByteGivesBusError : Obligations.UnadmittedByteGivesBusError := by
  refine fun s => ⟨fun app h => ?_, fun hk h => ?_, fun dig hk h1 h9 h => ⟨?_, ?_⟩⟩
  · exact failsWith_of_result rfl (sha1Result_of_unadmitted h)
  · exact failsWith_of_result rfl (hmacResult_of_unadmitted hk h)
  · exact failsWith_of_result rfl (otpResult_of_unadmitted (counterOf s.win) hk h1 h9 h)
  · exact failsWith_of_result rfl (otpResult_of_unadmitted (totpCounter s.win) hk h1 h9 h)

/-! ## Who writes message memory -/

/-- No write of a register changes message memory: neither a command's acceptance nor a soft reset (R63, R146). -/
theorem writeReg_mm (r : Reg) (v : Word) (s : State) : (writeReg r v s).mm = s.mm := by
  rcases writeReg_cases r v s with
    h | ⟨-, -, h⟩ | ⟨-, -, h⟩ | ⟨-, h⟩ | ⟨-, -, h⟩ | ⟨-, -, h⟩ | ⟨-, -, h⟩ <;> rw [h]
  · exact resetCore_mm s
  · exact acceptCommand_mm v s

/-- The completion step of no command changes message memory (R43). -/
theorem runCommand_mm {s t : State} (h : runCommand s = .next t) : t.mm = s.mm := by
  rw [runCommand_eq_complete] at h
  obtain rfl := Host.Outcome.next.inj h
  exact complete_mm _ s

/-- Settles O50: of everything a step can do, a host memory write alone touches message memory. -/
theorem onlyTheHostWritesMemory : Obligations.OnlyTheHostWritesMemory := by
  intro s t h hmem
  cases step_cases h with
  | waits _ _ ht => rw [ht]
  | skips _ _ _ ht => rw [ht]
  | writes _ _ v r rest _ _ ht => rw [ht, writeReg_mm]
  | reads _ _ _ _ _ ht => rw [ht]
  | stores addr data rest hs => exact absurd hs (hmem addr data rest)
  | polls _ _ _ ht => rw [ht]
  | pollsBusy _ _ _ ht => rw [ht]
  | resets _ _ ht => rw [ht, resetCore_mm]
  | ticks _ _ ht => rw [ht]
  | completes rest _ _ ht => exact runCommand_mm (s := { s with script := rest }) ht

/-! ## The host's reads of the window -/

/-- A scheduled `RD` of a register gives its value to the observation (R69, R52). -/
theorem step_rd {s : State} {r : Reg} {rest : List Event} (h : s.script = rd s.base r :: rest) :
    step s = .next { s with script := rest, observed := s.observed ++ [s.win.get r] } := by
  rw [step_of_event h]
  exact runEvent_rd r { s with script := rest }

/-- A read of a reserved offset returns 0 (R16). -/
theorem runEvent_read_reserved (s : State) {off : Nat} (h1 : 0x6C ≤ off) (h2 : off ≤ 0xFC) (h4 : off % 4 = 0) :
    runEvent (.read 4 (s.base + BitVec.ofNat 32 off)) s = .next { s with observed := s.observed ++ [0#32] } := by
  simp only [runEvent, hostRead, checkAccess_ok s (show off < 256 by omega) h4, readWindow, regAt_reserved h1]

/-- A row of the table of R15 that the layout gives has its register at its offset. -/
theorem offset_of_mem_layout {off : Nat} {r : Reg} (h : (off, r) ∈ windowRegs.map fun q => (q.offset, q)) : r.offset = off := by
  obtain ⟨q, -, hq⟩ := List.mem_map.mp h
  obtain ⟨rfl, rfl⟩ := Prod.mk.inj hq
  rfl

/-- Settles O36: the rows written out are the layout's own, so a read at the offset of a row is a `RD` of its register. -/
theorem hostReadHasNoSideEffect : Obligations.HostReadHasNoSideEffect := by
  refine ⟨fun s rest => ⟨fun r hs => step_rd hs, fun off h1 h2 h4 hs => ?_, rfl⟩, fun off r hrow => ?_, fun w => ?_⟩
  · rw [step_of_event hs]
    exact runEvent_read_reserved { s with script := rest } h1 h2 h4
  · have hoff : r.offset = off := offset_of_mem_layout hrow
    refine ⟨hoff, fun s rest hs => step_rd ?_⟩
    rw [hs, rd, hoff]
  · exact ⟨rfl, rfl, rfl, rfl, rfl, rfl, rfl, rfl, rfl, rfl, rfl, rfl, rfl, rfl, rfl, rfl, rfl⟩

/-! ## Accesses that are refused -/

/-- The access rules refuse an access inside the window that is not an aligned 32-bit one (R51). -/
theorem checkAccess_notAligned32 {bytes : Nat} {addr : Word} {s : State} (hin : windowOffset s.base addr < 256)
    (h : bytes ≠ 4 ∨ windowOffset s.base addr % 4 ≠ 0) : checkAccess bytes addr s = .error .accessNotAligned32 := by
  have hbad : ¬(bytes = 4 ∧ windowOffset s.base addr % 4 = 0) := by tauto
  simp only [checkAccess, if_neg (not_le.mpr hin), if_neg hbad]

/-- Settles O47: a read and a write pass the same access rules. -/
theorem narrowOrMisalignedAccessIsRefused : Obligations.NarrowOrMisalignedAccessIsRefused := by
  intro s rest bytes addr v hin h
  have hrefused : checkAccess bytes addr { s with script := rest } = .error .accessNotAligned32 :=
    checkAccess_notAligned32 hin h
  refine ⟨fun hs => ?_, fun hs => ?_⟩
  · rw [step_of_event hs]
    simp only [runEvent, hostWrite, hrefused]
  · rw [step_of_event hs]
    simp only [runEvent, hostRead, hrefused]

end Sys2Proof.Machine
end

section
/-! PROOFS. The family of the encoding (30_encoding.md): the decoder and the encoder undo each other, what the completion step of a
command or of an illegal word writes and leaves, and how a command is accepted, worked on and waited for. -/

namespace Sys2Proof

/-! ## The decoder and the encoder -/

/-- The four fields of a word put together from them (R58). -/
theorem fields_append (sbz : BitVec 19) (app : Bool) (dig : BitVec 4) (op : BitVec 8) :
    sbzField (sbz ++ BitVec.ofBool app ++ dig ++ op) = sbz ∧ opField (sbz ++ BitVec.ofBool app ++ dig ++ op) = op ∧
    digField (sbz ++ BitVec.ofBool app ++ dig ++ op) = dig ∧ appField (sbz ++ BitVec.ofBool app ++ dig ++ op) = app := by
  refine ⟨BitVec.eq_of_getLsbD_eq fun k hk => ?_, BitVec.eq_of_getLsbD_eq fun k hk => ?_,
    BitVec.eq_of_getLsbD_eq fun k hk => ?_, ?_⟩
  all_goals
    simp only [sbzField, opField, digField, appField]
    grind

/-- A word with SBZ zero and the OP, DIG and APP of a well-formed command decodes to it (R60, R62). -/
theorem decode_of_fields {w : Word} {i : Instr} (hi : i.wellFormed = true) (hs : sbzField w = 0#19) (ho : opField w = opcode i)
    (hd : digField w = encodeDig i) (ha : appField w = encodeApp i) : decode w = .ok i := by
  cases i with
  | sha1 app => simp [decode, hs, ho, hd, ha, opcode, encodeDig, encodeApp]
  | hotp dig | totp dig =>
    have hdig : dig % 16 = dig := Nat.mod_eq_of_lt (of_decide_eq_true hi)
    simp [decode, digitCommand, hs, ho, hd, ha, opcode, encodeDig, encodeApp, hdig]
  | hmac | rtcDecode | rtcEncode | dtToUnix | unixToDt | rtcToUnix | leap =>
    simp [decode, plainCommand, hs, ho, hd, ha, opcode, encodeDig, encodeApp]

/-- Settles O1: the fields of an encoding are the command's own, and the decoder reads nothing else. -/
theorem decodeOfEncodeIsTheInstruction : Obligations.DecodeOfEncodeIsTheInstruction := by
  intro i hi
  obtain ⟨hs, ho, hd, ha⟩ := fields_append 0#19 (encodeApp i) (encodeDig i) (opcode i)
  exact decode_of_fields hi hs ho hd ha

/-- A word that decodes is the encoding of its command: the two have the same four fields. -/
theorem encode_of_decode {w : Word} {i : Instr} (h : decode w = .ok i) : encode i = w := by
  obtain ⟨hs, ho, hd, ha⟩ := decode_fields h
  rw [encode, ← hs, ← ho, ← hd, ← ha]
  exact (word_of_fields w).symm

/-- A digit count that the decoder reads fits the four bits of DIG (R58). -/
theorem wellFormed_of_decode {w : Word} {i : Instr} (h : decode w = .ok i) : i.wellFormed = true := by
  obtain ⟨hs, ho, -, ha⟩ := decode_fields h
  cases i with
  | hotp dig | totp dig =>
    obtain rfl : (digField w).toNat = dig := by
      simpa [decode, digitCommand, hs, ho, ha, opcode, encodeApp] using h
    exact decide_eq_true (digField w).isLt
  | sha1 | hmac | rtcDecode | rtcEncode | dtToUnix | unixToDt | rtcToUnix | leap => rfl

/-- Settles O2. -/
theorem encodeOfDecodeIsTheWord : Obligations.EncodeOfDecodeIsTheWord :=
  fun _ _ h => ⟨encode_of_decode h, wellFormed_of_decode h⟩

/-- R62: the word of a well-formed command is legal. -/
theorem legal_encode {i : Instr} (hi : i.wellFormed = true) : legal (encode i) = true := by
  cases i with
  | sha1 app => exact Laws.EncodeLegal.sha1 app hi
  | hmac => exact Laws.EncodeLegal.hmac hi
  | hotp dig => exact Laws.EncodeLegal.hotp dig hi
  | totp dig => exact Laws.EncodeLegal.totp dig hi
  | rtcDecode => exact Laws.EncodeLegal.rtcDecode hi
  | rtcEncode => exact Laws.EncodeLegal.rtcEncode hi
  | dtToUnix => exact Laws.EncodeLegal.dtToUnix hi
  | unixToDt => exact Laws.EncodeLegal.unixToDt hi
  | rtcToUnix => exact Laws.EncodeLegal.rtcToUnix hi
  | leap => exact Laws.EncodeLegal.leap hi

/-- The fields of a legal word are those of a well-formed command (R62). -/
theorem fields_of_legal {w : Word} (h : legal w = true) : ∃ i : Instr, i.wellFormed = true ∧
    sbzField w = 0#19 ∧ opField w = opcode i ∧ digField w = encodeDig i ∧ appField w = encodeApp i := by
  have hdig : digField w = BitVec.ofNat 4 (digField w).toNat := by simp
  have hfits : decide ((digField w).toNat < 16) = true := decide_eq_true (digField w).isLt
  simp only [legal, Bool.and_eq_true, Bool.or_eq_true, beq_iff_eq, Bool.not_eq_true'] at h
  obtain ⟨hs, (⟨ho, hd⟩ | ⟨ho | ho, ha⟩) | ⟨⟨(((((ho | ho) | ho) | ho) | ho) | ho) | ho, hd⟩, ha⟩⟩ := h
  · exact ⟨.sha1 (appField w), rfl, hs, ho, hd, rfl⟩
  · exact ⟨.hotp (digField w).toNat, hfits, hs, ho, hdig, ha⟩
  · exact ⟨.totp (digField w).toNat, hfits, hs, ho, hdig, ha⟩
  · exact ⟨.hmac, rfl, hs, ho, hd, ha⟩
  · exact ⟨.rtcDecode, rfl, hs, ho, hd, ha⟩
  · exact ⟨.rtcEncode, rfl, hs, ho, hd, ha⟩
  · exact ⟨.dtToUnix, rfl, hs, ho, hd, ha⟩
  · exact ⟨.unixToDt, rfl, hs, ho, hd, ha⟩
  · exact ⟨.rtcToUnix, rfl, hs, ho, hd, ha⟩
  · exact ⟨.leap, rfl, hs, ho, hd, ha⟩

/-- Settles O3: a word that decodes is the encoding of a well-formed command, and those are legal; a legal word has the fields of
a well-formed command, and those decode. -/
theorem decoderAcceptsExactlyTheLegalWords : Obligations.DecoderAcceptsExactlyTheLegalWords := by
  refine fun w => ⟨⟨?_, fun h => ?_⟩, fun i h => ?_⟩
  · rintro ⟨i, h⟩
    exact encode_of_decode h ▸ legal_encode (wellFormed_of_decode h)
  · obtain ⟨i, hi, hs, ho, hd, ha⟩ := fields_of_legal h
    exact ⟨i, decode_of_fields hi hs ho hd ha⟩
  · obtain ⟨-, ho, -, -⟩ := decode_fields h
    exact ho.symm

/-- Settles O5. -/
theorem writtenOutWordsDecode : Obligations.WrittenOutWordsDecode := by
  unfold Obligations.WrittenOutWordsDecode
  decide

end Sys2Proof

namespace Sys2Proof.Machine

/-! ## Illegal words -/

theorem opcode_toNat_range (i : Instr) : 1 ≤ (opcode i).toNat ∧ (opcode i).toNat ≤ 10 := by cases i <;> simp [opcode]

/-- HOTP and TOTP alone use DIG (R59). -/
theorem encodeDig_of_opcode {i : Instr} (h3 : (opcode i).toNat ≠ 3) (h4 : (opcode i).toNat ≠ 4) : encodeDig i = 0#4 := by
  cases i with
  | hotp => exact absurd rfl h3
  | totp => exact absurd rfl h4
  | _ => rfl

/-- SHA1 alone uses APP (R59). -/
theorem encodeApp_of_opcode {i : Instr} (h1 : (opcode i).toNat ≠ 1) : encodeApp i = false := by
  cases i with
  | sha1 => exact absurd rfl h1
  | _ => rfl

/-- The clauses (a) to (d) of R61, in arithmetic on the word. -/
def IllegalWord (w : Word) : Prop :=
  w.toNat % 256 = 0 ∨ 11 ≤ w.toNat % 256 ∨ w.toNat / 2 ^ 13 ≠ 0 ∨
    (w.toNat / 2 ^ 8 % 16 ≠ 0 ∧ w.toNat % 256 ≠ 3 ∧ w.toNat % 256 ≠ 4) ∨
    (w.toNat / 2 ^ 12 % 2 = 1 ∧ w.toNat % 256 ≠ 1)

/-- A word that meets a clause of R61 does not decode: the fields of a word that does are those of its command. -/
theorem IllegalWord.decode_ne_ok {w : Word} (h : IllegalWord w) (i : Instr) : decode w ≠ .ok i := by
  intro hok
  obtain ⟨hs, ho, hd, ha⟩ := decode_fields hok
  obtain ⟨hop, hdig, happ, hsbz⟩ := fields_toNat w
  rw [ho] at hop
  obtain ⟨hmin, hmax⟩ := opcode_toNat_range i
  rcases h with h | h | h | ⟨h, h3, h4⟩ | ⟨h, h1⟩
  · omega
  · omega
  · exact h (by rw [← hsbz, hs]; rfl)
  · rw [hd, encodeDig_of_opcode (hop ▸ h3) (hop ▸ h4)] at hdig
    exact h hdig.symm
  · rw [h, ha, encodeApp_of_opcode (hop ▸ h1)] at happ
    cases happ

/-- R66: an illegal word gives ILLEGAL_CMD, whatever the operands and memory hold. -/
theorem IllegalWord.commandResult_eq {op : Word} (h : IllegalWord op) (w : Window) (m : MsgMem) :
    commandResult op w m = .error .illegalCmd := by
  unfold commandResult
  cases hd : decode op with
  | error e => rfl
  | ok i => exact absurd hd (h.decode_ne_ok i)

/-- Settles O4. -/
theorem illegalWordCompletesWithIllegalCmd : Obligations.IllegalWordCompletesWithIllegalCmd := by
  rintro w s hw hs hp rfl
  refine ⟨complete (.error .illegalCmd) s, ?_, rfl, frame_fail .illegalCmd s⟩
  rw [step_completes hp hs, IllegalWord.commandResult_eq hw]

/-! ## The completion step -/

/-- R67: a completion leaves DONE set. -/
theorem complete_done (r : Except ErrCode (List (Reg × Word))) (s : State) : (complete r s).win.status.done = true := by
  cases r <;> rfl

/-- R19: a completion leaves OVR as it was. -/
theorem complete_ovr (r : Except ErrCode (List (Reg × Word))) (s : State) :
    (complete r s).win.status.ovr = s.win.status.ovr := by
  cases r <;> rfl

/-- No decoded command raises the code 0 (R130). -/
theorem SoundResult.ne_error_none {i : Instr} {r : Except ErrCode (List (Reg × Word))} (h : SoundResult i r) :
    r ≠ .error .none := by
  intro hr
  rcases h.1 .none hr with h | h | h <;> cases h

/-- A completion sets ERR exactly with a nonzero code (R67). -/
theorem complete_err_iff {r : Except ErrCode (List (Reg × Word))} (h : r ≠ .error .none) (s : State) :
    (complete r s).win.status.err = true ↔ (complete r s).win.status.errcode ≠ .none := by
  cases r with
  | ok p => simp [Status.succeeded]
  | error code =>
    have hcode : code ≠ .none := fun hc => h (by rw [hc])
    simp [Status.failed, hcode]

/-- Settles O8. -/
theorem everyCommandCompletes : Obligations.EveryCommandCompletes := by
  intro i s
  obtain ⟨r, hr, hsound⟩ := exec_sound i s
  exact ⟨complete r s, hr, complete_busy r s, complete_done r s, complete_err_iff hsound.ne_error_none s, complete_ovr r s,
    complete_cmd r s, complete_ie r s, by rw [complete_eng]⟩

/-- R60: a command writes its own result registers, STATUS and the phase. -/
theorem exec_frame {i : Instr} {s t : State} (h : exec i s = .next t) : Frame (writesOf i) s t := by
  obtain ⟨r, hr, hsound⟩ := exec_sound i s
  obtain rfl := Host.Outcome.next.inj (h.symm.trans hr)
  exact frame_complete s hsound

/-- Settles O10. -/
theorem commandsWriteOnlyTheirResults : Obligations.CommandsWriteOnlyTheirResults :=
  fun _ _ => ⟨fun _ => exec_frame, exec_frame, fun _ => exec_frame, fun _ => exec_frame, exec_frame, exec_frame, exec_frame,
    exec_frame, exec_frame, exec_frame⟩

theorem runCommand_of_decode {s : State} {i : Instr} (h : decode s.eng.op = .ok i) : runCommand s = exec i s := by
  unfold runCommand
  rw [h]

/-- Settles O6. -/
theorem stepRunsTheDecodedCommand : Obligations.StepRunsTheDecodedCommand := by
  refine fun s i hp hd => ⟨fun hs => ?_, fun rest hs => ?_⟩
  · rw [step_of_empty hs, coreFinish_of_busy hp, runCommand_of_decode hd]
  · rw [step_of_event hs]
    exact (coreFinish_of_busy (s := { s with script := rest }) hp).trans (runCommand_of_decode hd)

theorem coreFinish_of_idle {s : State} (h : s.eng.phase = .idle) : coreFinish s = .next s := if_pos h

theorem Engine.tick_of_idle (w : Window) (m : MsgMem) {e : Engine} (h : e.phase = .idle) : e.tick w m = e := by
  simp only [Engine.tick, h]

/-- Settles O7. -/
theorem idleCoreWaits : Obligations.IdleCoreWaits := by
  refine fun s hp => ⟨fun hs => ?_, fun rest hs => ?_⟩
  · rw [step_of_empty hs, coreFinish_of_idle hp]
  · rcases hs with hs | hs
    · rw [step_of_event hs]
      exact coreFinish_of_idle (s := { s with script := rest }) hp
    · rw [step_of_event hs, runEvent, coreTick, Engine.tick_of_idle _ _ hp]

/-! ## The host writes CMD -/

/-- Settles O40. -/
theorem idleCmdWriteIsAccepted : Obligations.IdleCmdWriteIsAccepted := by
  intro s rest v hs hb
  rw [step_wr hs]
  exact congrArg _ (if_neg (by simp [hb]))

theorem writeCmd_of_busy {s : State} (v : Word) (h : s.win.status.busy = true) :
    writeCmd v s = { s with win := { s.win with status := s.win.status.overrun } } := if_pos h

/-- Settles O41. -/
theorem busyCmdWriteSetsOverrunOnly : Obligations.BusyCmdWriteSetsOverrunOnly := by
  intro s rest v hs hb
  refine ⟨{ s with script := rest, win := { s.win with status := s.win.status.overrun } }, ?_, rfl, ?_, rfl⟩
  · rw [step_wr hs]
    exact congrArg _ (writeCmd_of_busy v hb)
  · exact fun r hr => Window.get_with_status _ _ hr

/-! ## The host writes message memory -/

/-- A passcode's checks pass exactly for a key of at most 64 bytes and 1 to 9 digits (R101, R102). -/
theorem otpChecks_isOk_iff (dig : Nat) (w : Window) :
    (otpChecks dig w).isOk = true ↔ w.keyLen.toNat ≤ 64 ∧ 1 ≤ dig ∧ dig ≤ 9 := by
  rcases otpChecks_cases dig w with ⟨hk, h⟩ | ⟨-, hd, h⟩ | ⟨hk, h1, h9, h⟩ <;> rw [h]
  · simp [Except.isOk, Except.toBool, hk]
  · simpa [Except.isOk, Except.toBool] using fun _ h1 => not_le.mp fun h9 => hd ⟨h1, h9⟩
  · simp [Except.isOk, Except.toBool, hk, h1, h9]

/-- The bytes that the race rule guards are those of R45. -/
theorem commandReads_iff (op : Word) (w : Window) (a : Word) : commandReads op w a = true ↔ ReadsByte op w a := by
  have hkey : (keySegment w).covers a = true ↔ InSegment w.keyAddr w.keyLen.toNat a := covers_iff _ _ _ _
  have hpri : (priSegment w).covers a = true ↔ InSegment w.priAddr w.priLen.toNat a := covers_iff _ _ _ _
  have happ : (appSegment w).covers a = true ↔ InSegment w.appAddr w.appLen.toNat a := covers_iff _ _ _ _
  unfold commandReads ReadsByte
  cases decode op with
  | error e => simp
  | ok i =>
    cases i with
    | sha1 app => simp [hpri, happ]
    | hmac => simp [hkey, hpri]
    | hotp dig | totp dig => simp [hkey, otpChecks_isOk_iff, and_assoc]
    | rtcDecode | rtcEncode | dtToUnix | unixToDt | rtcToUnix | leap => simp

/-- A host memory write that no command in flight reads goes on (R56). -/
theorem hostMem_of_not_readsByte {s : State} {addr : Word} {data : List Byte}
    (h : s.eng.phase = .idle ∨ ∀ i, i < data.length → ¬ReadsByte s.eng.op s.win (addr + BitVec.ofNat 32 i)) :
    hostMem addr data s = .next { s with mm := { s.mm with cells := s.mm.cells.writeBytes addr data } } := by
  refine if_neg fun ⟨hp, hrace⟩ => ?_
  have hfree : anyRead s.eng.op s.win addr data.length = false := (anyRead_eq_false_iff _ _ _ _).mpr fun j hj =>
    Bool.eq_false_iff.mpr fun hr => h.resolve_left hp j hj ((commandReads_iff _ _ _).mp hr)
  rw [hfree] at hrace
  cases hrace

/-- Settles O49: the bytes are stored at their addresses and nowhere else, and the guarded bytes are those of R45. -/
theorem memoryWriteStoresTheBytes : Obligations.MemoryWriteStoresTheBytes := by
  refine ⟨fun s rest addr data hs hfree hlen hwf => ?_, commandReads_iff⟩
  refine ⟨{ s with script := rest, mm := { s.mm with cells := s.mm.cells.writeBytes addr data } }, ?_, ?_, ?_, rfl, rfl⟩
  · rw [step_of_event hs]
    exact hostMem_of_not_readsByte (s := { s with script := rest }) hfree
  · exact fun i hi => Memory.read_writeBytes_self addr data i hi hlen hwf
  · exact fun a ha => Memory.read_writeBytes_other addr data a ha

/-! ## Internal steps -/

/-- Settles O52. -/
theorem internalStepIsInvisible : Obligations.InternalStepIsInvisible := by
  intro s rest hs
  refine ⟨{ s with script := rest, eng := s.eng.tick s.win s.mm }, ?_, rfl, Engine.tick_op _ _ _⟩
  rw [step_of_event hs]
  rfl

theorem reach_single {w : Window} {m : MsgMem} {f : Engine} (h : f.pass = .single) : Reaches w m f.passDone := by
  unfold Engine.passDone
  rw [h]
  exact .of_commit rfl

/-- Settles O54: CHECK leads to COMMIT or to a phase that gets there. -/
theorem pipelineReachesCommit : Obligations.PipelineReachesCommit := by
  intro w m e hp
  have hcheck : e.ticks w m 1 = tickCheck w e := by simp only [Engine.ticks, Engine.tick, hp]
  refine Reaches.of_ticks 1 ?_
  rw [hcheck]
  rcases tickCheck_cases w e with ⟨code, ht⟩ | ⟨app, ht⟩ | ⟨-, ht⟩ | ⟨-, c, ht⟩ | ht <;> rw [ht]
  · exact .of_commit rfl
  · exact .start _ _ _ fun _ hf => reach_single hf
  · exact reach_keyload rfl
  · exact reach_keyload rfl
  · exact reach_cal rfl

/-! ## What a command's result depends on -/

/-- Settles O56. -/
theorem resultDependsOnOperandsAndReadBytesOnly : Obligations.ResultDependsOnOperandsAndReadBytesOnly :=
  fun op w w' m m' hw hm =>
    calc commandResult op w' m' = commandResult op w m' := result_congr_window (sameRead_of_operands hw) m' op
      _ = commandResult op w m := result_congr_mem hm

/-! ## A host that waits -/

/-- A poll that finds the core busy lets it complete before the next one (log entry 13). -/
theorem step_wait_of_busy {s : State} {rest : List Event} (hs : s.script = .wait :: rest) (hb : s.win.status.busy = true) :
    step s = .next { s with script := .finish :: .wait :: rest, observed := s.observed ++ [s.win.get .status] } := by
  rw [step_of_event hs]
  exact if_pos hb

/-- A poll that finds the core idle ends the wait (R70). -/
theorem step_wait_of_idle {s : State} {rest : List Event} (hs : s.script = .wait :: rest) (hb : s.win.status.busy = false) :
    step s = .next { s with script := rest, observed := s.observed ++ [s.win.get .status] } := by
  rw [step_of_event hs]
  exact if_neg (by simp [hb])

/-- The completion between two polls of a wait, and the poll that ends it. -/
theorem finish_then_wait {u : State} {rest : List Event} (hs : u.script = .finish :: .wait :: rest) (hp : u.eng.phase ≠ .idle) :
    ∃ v t, step u = .next v ∧ step v = .next t ∧ t.script = rest ∧ t.win.status.busy = false ∧ t.win.status.done = true ∧
      t.observed = u.observed ++ [t.win.get .status] :=
  ⟨_, _, step_finish hp hs, step_wait_of_idle (complete_script _ _) (complete_busy _ _), rfl, complete_busy _ _,
    complete_done _ _, by simp⟩

/-- Settles O57. -/
theorem waitEndsAfterCompletion : Obligations.WaitEndsAfterCompletion := by
  intro s rest hs hb hp
  obtain ⟨v, t, hfinish, hpoll, hscript, hbusy, hdone, hobs⟩ :=
    finish_then_wait (u := { s with script := .finish :: .wait :: rest, observed := s.observed ++ [s.win.get .status] }) rfl hp
  refine ⟨_, v, t, step_wait_of_busy hs hb, hfinish, hpoll, hscript, hbusy, hdone, ?_⟩
  rw [hobs, List.append_assoc]
  rfl

end Sys2Proof.Machine
end

section
/-! PROOFS. The family of the codec (40_codec.md): big-endian packing byte by byte and its inverse, and the Digest so packed. -/

namespace Sys2Proof.Machine

/-- R72 undoes R71 up to what does not fit in `n` bytes. -/
theorem beNat_beBytes (n v : Nat) : beNat (beBytes n v) = v % 256 ^ n := by
  induction n with
  | zero => simp [beBytes, beNat, Nat.mod_one]
  | succ n ih =>
    rw [beBytes_succ, beNat_cons, ih, beBytes_length, BitVec.toNat_ofNat, Nat.shiftRight_eq_div_pow, two_pow_eight_mul,
      Nat.mod_pow_succ (x := v)]
    ring

/-- R71 undoes R72: the first byte is the quotient by the weight of the rest, and packing the rest drops it. -/
theorem beBytes_beNat (s : List Byte) : beBytes s.length (beNat s) = s := by
  induction s with
  | nil => rfl
  | cons b s ih =>
    have hlt := beNat_lt s
    have hhead : (b.toNat * 256 ^ s.length + beNat s) / 256 ^ s.length = b.toNat := by
      rw [Nat.mul_comm, Nat.mul_add_div (Nat.zero_lt_of_lt hlt), Nat.div_eq_of_lt hlt, Nat.add_zero]
    have hrest : (b.toNat * 256 ^ s.length + beNat s) % 256 ^ s.length = beNat s := Nat.mul_add_mod_of_lt hlt
    rw [List.length_cons, beBytes_succ, beNat_cons, Nat.shiftRight_eq_div_pow, two_pow_eight_mul, hhead, BitVec.ofNat_toNat,
      BitVec.setWidth_eq, ← beBytes_mod, hrest, ih]

/-- R71: byte `k` of a packing. -/
theorem beBytes_getD_toNat {n k : Nat} (v : Nat) (hk : k < n) :
    ((beBytes n v).getD k 0#8).toNat = v / 2 ^ (8 * n - 8 * (k + 1)) % 256 := by
  rw [List.getD_eq_getElem _ _ (by simpa using hk)]
  simp only [beBytes, List.getElem_map, List.getElem_range, BitVec.toNat_ofNat, Nat.shiftRight_eq_div_pow, Nat.mul_sub]

/-- Byte `j` of word `i` stands at `4 i + j` in the bytes of a list of words. -/
theorem flatMap_be32bytes_getD (ws : List Word) {i j : Nat} (hi : i < ws.length) (hj : j < 4) :
    (ws.flatMap be32bytes).getD (4 * i + j) 0#8 = (be32bytes (ws.getD i 0#32)).getD j 0#8 := by
  induction ws generalizing i with
  | nil => cases hi
  | cons w ws ih =>
    rw [List.flatMap_cons]
    cases i with
    | zero => rw [List.getD_append _ _ _ _ (by simpa using hj), Nat.mul_zero, Nat.zero_add, List.getD_cons_zero]
    | succ i =>
      rw [List.getD_append_right _ _ _ _ (by simp; omega), List.getD_cons_succ, ← ih (Nat.lt_of_succ_lt_succ hi),
        be32bytes_length]
      congr 1
      omega

/-- R90: the Digest is the five words of the HashState, packed in order. -/
theorem digestBytes_eq_flatMap (h : HashState) : digestBytes h = [h.h0, h.h1, h.h2, h.h3, h.h4].flatMap be32bytes := by
  simp [digestBytes]

/-- R90: byte `4 i + j` of the Digest is byte `j` of word `i`. -/
theorem digestBytes_getD_toNat (h : HashState) {i j : Nat} (hi : i < 5) (hj : j < 4) :
    ((digestBytes h).getD (4 * i + j) 0#8).toNat =
      ([h.h0, h.h1, h.h2, h.h3, h.h4].getD i 0#32).toNat / 2 ^ (24 - 8 * j) % 256 := by
  rw [digestBytes_eq_flatMap, flatMap_be32bytes_getD _ hi hj, be32bytes, beBytes_getD_toNat _ hj,
    show 8 * 4 - 8 * (j + 1) = 24 - 8 * j by omega]

/-- Settles O14. -/
theorem bigEndianPackingRoundTrip : Obligations.BigEndianPackingRoundTrip :=
  ⟨fun n v hv => by rw [beNat_beBytes, Nat.mod_eq_of_lt (two_pow_eight_mul n ▸ hv)], beBytes_beNat, beBytes_length,
    fun _ v _ hk _ => beBytes_getD_toNat v hk, fun _ => rfl,
    fun h => ⟨digestBytes_length h, fun _ _ => digestBytes_getD_toNat h⟩⟩

end Sys2Proof.Machine
end

section
/-! PROOFS. The family of SHA-1 (41_sha1.md): the padding and the block count, the schedule word by word, the rounds of a block, and
the digest that the SHA1 command writes. -/

namespace Sys2Proof.Machine

/-! ## Padding -/

/-- R77: a pad of the right residue is no shorter, because `padLen` is below 64. -/
theorem padLen_le_of_mod {len p : Nat} (hp : (len + p + 1) % 64 = 56) : padLen len ≤ p := by
  obtain ⟨hmod, hle⟩ := padLen_spec len
  omega

/-- Settles O12: the residue and the bound of `padLen` determine it. -/
theorem padIsMinimal : Obligations.PadIsMinimal := by
  intro len
  obtain ⟨hmod, hle⟩ := padLen_spec len
  refine ⟨hmod, hle, fun p => padLen_le_of_mod, fun hlow => ?_, fun hhigh => ?_⟩ <;> omega

/-- R78: the padded length is a multiple of 64. -/
theorem paddedLength_mod (len : Nat) : (len + padLen len + 1 + 8) % 64 = 0 := by
  have hmod := (padLen_spec len).1
  omega

/-- R78: the blocks make up the padded length. -/
theorem blockCount_mul (len : Nat) : blockCount len * 64 = len + padLen len + 1 + 8 :=
  Nat.div_mul_cancel (Nat.dvd_of_mod_eq_zero (paddedLength_mod len))

/-- Settles O13: the blocks make up the padded length, and a pad below 64 leaves one count in each range of residues. -/
theorem blockCountOfLength : Obligations.BlockCountOfLength := by
  intro len
  have hmul := blockCount_mul len
  obtain ⟨hmod, hle⟩ := padLen_spec len
  refine ⟨paddedLength_mod len, hmul, fun hlow => ?_, fun hhigh => ?_⟩ <;> omega

/-! ## The schedule word by word -/

/-- R9: `rotl32` is the rotation of the library. -/
theorem rotl32_eq_rotateLeft (x : Word) {n : Nat} (hn : n < 32) : rotl32 x n = x.rotateLeft n := by
  rw [rotl32, BitVec.rotateLeft_def, Nat.mod_eq_of_lt hn]

theorem extendSchedule_add (a b : Nat) (ws : List Word) :
    extendSchedule (a + b) ws = extendSchedule a (extendSchedule b ws) := by
  induction a with
  | zero => rw [Nat.zero_add, extendSchedule]
  | succ a ih => rw [Nat.add_right_comm, extendSchedule_succ, extendSchedule_succ, ih]

/-- Word `t` of the schedule stands, newest first, in every stage of its making that has reached it. -/
theorem schedule_getD {blk : List Byte} (h : blk.length = 64) {k t : Nat} (hk : k ≤ 64) (ht : t < 16 + k) :
    (schedule blk).getD t 0#32 = (extendSchedule k (blockWords blk).reverse).getD (15 + k - t) 0#32 := by
  have hlen : (extendSchedule 64 (blockWords blk).reverse).length = 80 := by
    simp [extendSchedule_length, blockWords_length 16 blk h]
  have hstage : (extendSchedule 64 (blockWords blk).reverse).drop (64 - k) = extendSchedule k (blockWords blk).reverse := by
    have hsplit := extendSchedule_add (64 - k) k (blockWords blk).reverse
    rw [Nat.sub_add_cancel hk] at hsplit
    rw [hsplit, extendSchedule_drop]
  rw [schedule, List.getD_reverse _ (by omega), hlen, ← hstage, List.getD_eq_getElem?_getD, List.getD_eq_getElem?_getD,
    List.getElem?_drop]
  congr 2
  omega

/-- R82: words 0 to 15 of the schedule are the block's. -/
theorem schedule_getD_of_lt {blk : List Byte} (h : blk.length = 64) {t : Nat} (ht : t < 16) :
    (schedule blk).getD t 0#32 = BitVec.ofNat 32 (beNat ((blk.drop (4 * t)).take 4)) := by
  have hlen := blockWords_length 16 blk h
  rw [schedule_getD h (Nat.zero_le 64) ht, extendSchedule, List.getD_reverse _ (by omega), hlen,
    show 16 - 1 - (15 + 0 - t) = t by omega, blockWords_getD 16 blk h t ht]

/-- R83: from word 16 on, word `t` is made from the four earlier words of the rule, all of them in the stage before it. -/
theorem schedule_recurrence {blk : List Byte} (h : blk.length = 64) {t : Nat} (h16 : 16 ≤ t) (h80 : t < 80) :
    (schedule blk).getD t 0#32 =
      ((schedule blk).getD (t - 3) 0#32 ^^^ (schedule blk).getD (t - 8) 0#32 ^^^
        (schedule blk).getD (t - 14) 0#32 ^^^ (schedule blk).getD (t - 16) 0#32).rotateLeft 1 := by
  obtain ⟨k, rfl⟩ : ∃ k, t = k + 16 := ⟨t - 16, by omega⟩
  have earlier : ∀ d, 1 ≤ d → d ≤ 16 → (schedule blk).getD (k + 16 - d) 0#32 =
      (extendSchedule k (blockWords blk).reverse).getD (d - 1) 0#32 := fun d h1 hd => by
    rw [schedule_getD h (k := k) (by omega) (by omega), show 15 + k - (k + 16 - d) = d - 1 by omega]
  rw [earlier 3 (by omega) (by omega), earlier 8 (by omega) (by omega), earlier 14 (by omega) (by omega),
    earlier 16 (by omega) (by omega), schedule_getD h (k := k + 1) (by omega) (by omega), extendSchedule_succ,
    show 15 + (k + 1) - (k + 16) = 0 by omega, List.getD_cons_zero, rotl32_one]

/-- Settles O15. -/
theorem scheduleFollowsTheRecurrence : Obligations.ScheduleFollowsTheRecurrence :=
  fun _ h => ⟨schedule_length h, fun _ => schedule_getD_of_lt h, fun _ => schedule_recurrence h⟩

/-! ## The rounds of a block -/

/-- The working variables of a block after its first `t` rounds (R86, R87). -/
def workingAfter (h : HashState) (blk : List Byte) (t : Nat) : Working :=
  sha1Rounds 0 ((schedule blk).take t) (loadWorking h)

/-- R91: round `t` takes word `t` of the schedule. -/
theorem workingAfter_succ (h : HashState) {blk : List Byte} {t : Nat} (ht : t < (schedule blk).length) :
    workingAfter h blk (t + 1) = sha1Round t ((schedule blk).getD t 0#32) (workingAfter h blk t) := by
  rw [workingAfter, ← List.take_concat_get' _ _ ht, sha1Rounds_concat, Nat.zero_add, List.length_take_of_le ht.le,
    ← List.getD_eq_getElem _ 0#32 ht, workingAfter]

/-- R88: the eightieth round's working variables are added into the HashState. -/
theorem compress_eq_addWorking (h : HashState) {blk : List Byte} (hb : blk.length = 64) :
    compress h blk = addWorking h (workingAfter h blk 80) := by
  rw [compress, workingAfter, List.take_of_length_le (schedule_length hb).le]

/-- R84: the round function by its ranges; parity has two of them. -/
theorem roundFun_eq (t : Nat) (x y z : Word) :
    roundFun t x y z =
      if t < 20 then (x &&& y) ||| (~~~x &&& z)
      else if 40 ≤ t ∧ t < 60 then (x &&& y) ||| (x &&& z) ||| (y &&& z)
      else x ^^^ y ^^^ z := by
  unfold roundFun choose parity majority
  by_cases h20 : t < 20
  · simp only [if_pos h20]
  by_cases h40 : t < 40
  · rw [if_neg h20, if_neg h20, if_pos h40, if_neg (by omega)]
  · simp only [if_neg h20, if_neg h40, not_lt.mp h40, true_and]

/-- R86: a round with its function, its constant and its rotations written out. -/
theorem sha1Round_eq (t : Nat) (wt : Word) (v : Working) :
    sha1Round t wt v =
      { a := v.a.rotateLeft 5 +
          (if t < 20 then (v.b &&& v.c) ||| (~~~v.b &&& v.d)
            else if 40 ≤ t ∧ t < 60 then (v.b &&& v.c) ||| (v.b &&& v.d) ||| (v.c &&& v.d)
            else v.b ^^^ v.c ^^^ v.d) +
          v.e +
          (if t < 20 then 0x5a827999#32 else if t < 40 then 0x6ed9eba1#32 else if t < 60 then 0x8f1bbcdc#32 else 0xca62c1d6#32) +
          wt
        b := v.a, c := v.b.rotateLeft 30, d := v.c, e := v.d } := by
  rw [sha1Round, roundFun_eq, roundConst, rotl32_eq_rotateLeft _ (by decide), rotl32_eq_rotateLeft _ (by decide)]

/-! ## The command -/

/-- R67, R28: a success with a digest leaves it in the DIGEST registers. -/
theorem digestIs_complete_pendDigest (h : HashState) (s : State) : DigestIs (complete (.ok (pendDigest h)) s).win h :=
  ⟨rfl, rfl, rfl, rfl, rfl⟩

/-- R75: where APP = 1 asks for an admitted appendix, the second segment answers with it; where APP = 0 it is empty. -/
theorem segment_appendixOf (bufs : Buffers) {app : Bool} {s : State} (h : app = true → AppAdmitted s) :
    SegmentReads s.mm bufs (appendixOf app s.win) ∧
      segmentBytes s.mm bufs (appendixOf app s.win) = if app then appBytes s else [] := by
  cases app with
  | false => exact ⟨fun i hi => absurd hi (Nat.not_lt_zero i), rfl⟩
  | true => exact ⟨segmentReads_mm bufs (h rfl), segmentBytes_mm bufs (h rfl)⟩

/-- R75, R93: where its bytes answer, SHA1 returns the SHA-1 of them in one piece. -/
theorem sha1Result_eq {app : Bool} {s : State} (hp : PriAdmitted s) (ha : app = true → AppAdmitted s) :
    sha1Result app s.win s.mm = .ok (pendDigest (sha1Bytes (priBytes s ++ if app then appBytes s else []))) := by
  have hpri : SegmentReads s.mm noBuffers (priSegment s.win) := segmentReads_mm noBuffers hp
  have hpriBytes : segmentBytes s.mm noBuffers (priSegment s.win) = priBytes s := segmentBytes_mm noBuffers hp
  obtain ⟨happ, happBytes⟩ := segment_appendixOf noBuffers ha
  rw [sha1Result, sha1DigestWords_eq hpri happ, hpriBytes, happBytes]

/-- Settles O11: the two segments are hashed as one sequence, and a block's working variables go round by round over its schedule. -/
theorem sha1DigestsPrimaryThenAppendix : Obligations.Sha1DigestsPrimaryThenAppendix := by
  refine ⟨fun app s hp ha => ?_, fun h blk hb => ?_, rfl⟩
  · refine ⟨_, rfl, ?_⟩
    rw [sha1Result_eq hp ha]
    exact ⟨digestIs_complete_pendDigest _ s, rfl, frame_succeed rfl⟩
  · refine ⟨workingAfter h blk, rfl, fun t ht => ?_, compress_eq_addWorking h hb⟩
    rw [workingAfter_succ h (by rw [schedule_length hb]; exact ht), sha1Round_eq]

end Sys2Proof.Machine
end

section
/-! PROOFS. The family of HMAC (42_hmac.md): the digest of a key of at most 64 bytes and a message, and the refusal of a longer key. -/

namespace Sys2Proof.Machine

/-- R22: the key has KEY_LEN bytes. -/
@[simp] theorem keyBytes_length (s : State) : (keyBytes s).length = s.win.keyLen.toNat := by
  rw [keyBytes, bytesAt, List.length_map, List.length_range]

/-- R96 to R99: where its bytes answer and the key passes the check, HMAC returns the HMAC-SHA1 of the two in one piece. Loading
the key changes buffers alone, so the message still answers with the bytes of message memory. -/
theorem hmacResult_eq {s : State} (hlen : s.win.keyLen.toNat ≤ 64) (hk : KeyAdmitted s) (hp : PriAdmitted s) :
    hmacResult s.win s.mm = .ok (pendDigest (hmacBytes (keyBytes s) (priBytes s))) := by
  have hkeyLen : (keyBytes s).length ≤ 64 := (keyBytes_length s).trans_le hlen
  have hcore : hmacCore s.mm noBuffers (keySegment s.win) (priSegment s.win) = .ok (hmacBytes (keyBytes s) (priBytes s)) :=
    hmacCore_eq (segmentReads_mm _ hk) (segmentBytes_mm _ hk) hkeyLen (segmentReads_mm _ hp) (segmentBytes_mm _ hp)
  rw [hmacResult, if_neg (not_lt.mpr hlen), hcore]

/-- R95: a key above 64 bytes is refused before any byte is read. -/
theorem hmacResult_of_longKey {w : Window} (m : MsgMem) (hlen : 64 < w.keyLen.toNat) :
    hmacResult w m = .error .inputSize :=
  if_pos hlen

/-- Settles O16: the completion step commits what the controller computes of the two segments. -/
theorem hmacDigestsKeyAndMessage : Obligations.HmacDigestsKeyAndMessage := by
  intro s hlen hk hp
  refine ⟨_, rfl, ?_⟩
  rw [hmacResult_eq hlen hk hp]
  exact ⟨digestIs_complete_pendDigest _ s, rfl, frame_succeed rfl⟩

/-- Settles O17: the length check comes first. -/
theorem hmacRejectsLongKeys : Obligations.HmacRejectsLongKeys :=
  fun s hlen => failsWith_of_result rfl (hmacResult_of_longKey s.mm hlen)

end Sys2Proof.Machine
end

section
/-! PROOFS. The family of HOTP and TOTP (43_otp.md): the checks and their order, the passcode and its bound, and the HMAC of the
key and the counter that both commands commit. -/

namespace Sys2Proof.Machine

/-! ## The passcode -/

/-- R107: a passcode of at most 9 digits fits the OTP register. -/
theorem passcode_lt_two_pow {dig : Nat} (hs : List Byte) (h : dig ≤ 9) : passcode dig hs < 2 ^ 32 :=
  (passcode_le_of_digits hs h).trans_lt (by decide)

/-- Settles O21. -/
theorem passcodeBelowTenToTheDigits : Obligations.PasscodeBelowTenToTheDigits :=
  fun dig hs => ⟨rfl, passcode_lt dig hs,
    fun h => ⟨Nat.pow_le_pow_right (by decide) h, by decide, passcode_lt_two_pow hs h⟩⟩

/-! ## The checks -/

/-- R101: a key above 64 bytes is refused, whatever the digit count. -/
theorem otpChecks_of_longKey (dig : Nat) {w : Window} (hlen : 64 < w.keyLen.toNat) : otpChecks dig w = .error .inputSize :=
  if_pos hlen

/-- R102: once the key has passed, a digit count that is not 1 to 9 is refused. -/
theorem otpChecks_of_digits {dig : Nat} {w : Window} (hlen : w.keyLen.toNat ≤ 64) (hdig : ¬(1 ≤ dig ∧ dig ≤ 9)) :
    otpChecks dig w = .error .processing := by
  rw [otpChecks, if_neg (not_lt.mpr hlen), if_neg hdig]

/-- R101, R102: what passes both checks. -/
theorem otpChecks_of_valid {dig : Nat} {w : Window} (hlen : w.keyLen.toNat ≤ 64) (h1 : 1 ≤ dig) (h9 : dig ≤ 9) :
    otpChecks dig w = .ok () := by
  rw [otpChecks, if_neg (not_lt.mpr hlen), if_pos ⟨h1, h9⟩]

/-- R103: the checks come before every read, so what they refuse is refused for every counter and every memory. -/
theorem otpResult_of_refused {dig : Nat} {w : Window} {code : ErrCode} (counter : Nat) (m : MsgMem)
    (h : otpChecks dig w = .error code) : otpResult dig counter w m = .error code := by
  rw [otpResult, h]

/-- R103: HOTP and TOTP make the same checks and fail with what these refuse. -/
theorem otp_failsWith_of_refused {dig : Nat} {s : State} {code : ErrCode} (h : otpChecks dig s.win = .error code) :
    FailsWith (.hotp dig) s code ∧ FailsWith (.totp dig) s code :=
  ⟨failsWith_of_result rfl (otpResult_of_refused (counterOf s.win) s.mm h),
    failsWith_of_result rfl (otpResult_of_refused (totpCounter s.win) s.mm h)⟩

/-- Settles O22: the key limit is checked first and the digit count second. -/
theorem otpChecksKeyThenDigits : Obligations.OtpChecksKeyThenDigits := by
  refine fun dig s => ⟨fun hlen => ?_, fun hlen hdig => ?_⟩
  · exact otp_failsWith_of_refused (otpChecks_of_longKey dig hlen)
  · exact otp_failsWith_of_refused (otpChecks_of_digits hlen (by omega))

/-! ## The commands -/

/-- R104, R108: where the key passes the checks and answers, the HMAC is that of the key and the counter's 8 bytes. The counter lies
in CNTBUF, which loading the key leaves. -/
theorem otpResult_eq {dig : Nat} (counter : Nat) {s : State} (hlen : s.win.keyLen.toNat ≤ 64) (h1 : 1 ≤ dig) (h9 : dig ≤ 9)
    (hk : KeyAdmitted s) :
    otpResult dig counter s.win s.mm = .ok (pendOtp dig (hmacBytes (keyBytes s) (be64bytes counter))) := by
  have hkeyLen : (keyBytes s).length ≤ 64 := (keyBytes_length s).trans_le hlen
  obtain ⟨hcnt, hcntBytes⟩ := segmentBytes_counter s.mm (bufs := withPads (withCounter noBuffers counter) (keyBytes s))
    (be64bytes_length counter)
  have hcore : hmacCore s.mm (withCounter noBuffers counter) (keySegment s.win) counterSegment =
      .ok (hmacBytes (keyBytes s) (be64bytes counter)) :=
    hmacCore_eq (segmentReads_mm _ hk) (segmentBytes_mm _ hk) hkeyLen hcnt hcntBytes
  rw [otpResult, otpChecks_of_valid hlen h1 h9]
  simp only [hcore]

/-- R28: a success with a digest and a passcode leaves the digest in the DIGEST registers. -/
theorem digestIs_complete_pendOtp (dig : Nat) (h : HashState) (s : State) :
    DigestIs (complete (.ok (pendOtp dig h)) s).win h :=
  ⟨rfl, rfl, rfl, rfl, rfl⟩

/-- R107, R29: of at most 9 digits, the passcode is in OTP unreduced. -/
theorem otp_complete_pendOtp {dig : Nat} (h : HashState) (s : State) (h9 : dig ≤ 9) :
    ((complete (.ok (pendOtp dig h)) s).win.get .otp).toNat = passcode dig (digestBytes h) :=
  Nat.mod_eq_of_lt (passcode_lt_two_pow _ h9)

/-- R108, R110: a command that completes with the passcode function of a counter, as HOTP and TOTP do, commits the HMAC of the key
and the counter and the passcode cut from it. -/
theorem otp_commits {i : Instr} {dig counter : Nat} {s : State}
    (hexec : exec i s = .next (complete (otpResult dig counter s.win s.mm) s)) (hlen : s.win.keyLen.toNat ≤ 64) (h1 : 1 ≤ dig)
    (h9 : dig ≤ 9) (hk : KeyAdmitted s) :
    ∃ t, exec i s = .next t ∧ DigestIs t.win (hmacBytes (keyBytes s) (be64bytes counter)) ∧
      (t.win.get .otp).toNat = otpOf dig counter (keyBytes s) ∧ StatusSucceeded s t ∧ Frame (digestRegs ++ [.otp]) s t := by
  rw [otpResult_eq counter hlen h1 h9 hk] at hexec
  refine ⟨_, hexec, digestIs_complete_pendOtp dig _ s, ?_, rfl, frame_succeed rfl⟩
  rw [otp_complete_pendOtp _ s h9, passcode_eq_otpOf]

/-- Settles O19: HOTP's counter is the one in CNT_HI and CNT_LO. -/
theorem hotpWritesPasscodeOfCounter : Obligations.HotpWritesPasscodeOfCounter :=
  fun _ _ hlen h1 h9 hk => otp_commits rfl hlen h1 h9 hk

/-- Settles O20: TOTP's counter is the timestamp in TS_HI and TS_LO by 30. -/
theorem totpWritesPasscodeOfTimeStep : Obligations.TotpWritesPasscodeOfTimeStep :=
  fun _ _ hlen h1 h9 hk => otp_commits rfl hlen h1 h9 hk

end Sys2Proof.Machine
end

section
/-! PROOFS. The calendar (44_calendar.md), bytes and dates: BCD, the hours byte, clock image and write image, the leap-year rule and
the two conversions. Each primitive is said once in arithmetic on its number. -/

namespace Sys2Proof.Machine

/-! ## Bits of a byte -/

theorem Byte.getLsbD_eq (h : Byte) (k : Nat) : h.getLsbD k = decide (h.toNat / 2 ^ k % 2 = 1) :=
  Nat.testBit_eq_decide_div_mod_eq

theorem Byte.extractLsb'_toNat (h : Byte) (k n : Nat) : (h.extractLsb' k n).toNat = h.toNat / 2 ^ k % 2 ^ n := by
  rw [BitVec.extractLsb'_toNat, Nat.shiftRight_eq_div_pow]

/-- Setting the clear bit 7 of a byte adds 128. -/
theorem Byte.toNat_or_bit7 {x : Byte} (hx : x.toNat < 2 ^ 7) : (x ||| 0x80#8).toNat = x.toNat + 128 := by
  rw [BitVec.toNat_or, Nat.or_comm, Nat.add_comm]
  exact (Nat.two_pow_add_eq_or_of_lt hx 1).symm

/-! ## BCD -/

/-- Settles O25. -/
theorem bcdRoundTrip : Obligations.BcdRoundTrip := by
  intro n hn
  have htoBcd := toBcd_toNat hn
  refine ⟨htoBcd, ?_⟩
  rw [bcd_eq, htoBcd]
  omega

theorem bcd_toBcd {n : Nat} (h : n ≤ 99) : bcd (toBcd n) = n := (bcdRoundTrip n h).2

/-- The units digit of a BCD byte. -/
theorem lowNibble_toBcd_le {n : Nat} (h : n ≤ 99) : lowNibble (toBcd n) ≤ 9 := by
  rw [lowNibble_eq, toBcd_toNat h]
  omega

/-! ## The hours byte -/

/-- R118 in 24-hour mode: bit 6 is 0 and the tens digit is bits 5:4. -/
theorem hours_of_mode24 {h : Byte} (hm : h.toNat / 64 % 2 = 0) :
    hourOf h = h.toNat / 16 % 4 * 10 + h.toNat % 16 ∧
    (hourOk h = true ↔ h.toNat % 16 ≤ 9 ∧ h.toNat / 16 % 4 * 10 + h.toNat % 16 ≤ 23) := by
  have hbit : h.getLsbD 6 = false := by
    rw [Byte.getLsbD_eq]
    exact decide_eq_false (by omega)
  simp only [hourOf, hourOk, hourDigits, hbit, Bool.false_eq_true, if_false, lowNibble_eq, Byte.extractLsb'_toNat, Bool.and_eq_true,
    decide_eq_true_eq]
  exact ⟨rfl, .rfl⟩

/-- R118 in 12-hour mode: bit 6 is 1, the tens digit is bit 4 and bit 5 is PM. -/
theorem hours_of_mode12 {h : Byte} (hm : h.toNat / 64 % 2 = 1) :
    hourOf h = (h.toNat / 16 % 2 * 10 + h.toNat % 16) % 12 + 12 * (h.toNat / 32 % 2) ∧
    (hourOk h = true ↔
      h.toNat % 16 ≤ 9 ∧ 1 ≤ h.toNat / 16 % 2 * 10 + h.toNat % 16 ∧ h.toNat / 16 % 2 * 10 + h.toNat % 16 ≤ 12) := by
  have hbit : h.getLsbD 6 = true := by
    rw [Byte.getLsbD_eq]
    exact decide_eq_true hm
  simp only [hourOf, hourOk, hourDigits, hbit, if_true, lowNibble_eq, Byte.extractLsb'_toNat, Bool.and_eq_true, decide_eq_true_eq,
    and_assoc]
  exact ⟨rfl, .rfl⟩

/-- R118: the hours of an accepted byte, in either mode. -/
theorem hourOf_le_of_hourOk {h : Byte} (hok : hourOk h = true) : hourOf h ≤ 23 := by
  rcases Nat.mod_two_eq_zero_or_one (h.toNat / 64) with hm | hm
  · obtain ⟨hof, hiff⟩ := hours_of_mode24 hm
    have := hiff.mp hok
    omega
  · obtain ⟨hof, hiff⟩ := hours_of_mode12 hm
    have := hiff.mp hok
    omega

/-- R121: an hour in BCD is a 24-hour byte that stands for it. -/
theorem hours_toBcd {n : Nat} (h : n ≤ 23) : hourOk (toBcd n) = true ∧ hourOf (toBcd n) = n := by
  have hnum := toBcd_toNat (show n ≤ 99 by omega)
  obtain ⟨hof, hiff⟩ := hours_of_mode24 (h := toBcd n) (by omega)
  exact ⟨hiff.mpr (by omega), by omega⟩

/-- R118: 1 to 12 in BCD with bit 6 set is a 12-hour byte, bit 5 set as well for PM; a table of twelve hours. -/
theorem hours_toBcd_mode12 {n : Nat} (h1 : 1 ≤ n) (h12 : n ≤ 12) :
    hourOk (toBcd n ||| 0x40#8) = true ∧ hourOf (toBcd n ||| 0x40#8) = n % 12 ∧
    hourOk (toBcd n ||| 0x60#8) = true ∧ hourOf (toBcd n ||| 0x60#8) = n % 12 + 12 := by
  interval_cases n <;> decide

/-- R118: bit 7 of the hours byte is not read: every part that is read lies in bits 6:0. -/
theorem hours_or_bit7 (h : Byte) : hourOk (h ||| 0x80#8) = hourOk h ∧ hourOf (h ||| 0x80#8) = hourOf h := by
  have hlow : (h ||| 0x80#8).toNat % 128 = h.toNat % 128 := by
    rw [BitVec.toNat_or, show (128 : Nat) = 2 ^ 7 from rfl, Nat.or_mod_two_pow]
    simp
  have hunits : (h ||| 0x80#8).toNat % 16 = h.toNat % 16 := by omega
  have htens24 : (h ||| 0x80#8).toNat / 2 ^ 4 % 2 ^ 2 = h.toNat / 2 ^ 4 % 2 ^ 2 := by omega
  have htens12 : (h ||| 0x80#8).toNat / 2 ^ 4 % 2 ^ 1 = h.toNat / 2 ^ 4 % 2 ^ 1 := by omega
  have hhalf : (h ||| 0x80#8).toNat / 2 ^ 5 % 2 ^ 1 = h.toNat / 2 ^ 5 % 2 ^ 1 := by omega
  have hmode : (h ||| 0x80#8).toNat / 2 ^ 6 % 2 = h.toNat / 2 ^ 6 % 2 := by omega
  simp only [hourOk, hourOf, hourDigits, lowNibble_eq, Byte.getLsbD_eq, Byte.extractLsb'_toNat, hunits, htens24, htens12, hhalf,
    hmode, and_self]

/-- Settles O24. -/
theorem hoursByteOfBothModes : Obligations.HoursByteOfBothModes :=
  ⟨fun _ => hours_of_mode24, fun _ => hours_of_mode12, by decide, by decide, by decide, by decide, fun _ => hourOf_le_of_hourOk,
    fun _ => hours_toBcd, fun _ => hours_toBcd_mode12, hours_or_bit7⟩

/-! ## The clock image and the write image -/

/-- R26: the bytes of the image, in arithmetic on the two registers. -/
theorem clockImageOf_toNat (w : Window) :
    (clockImageOf w).b0.toNat = w.rtcimg0.toNat % 256 ∧ (clockImageOf w).b1.toNat = w.rtcimg0.toNat / 2 ^ 8 % 256 ∧
    (clockImageOf w).b2.toNat = w.rtcimg0.toNat / 2 ^ 16 % 256 ∧ (clockImageOf w).b3.toNat = w.rtcimg0.toNat / 2 ^ 24 ∧
    (clockImageOf w).b4.toNat = w.rtcimg1.toNat % 256 ∧ (clockImageOf w).b5.toNat = w.rtcimg1.toNat / 2 ^ 8 % 256 ∧
    (clockImageOf w).b6.toNat = w.rtcimg1.toNat / 2 ^ 16 % 256 := by
  have := w.rtcimg0.isLt
  simp only [clockImageOf, lane_toNat, true_and, and_true]
  exact ⟨by omega, by omega, by omega⟩

/-- R117: the Datetime of an image, in arithmetic on its bytes. -/
theorem decodeImage_eq (g : ClockImage) :
    decodeImage g =
      { sec := g.b0.toNat / 16 * 10 + g.b0.toNat % 16
        min := g.b1.toNat / 16 * 10 + g.b1.toNat % 16
        hour := hourOf g.b2
        day := g.b4.toNat / 16 * 10 + g.b4.toNat % 16
        mon := g.b5.toNat / 16 % 2 * 10 + g.b5.toNat % 16
        year := 1900 + 100 * (g.b5.toNat / 128) + (g.b6.toNat / 16 * 10 + g.b6.toNat % 16) } := by
  have hb5 := g.b5.isLt
  have hcentury : g.b5.toNat / 2 ^ 7 % 2 ^ 1 = g.b5.toNat / 128 := by omega
  rw [decodeImage]
  simp only [bcd_eq, lowNibble_eq, Byte.extractLsb'_toNat, hcentury]
  rfl

/-- R119: the well-formedness of an image, in arithmetic on its bytes. -/
theorem ClockImage.wf_iff (g : ClockImage) :
    g.wf = true ↔
      g.b0.toNat % 16 ≤ 9 ∧ g.b1.toNat % 16 ≤ 9 ∧ g.b4.toNat % 16 ≤ 9 ∧ g.b6.toNat % 16 ≤ 9 ∧ g.b6.toNat / 16 ≤ 9 ∧
      g.b5.toNat % 16 ≤ 9 ∧ hourOk g.b2 = true ∧ (decodeImage g).wf = true := by
  simp only [ClockImage.wf, lowNibble_eq, BitVec.toNat_ushiftRight, Nat.shiftRight_eq_div_pow, Bool.and_eq_true, decide_eq_true_eq,
    and_assoc]

/-- R121: the months byte of the write image, in arithmetic. -/
theorem toNat_toBcd_or_centuryBit {mon : Nat} (h : mon ≤ 12) (year : Nat) :
    (toBcd mon ||| centuryBit year).toNat = mon / 10 * 16 + mon % 10 + if 2000 ≤ year then 128 else 0 := by
  have hnum := toBcd_toNat (show mon ≤ 99 by omega)
  rw [centuryBit, ← hnum]
  split
  · exact Byte.toNat_or_bit7 (by omega)
  · rw [BitVec.or_zero, Nat.add_zero]

/-- Datetimes with the same fields are the same. -/
theorem Datetime.ext_fields {d e : Datetime} (hsec : d.sec = e.sec) (hmin : d.min = e.min) (hhour : d.hour = e.hour)
    (hday : d.day = e.day) (hmon : d.mon = e.mon) (hyear : d.year = e.year) : d = e := by
  cases d
  cases e
  exact (Datetime.mk.injEq ..).mpr ⟨hsec, hmin, hhour, hday, hmon, hyear⟩

/-- Settles O34: each field comes back from its BCD byte, the month and the century from their parts of one byte. -/
theorem decodeOfEncodedImage : Obligations.DecodeOfEncodedImage := by
  intro d hd out g
  obtain ⟨hsec, hmin, hhour, -, hmon, -, hday, hyear0, hyear1⟩ := (Datetime.wf_iff d).mp hd
  have hday31 := hday.trans (daysInMonth_le d.mon d.year)
  have hb0 : g.b0.toNat = d.sec / 10 * 16 + d.sec % 10 := toBcd_toNat (by omega)
  have hb1 : g.b1.toNat = d.min / 10 * 16 + d.min % 10 := toBcd_toNat (by omega)
  have hb4 : g.b4.toNat = d.day / 10 * 16 + d.day % 10 := toBcd_toNat (by omega)
  obtain ⟨c, hb5, hc⟩ : ∃ c, g.b5.toNat = d.mon / 10 * 16 + d.mon % 10 + 128 * c ∧ d.year / 100 = 19 + c := by
    rcases Nat.lt_or_ge d.year 2000 with hlt | hge
    · exact ⟨0, (toNat_toBcd_or_centuryBit hmon d.year).trans (by rw [if_neg (not_le.mpr hlt)]), by omega⟩
    · exact ⟨1, (toNat_toBcd_or_centuryBit hmon d.year).trans (by rw [if_pos hge]), by omega⟩
  have hb6 : g.b6.toNat = d.year % 100 / 10 * 16 + d.year % 100 % 10 := toBcd_toNat (by omega)
  obtain ⟨hhourOk, hhourOf⟩ := hours_toBcd hhour
  have hdecode : decodeImage g = d := by
    rw [decodeImage_eq, hb0, hb1, hb4, hb5, hb6]
    apply Datetime.ext_fields
    case hhour => exact hhourOf
    all_goals
      dsimp only
      omega
  refine ⟨(ClockImage.wf_iff g).mpr ⟨?_, ?_, ?_, ?_, ?_, ?_, hhourOk, hdecode ▸ hd⟩, hdecode⟩
  all_goals omega

/-! ## Dates -/

/-- R113, in arithmetic. -/
theorem isLeap_iff (y : Nat) : isLeap y = true ↔ (y % 4 = 0 ∧ y % 100 ≠ 0) ∨ y % 400 = 0 := by
  simp [isLeap]

/-- R115, February: the leap-year rule gives the day 29. -/
theorem daysInMonth_february (y : Nat) :
    daysInMonth 2 y = if (y % 4 = 0 ∧ y % 100 ≠ 0) ∨ y % 400 = 0 then 29 else 28 := by
  simp only [daysInMonth, if_true, isLeap_iff]

/-- R25: the Datetime in DT0 and DT1, in arithmetic. -/
theorem datetimeOf_eq (w : Window) :
    datetimeOf w =
      { sec := w.dt0.toNat % 256, min := w.dt0.toNat / 2 ^ 8 % 256, hour := w.dt0.toNat / 2 ^ 16 % 256,
        day := w.dt0.toNat / 2 ^ 24, mon := w.dt1.toNat % 256, year := w.dt1.toNat / 2 ^ 16 } := by
  have hdt0 := w.dt0.isLt
  rw [datetimeOf, Datetime.mk.injEq]
  simp only [lane_toNat, true_and]
  exact ⟨by omega, by omega, by omega, datetimeOf_year w⟩

/-! ## Timestamps -/

/-- R123: the days up to a date of a year lie in that year. -/
theorem dayOfYear_lt {m d y : Nat} (h1 : 1 ≤ m) (h12 : m ≤ 12) (hd : d < daysInMonth m y) :
    daysBeforeMonth m y + d < daysInYear y := by
  have hmono := daysBeforeMonth_mono (y := y) h1 (show m < 13 by omega)
  rw [daysBeforeMonth_thirteen] at hmono
  omega

/-- R123: a well-formed Datetime is at most TS_MAX: its day comes before the first of 2100. -/
theorem toUnix_le_tsMax {d : Datetime} (hd : d.wf = true) (h1970 : 1970 ≤ d.year) : toUnix d ≤ 4102444799 := by
  obtain ⟨hsec, hmin, hhour, hmon1, hmon12, hday1, hday, -, hyear⟩ := (Datetime.wf_iff d).mp hd
  have hin := dayOfYear_lt hmon1 hmon12 (show d.day - 1 < daysInMonth d.mon d.year by omega)
  have hend := daysBeforeYear_mono h1970 (show d.year < 2100 by omega)
  rw [daysBeforeYear_2100] at hend
  rw [toUnix]
  omega

/-- R129 (a): from_unix undoes to_unix, since a date is told by its day number and the time of day by the seconds left. -/
theorem fromUnix_toUnix {d : Datetime} (hd : d.wf = true) (h1970 : 1970 ≤ d.year) : fromUnix (toUnix d) = d := by
  obtain ⟨hsec, hmin, hhour, hmon1, hmon12, hday1, hday, -, -⟩ := (Datetime.wf_iff d).mp hd
  obtain ⟨hyear', hmon1', hmon12', hday1', hday', hdays, htime, hhour', hmin', hsec'⟩ := fromUnix_spec (toUnix d)
  have hdayNumber : toUnix d / 86400 = daysBeforeYear d.year + daysBeforeMonth d.mon d.year + (d.day - 1) := by
    rw [toUnix]
    omega
  have hsecondOfDay : toUnix d % 86400 = d.hour * 3600 + d.min * 60 + d.sec := by
    rw [toUnix]
    omega
  rw [hdayNumber] at hdays
  rw [hsecondOfDay] at htime
  obtain ⟨hy, hm, hdd⟩ := date_unique hyear' h1970 hmon1' hmon12' hmon1 hmon12 (by omega) (by omega) hdays
  exact Datetime.ext_fields (by omega) (by omega) (by omega) (by omega) hm hy

/-- R123, R125: to_unix undoes from_unix, without a bound. -/
theorem toUnix_fromUnix (ts : Nat) : toUnix (fromUnix ts) = ts := by
  obtain ⟨-, -, -, -, -, hdays, htime, -, -, -⟩ := fromUnix_spec ts
  calc toUnix (fromUnix ts)
      = ts / 86400 * 86400 + ((fromUnix ts).hour * 3600 + (fromUnix ts).min * 60 + (fromUnix ts).sec) := by
        simp only [toUnix, hdays, Nat.add_assoc]
    _ = ts := by rw [htime, Nat.div_add_mod']

/-- R125: up to TS_MAX the result is a date, its year at most 2099 since TS_MAX is the last second before 2100. -/
theorem fromUnix_wf {ts : Nat} (h : ts ≤ 4102444799) : (fromUnix ts).wf = true ∧ 1970 ≤ (fromUnix ts).year := by
  obtain ⟨hyear, hmon1, hmon12, hday1, hday, hdays, -, hhour, hmin, hsec⟩ := fromUnix_spec ts
  have hlast : (fromUnix ts).year ≤ 2099 := by
    by_contra hlate
    have hmono : daysBeforeYear 2100 ≤ daysBeforeYear (fromUnix ts).year := by
      rcases Nat.lt_or_ge 2100 (fromUnix ts).year with hlt | hge
      · exact (Nat.le_add_right _ _).trans (daysBeforeYear_mono (by omega) hlt)
      · rw [show (fromUnix ts).year = 2100 by omega]
    rw [daysBeforeYear_2100] at hmono
    omega
  exact ⟨(Datetime.wf_iff _).mpr ⟨hsec, hmin, hhour, hmon1, hmon12, hday1, hday, by omega, hlast⟩, hyear⟩

/-- Settles O32. -/
theorem fromUnixOfToUnix : Obligations.FromUnixOfToUnix := fun _ => fromUnix_toUnix

/-- Settles O33. -/
theorem toUnixOfFromUnix : Obligations.ToUnixOfFromUnix := by
  intro ts hts
  obtain ⟨hwf, hyear⟩ := fromUnix_wf hts
  exact ⟨hwf, hyear, toUnix_fromUnix ts⟩

/-- R123: the day, the hour, the minute and the second count from the first second of the month. -/
theorem toUnix_eq_firstOfMonth (sec min hour day mon y : Nat) :
    toUnix ⟨sec, min, hour, day, mon, y⟩ = toUnix ⟨0, 0, 0, 1, mon, y⟩ + (day - 1) * 86400 + hour * 3600 + min * 60 + sec := by
  simp only [toUnix]
  omega

/-- R123: a month begins as many days after the month before it as that month has. -/
theorem toUnix_firstOfMonth_succ {mon : Nat} (y : Nat) (h : 1 ≤ mon) :
    toUnix ⟨0, 0, 0, 1, mon + 1, y⟩ = toUnix ⟨0, 0, 0, 1, mon, y⟩ + daysInMonth mon y * 86400 := by
  simp only [toUnix, daysBeforeMonth_succ h]
  omega

/-- R123: a year begins one second after the year before it ends: the thirteenth month of a year would begin with the next year. -/
theorem toUnix_firstOfYear_succ {y : Nat} (h : 1970 ≤ y) :
    toUnix ⟨0, 0, 0, 1, 1, y + 1⟩ = toUnix ⟨59, 59, 23, 31, 12, y⟩ + 1 := by
  have hyear : daysBeforeMonth 12 y + 31 = daysInYear y := by
    rw [← daysBeforeMonth_thirteen, daysBeforeMonth_succ (m := 12) (by omega), show daysInMonth 12 y = 31 from rfl]
  simp only [toUnix, daysBeforeYear_succ h, daysBeforeMonth_one]
  omega

/-- Settles O35. -/
theorem timestampBoundAndEpoch : Obligations.TimestampBoundAndEpoch :=
  ⟨fun _ => toUnix_le_tsMax, rfl, fun sec min hour day mon y _ => toUnix_eq_firstOfMonth sec min hour day mon y,
    fun _ y h1 _ => toUnix_firstOfMonth_succ y h1, fun _ => toUnix_firstOfYear_succ⟩

end Sys2Proof.Machine
end

section
/-! PROOFS. The calendar commands (44_calendar.md R120 to R128): what each returns where its checks pass and where they do not, what
a committed Datetime and a committed timestamp leave in the window, and the join of two result sets. -/

namespace Sys2Proof.Machine

/-! ## What the commands return -/

theorem rtcDecodeResult_of_wf {w : Window} (h : (clockImageOf w).wf = true) :
    rtcDecodeResult w = .ok (pendDatetime (decodeImage (clockImageOf w))) := if_pos h

theorem rtcDecodeResult_of_not_wf {w : Window} (h : (clockImageOf w).wf = false) : rtcDecodeResult w = .error .processing := by
  rw [rtcDecodeResult, h, if_neg Bool.false_ne_true]

theorem rtcEncodeResult_of_wf {w : Window} (h : (datetimeOf w).wf = true) :
    rtcEncodeResult w = .ok (pendWriteImage (encodeDatetime (datetimeOf w))) := if_pos h

theorem rtcEncodeResult_of_not_wf {w : Window} (h : (datetimeOf w).wf = false) : rtcEncodeResult w = .error .processing := by
  rw [rtcEncodeResult, h, if_neg Bool.false_ne_true]

/-- The condition of DT_TO_UNIX and RTC_TO_UNIX fails where one of its two checks does. -/
theorem checks_eq_false {b : Bool} {year : Nat} (h : b = false ∨ year < 1970) :
    (b && decide (Config.epochYear ≤ year)) = false := by
  rw [Bool.and_eq_false_iff, decide_eq_false_iff_not, not_le]
  exact h

theorem dtToUnixResult_of_wf {w : Window} (h : (datetimeOf w).wf = true) (h1970 : 1970 ≤ (datetimeOf w).year) :
    dtToUnixResult w = .ok (pendTimestamp (toUnix (datetimeOf w))) := by
  rw [dtToUnixResult, h, decide_eq_true h1970, Bool.and_self, if_pos rfl]

theorem dtToUnixResult_of_refused {w : Window} (h : (datetimeOf w).wf = false ∨ (datetimeOf w).year < 1970) :
    dtToUnixResult w = .error .processing := by
  rw [dtToUnixResult, checks_eq_false h, if_neg Bool.false_ne_true]

theorem unixToDtResult_of_le {w : Window} (h : timestampOf w ≤ 4102444799) :
    unixToDtResult w = .ok (pendDatetime (fromUnix (timestampOf w))) := if_pos h

theorem unixToDtResult_of_lt {w : Window} (h : 4102444799 < timestampOf w) : unixToDtResult w = .error .processing :=
  if_neg (not_le.mpr h)

theorem rtcToUnixResult_of_wf {w : Window} (h : (clockImageOf w).wf = true)
    (h1970 : 1970 ≤ (decodeImage (clockImageOf w)).year) :
    rtcToUnixResult w =
      .ok (pendDatetime (decodeImage (clockImageOf w)) ++ pendTimestamp (toUnix (decodeImage (clockImageOf w)))) := by
  rw [rtcToUnixResult, h, decide_eq_true h1970, Bool.and_self, if_pos rfl]

theorem rtcToUnixResult_of_refused {w : Window} (h : (clockImageOf w).wf = false ∨ (decodeImage (clockImageOf w)).year < 1970) :
    rtcToUnixResult w = .error .processing := by
  rw [rtcToUnixResult, checks_eq_false h, if_neg Bool.false_ne_true]

/-! ## Committed result sets -/

/-- R67: STATUS is apart from the registers a result set writes. -/
theorem Window.putAll_with_status (w : Window) (f : Status) (p : List (Reg × Word)) :
    ({ w with status := f } : Window).putAll p = { w.putAll p with status := f } := by
  induction p generalizing w with
  | nil => rfl
  | cons c rest ih =>
    obtain ⟨r, v⟩ := c
    have hput : ({ w with status := f } : Window).put r v = { w.put r v with status := f } := by cases r <;> rfl
    rw [putAll, putAll, hput, ih]

theorem Window.putAll_append (w : Window) (p q : List (Reg × Word)) : w.putAll (p ++ q) = (w.putAll p).putAll q := by
  induction p generalizing w with
  | nil => rfl
  | cons c rest ih => exact ih (w.put c.1 c.2)

/-- R67: two successes one after the other commit what one success with both result sets does. -/
theorem complete_ok_append (p q : List (Reg × Word)) (s : State) :
    complete (.ok (p ++ q)) s = complete (.ok q) (complete (.ok p) s) := by
  simp only [complete, succeedWith, Window.putAll_with_status, Window.putAll_append, Status.succeeded]

/-- R25, R120: DT1 after a Datetime was committed; its reserved bits are 0. -/
theorem dt1_complete_pendDatetime (d : Datetime) (s : State) : (complete (.ok (pendDatetime d)) s).win.dt1 = dt1Of d :=
  dt1Of_reserved d

theorem dt1_reserved_complete_pendDatetime (d : Datetime) (s : State) :
    (complete (.ok (pendDatetime d)) s).win.dt1 &&& dt1Mask = (complete (.ok (pendDatetime d)) s).win.dt1 := by
  rw [dt1_complete_pendDatetime, dt1Of_reserved]

/-- R120: a committed well-formed Datetime is the one DT0 and DT1 hold. -/
theorem datetimeOf_complete_pendDatetime {d : Datetime} (h : d.wf = true) (s : State) :
    datetimeOf (complete (.ok (pendDatetime d)) s).win = d := by
  obtain ⟨hsec, hmin, hhour, hday, hmon, hyear⟩ := Datetime.fields_fit h
  exact datetimeOf_written rfl (dt1_complete_pendDatetime d s) hsec hmin hhour hday hmon hyear

/-- R124: a committed timestamp up to TS_MAX is in TS_LO whole, TS_HI being 0. -/
theorem timestamp_complete_pendTimestamp {ts : Nat} (h : ts ≤ 4102444799) (s : State) :
    ((complete (.ok (pendTimestamp ts)) s).win.get .tsLo).toNat = ts ∧
    ((complete (.ok (pendTimestamp ts)) s).win.get .tsHi).toNat = 0 := by
  show (BitVec.ofNat 32 (ts % 2 ^ 32)).toNat = ts ∧ (BitVec.ofNat 32 (ts / 2 ^ 32)).toNat = 0
  rw [BitVec.toNat_ofNat, BitVec.toNat_ofNat]
  omega

/-- R124: committing a timestamp leaves DT0 and DT1. -/
theorem datetime_complete_pendTimestamp (ts : Nat) (s : State) :
    datetimeOf (complete (.ok (pendTimestamp ts)) s).win = datetimeOf s.win ∧
    (complete (.ok (pendTimestamp ts)) s).win.dt1 = s.win.dt1 :=
  ⟨rfl, rfl⟩

/-- R122, R49: a committed write image is in RTCOUT0 and RTCOUT1, four bytes in each. -/
theorem rtcout_complete_pendWriteImage (g : WriteImage) (s : State) :
    (complete (.ok (pendWriteImage g)) s).win.get .rtcout0 = ofLanes g.o0 g.o1 g.o2 g.o3 ∧
    (complete (.ok (pendWriteImage g)) s).win.get .rtcout1 = ofLanes g.o4 g.o5 g.o6 g.o7 :=
  ⟨rfl, rfl⟩

/-- R128, R30: the answer committed to LEAP is the one read from it. -/
theorem leap_complete (b : Bool) (s : State) :
    (complete (.ok [(.leap, if b then 1#32 else 0#32)]) s).win.get .leap = if b then 1#32 else 0#32 := by
  show ((if b then 1#32 else 0#32) &&& leapMask) &&& leapMask = _
  cases b <;> decide

/-! ## The statements -/

/-- Settles O23: a decoded Datetime fits the fields of DT0 and DT1. -/
theorem rtcDecodeWritesDatetime : Obligations.RtcDecodeWritesDatetime := by
  refine ⟨fun s => ⟨fun hwf => ⟨_, rfl, ?_⟩, fun hwf => failsWith_of_result rfl (rtcDecodeResult_of_not_wf hwf)⟩, clockImageOf_toNat,
    fun g => ⟨decodeImage_eq g, ClockImage.wf_iff g⟩⟩
  obtain ⟨hsec, hmin, hhour, hday, hmon, hyear⟩ := Datetime.fields_fit (ClockImage.decode_wf hwf)
  rw [rtcDecodeResult_of_wf hwf]
  refine ⟨dt0Of_toNat hsec hmin hhour hday, ?_, rfl, frame_succeed rfl⟩
  rw [Window.get, dt1_reserved_complete_pendDatetime, dt1_complete_pendDatetime]
  exact dt1Of_toNat hmon hyear

/-- Settles O26: the registers hold the bytes of the write image lane by lane, and each field fits its BCD byte. -/
theorem rtcEncodeWritesImage : Obligations.RtcEncodeWritesImage := by
  refine ⟨fun s => ⟨fun hwf => ⟨_, rfl, ?_⟩, fun hwf => failsWith_of_result rfl (rtcEncodeResult_of_not_wf hwf)⟩, datetimeOf_eq,
    fun d => ?_, fun y => ⟨rfl, daysInMonth_february y, rfl, rfl, rfl, rfl, rfl, rfl, rfl, rfl, rfl, rfl⟩⟩
  · obtain ⟨hsec, hmin, hhour, -, hmon, -, hday, -, -⟩ := (Datetime.wf_iff _).mp hwf
    have hday31 := hday.trans (daysInMonth_le _ _)
    have hyear : (datetimeOf s.win).year % 100 ≤ 99 := by omega
    rw [rtcEncodeResult_of_wf hwf]
    obtain ⟨hout0, hout1⟩ := rtcout_complete_pendWriteImage (encodeDatetime (datetimeOf s.win)) s
    simp only [hout0, hout1, lane_ofLanes]
    exact ⟨rfl, toBcd_toNat (by omega), toBcd_toNat (by omega), toBcd_toNat (by omega), rfl, toBcd_toNat (by omega),
      toNat_toBcd_or_centuryBit hmon _, toBcd_toNat hyear, rfl, frame_succeed rfl⟩
  · rw [Datetime.wf_iff]
    simp only [and_assoc]

/-- Settles O27. -/
theorem dtToUnixWritesTimestamp : Obligations.DtToUnixWritesTimestamp := by
  refine fun s => ⟨fun hwf h1970 => ⟨_, rfl, ?_⟩, fun h => failsWith_of_result rfl (dtToUnixResult_of_refused h)⟩
  rw [dtToUnixResult_of_wf hwf h1970]
  obtain ⟨hlo, hhi⟩ := timestamp_complete_pendTimestamp (toUnix_le_tsMax hwf h1970) s
  exact ⟨hlo, hhi, rfl, frame_succeed rfl⟩

/-- Settles O28: up to TS_MAX the conversion gives a well-formed Datetime, so it fits DT0 and DT1 and its timestamp is the one
converted. -/
theorem unixToDtWritesDatetime : Obligations.UnixToDtWritesDatetime := by
  refine fun s => ⟨fun hts => ⟨_, rfl, ?_⟩, fun hts => failsWith_of_result rfl (unixToDtResult_of_lt hts)⟩
  obtain ⟨hwf, h1970⟩ := fromUnix_wf hts
  have hdt := datetimeOf_complete_pendDatetime hwf s
  rw [unixToDtResult_of_le hts]
  refine ⟨?_, ?_, ?_, dt1_reserved_complete_pendDatetime _ s, rfl, frame_succeed rfl⟩
  · exact (congrArg Datetime.wf hdt).trans hwf
  · exact h1970.trans_eq (congrArg Datetime.year hdt).symm
  · exact (congrArg toUnix hdt).trans (toUnix_fromUnix _)

/-- Settles O29: the Datetime is committed first, and the timestamp leaves DT0 and DT1. -/
theorem rtcToUnixWritesDatetimeAndTimestamp : Obligations.RtcToUnixWritesDatetimeAndTimestamp := by
  refine fun s => ⟨fun hwf h1970 => ⟨_, rfl, ?_⟩, fun h => failsWith_of_result rfl (rtcToUnixResult_of_refused h)⟩
  have hd := ClockImage.decode_wf hwf
  obtain ⟨hdt, hdt1⟩ := datetime_complete_pendTimestamp (toUnix (decodeImage (clockImageOf s.win)))
    (complete (.ok (pendDatetime (decodeImage (clockImageOf s.win)))) s)
  obtain ⟨hlo, hhi⟩ := timestamp_complete_pendTimestamp (toUnix_le_tsMax hd h1970)
    (complete (.ok (pendDatetime (decodeImage (clockImageOf s.win)))) s)
  rw [rtcToUnixResult_of_wf hwf h1970]
  refine ⟨?_, ?_, ?_, ?_, rfl, frame_succeed rfl⟩ <;> rw [complete_ok_append]
  · rw [hdt, datetimeOf_complete_pendDatetime hd]
  · rw [hdt1, dt1_reserved_complete_pendDatetime]
  · exact hlo
  · exact hhi

/-- R127: RTC_TO_UNIX succeeds only with a well-formed image from 1970 on. -/
theorem rtcToUnixResult_cases (w : Window) :
    ((clockImageOf w).wf = true ∧ 1970 ≤ (decodeImage (clockImageOf w)).year) ∨ rtcToUnixResult w = .error .processing := by
  by_cases hwf : (clockImageOf w).wf = true
  · rcases Nat.lt_or_ge (decodeImage (clockImageOf w)).year 1970 with hlt | hge
    · exact .inr (rtcToUnixResult_of_refused (.inr hlt))
    · exact .inl ⟨hwf, hge⟩
  · exact .inr (rtcToUnixResult_of_refused (.inl (Bool.eq_false_of_not_eq_true hwf)))

/-- Settles O30: the result set of RTC_TO_UNIX is that of RTC_DECODE and that of DT_TO_UNIX, and the Datetime the second command
finds is the one the first committed. -/
theorem rtcToUnixIsDecodeThenConvert : Obligations.RtcToUnixIsDecodeThenConvert := by
  intro s t hexec herr
  obtain rfl : complete (rtcToUnixResult s.win) s = t := Host.Outcome.next.inj hexec
  obtain ⟨hwf, h1970⟩ | hfail := rtcToUnixResult_cases s.win
  · refine ⟨_, congrArg (fun r => Host.Outcome.next (complete r s)) (rtcDecodeResult_of_wf hwf), rfl, ?_⟩
    have hdt := datetimeOf_complete_pendDatetime (ClockImage.decode_wf hwf) s
    have hconvert := dtToUnixResult_of_wf ((congrArg Datetime.wf hdt).trans (ClockImage.decode_wf hwf))
      (h1970.trans_eq (congrArg Datetime.year hdt).symm)
    rw [rtcToUnixResult_of_wf hwf h1970, complete_ok_append]
    rw [hdt] at hconvert
    exact congrArg (fun r => Host.Outcome.next (complete r _)) hconvert
  · rw [hfail] at herr
    cases herr

/-- Settles O31: the bit LEAP stores is the answer of the leap-year rule to the year in DT1. -/
theorem leapAnswersTheLeapYearRule : Obligations.LeapAnswersTheLeapYearRule := by
  refine fun s => ⟨_, rfl, ?_, rfl, frame_succeed rfl⟩
  rw [← isLeap_iff, ← datetimeOf_year, leapResult, leap_complete]
  cases isLeap (datetimeOf s.win).year with
  | true => exact .inl ⟨rfl, rfl⟩
  | false => exact .inr ⟨rfl, Bool.false_ne_true⟩

end Sys2Proof.Machine
end

section
/-! PROOFS. The family of the exceptions (60_exceptions.md): what a command that fails leaves unchanged, and the interrupt line. -/

namespace Sys2Proof.Machine

/-! ## A command that fails -/

/-- R67: the meaning of a command ends in a completion. -/
theorem eq_complete_of_exec {i : Instr} {s t : State} (h : exec i s = .next t) : ∃ r, t = complete r s := by
  obtain ⟨r, hr, -⟩ := exec_sound i s
  exact ⟨r, Host.Outcome.next.inj (h.symm.trans hr)⟩

/-- A completion that sets ERR is a failure with the code ERRCODE then holds (R67, R131). -/
theorem eq_error_of_complete_err {r : Except ErrCode (List (Reg × Word))} {s : State} (h : (complete r s).win.status.err = true) :
    r = .error (complete r s).win.status.errcode := by
  cases r with
  | ok p => cases h
  | error code => rfl

/-- R131, R132: a completion that sets ERR reports its code and leaves all else. -/
theorem failed_of_complete_err {r : Except ErrCode (List (Reg × Word))} {s : State}
    (h : (complete r s).win.status.err = true) :
    StatusFailed (complete r s).win.status.errcode s (complete r s) ∧ Frame [] s (complete r s) := by
  rw [eq_error_of_complete_err h]
  exact ⟨rfl, frame_fail _ s⟩

/-- Settles O9: a decoded command and an illegal word both end in a completion, and one that sets ERR is a failure. -/
theorem failedCommandChangesOnlyStatus : Obligations.FailedCommandChangesOnlyStatus := by
  intro s t hends herr
  obtain ⟨r, rfl⟩ : ∃ r, t = complete r s := by
    rcases hends with ⟨i, hexec⟩ | ⟨hp, hs, hstep⟩
    · exact eq_complete_of_exec hexec
    · exact ⟨_, Host.Outcome.next.inj (hstep.symm.trans (step_completes hp hs))⟩
  exact failed_of_complete_err herr

/-! ## The interrupt line -/

/-- Bit 0 of CTRL reads as IE (R18). -/
theorem Window.ctrl_bit0_iff (w : Window) : (w.get .ctrl).toNat % 2 = 1 ↔ w.ie = true := by
  rw [Window.get, ctrlWord_toNat]
  cases w.ie <;> decide

theorem Status.toWord_getLsbD_one (f : Status) : f.toWord.getLsbD 1 = f.done := by
  rw [Status.toWord, BitVec.getLsbD_append, BitVec.getLsbD_append]
  simp

/-- Bit 1 of STATUS reads as DONE (R19). -/
theorem Window.status_bit1_iff (w : Window) : (w.get .status).toNat / 2 % 2 = 1 ↔ w.status.done = true := by
  rw [Window.get, ← Status.toWord_getLsbD_one, getLsbD_eq_decide, decide_eq_true_iff, pow_one]

theorem State.irq_iff (s : State) : s.irq = true ↔ s.win.ie = true ∧ s.win.status.done = true := Bool.and_eq_true_iff

/-- R134: a completion sets DONE and keeps IE, so it leaves the line at IE. -/
@[simp] theorem complete_irq (r : Except ErrCode (List (Reg × Word))) (s : State) : (complete r s).irq = s.win.ie := by
  rw [State.irq, complete_ie, complete_done, Bool.and_true]

/-- Settles O46: the two bits read as IE and DONE, and every way to end a command is a completion. -/
theorem interruptLineFollowsEnableAndDone : Obligations.InterruptLineFollowsEnableAndDone := by
  refine ⟨fun s => ?_, fun s t hends => ?_⟩
  · rw [Window.ctrl_bit0_iff, Window.status_bit1_iff, State.irq_iff]
  · rcases hends with ⟨i, hexec⟩ | ⟨hp, hs | ⟨rest, hs⟩, hstep⟩
    · obtain ⟨r, rfl⟩ := eq_complete_of_exec hexec
      exact complete_irq r s
    · obtain rfl := Host.Outcome.next.inj (hstep.symm.trans (step_completes hp hs))
      exact complete_irq _ s
    · obtain rfl := Host.Outcome.next.inj (hstep.symm.trans (step_finish hp hs))
      exact complete_irq _ { s with script := rest }

end Sys2Proof.Machine
end

section
/-! PROOFS. The family of reset and hazards (70_reset_and_hazards.md): what the host can still do to a core with a command in flight. -/

namespace Sys2Proof.Machine

/-! ## Operand races -/

/-- A host memory write of a byte the command in flight reads is a race (R56, R151). -/
theorem hostMem_of_readsByte {s : State} {addr : Word} {data : List Byte} {j : Nat} (hp : s.eng.phase ≠ .idle)
    (hj : j < data.length) (h : ReadsByte s.eng.op s.win (addr + BitVec.ofNat 32 j)) :
    hostMem addr data s = .fault .operandRace := by
  refine if_pos ⟨hp, Bool.of_not_eq_false fun hfree => ?_⟩
  have hread := (commandReads_iff _ _ _).mpr h
  rw [(anyRead_eq_false_iff _ _ _ _).mp hfree j hj] at hread
  cases hread

/-- Settles O48: byte `i` of each of the segments is one of the bytes of R45. -/
theorem writingAnOperandByteRaces : Obligations.WritingAnOperandByteRaces := by
  intro s rest addr data i j instr hs hp hd hj hseg
  have hread : ReadsByte s.eng.op s.win (addr + BitVec.ofNat 32 j) := by
    rcases hseg with ⟨⟨app, rfl⟩, hi, ha⟩ | ⟨rfl, hi, ha⟩ | ⟨rfl, hk, hi, ha⟩ | ⟨rfl | ⟨dig, h1, h9, rfl | rfl⟩, hk, hi, ha⟩
    · exact .inl ⟨⟨app, hd⟩, i, hi, ha⟩
    · exact .inr (.inl ⟨hd, i, hi, ha⟩)
    · exact .inr (.inr (.inl ⟨hd, hk, .inr ⟨i, hi, ha⟩⟩))
    · exact .inr (.inr (.inl ⟨hd, hk, .inl ⟨i, hi, ha⟩⟩))
    · exact .inr (.inr (.inr ⟨dig, .inl hd, hk, h1, h9, i, hi, ha⟩))
    · exact .inr (.inr (.inr ⟨dig, .inr hd, hk, h1, h9, i, hi, ha⟩))
  rw [step_of_event hs]
  exact hostMem_of_readsByte (s := { s with script := rest }) hp hj hread

/-! ## Writes of the window while a command is in flight -/

/-- Everything a write of a register can do to a busy core: no command is accepted and no operand is stored. -/
theorem writeReg_cases_of_busy (r : Reg) (v : Word) {s : State} (hb : s.win.status.busy = true) :
    writeReg r v s = s ∨
    (r = .ctrl ∧ v.getLsbD 1 = true ∧ writeReg r v s = resetCore s) ∨
    (r = .ctrl ∧ writeReg r v s = { s with win := { s.win with ie := v.getLsbD 0 } }) ∨
    (r = .status ∧ writeReg r v s = { s with win := { s.win with status := s.win.status.clear v } }) ∨
    (r = .cmd ∧ writeReg r v s = { s with win := { s.win with status := s.win.status.overrun } }) := by
  rcases writeReg_cases r v s with
    h | h | ⟨hr, -, h⟩ | h | ⟨hr, -, h⟩ | ⟨-, hidle, -⟩ | ⟨-, hidle, -⟩
  · exact .inl h
  · exact .inr (.inl h)
  · exact .inr (.inr (.inl ⟨hr, h⟩))
  · exact .inr (.inr (.inr (.inl h)))
  · exact .inr (.inr (.inr (.inr ⟨hr, h⟩)))
  · simp [hb] at hidle
  · simp [hb] at hidle

/-- A busy core ignores a write of an operand register (R21, R150). -/
theorem writeReg_operand_busy {r : Reg} {s : State} (v : Word) (hr : r.isOperand = true) (hb : s.win.status.busy = true) :
    writeReg r v s = s := by
  rcases writeReg_cases_of_busy r v hb with h | ⟨rfl, -⟩ | ⟨rfl, -⟩ | ⟨rfl, -⟩ | ⟨rfl, -⟩
  · exact h
  · cases hr
  · cases hr
  · cases hr
  · cases hr

/-- Settles O38. -/
theorem busyOperandWriteIsDropped : Obligations.BusyOperandWriteIsDropped := by
  intro s rest r v hs hr hb
  rw [step_wr hs]
  exact congrArg _ (writeReg_operand_busy v hr hb)

/-! ## What stays until completion or reset -/

/-- The command stays in flight, and every register but CTRL and STATUS keeps its value (R149, R21). -/
structure Window.InFlightKept (w w' : Window) : Prop where
  busy : w'.status.busy = true
  get : ∀ r, r ≠ .ctrl → r ≠ .status → w'.get r = w.get r

theorem Window.InFlightKept.refl {w : Window} (hb : w.status.busy = true) : w.InFlightKept w := ⟨hb, fun _ _ _ => rfl⟩

/-- No write of a register but a soft reset ends a command in flight or changes a result or operand (R21, R64). -/
theorem writeReg_inFlightKept {r : Reg} {v : Word} {s : State} (hb : s.win.status.busy = true)
    (hsrst : r = .ctrl → v.getLsbD 1 = false) : s.win.InFlightKept (writeReg r v s).win := by
  rcases writeReg_cases_of_busy r v hb with h | ⟨hr, hv, -⟩ | ⟨-, h⟩ | ⟨-, h⟩ | ⟨-, h⟩
  · rw [h]
    exact .refl hb
  · exact absurd hv (Bool.eq_false_iff.mp (hsrst hr))
  · rw [h]
    exact ⟨hb, fun q hctrl _ => Window.get_with_ie _ _ hctrl⟩
  · rw [h]
    exact ⟨hb, fun q _ hstatus => Window.get_with_status _ _ hstatus⟩
  · rw [h]
    exact ⟨hb, fun q _ hstatus => Window.get_with_status _ _ hstatus⟩

/-- R149, R65: of the events of the schedule the completion step and the two resets alone end a command in flight or change a
result or operand. -/
theorem step_inFlightKept {s t : State} {ev : Event} {rest : List Event} (hs : s.script = ev :: rest) (h : step s = .next t)
    (hb : s.win.status.busy = true) (hfinish : ev ≠ .finish) (hreset : ev ≠ .resetInput)
    (hsrst : ∀ bytes addr v, ev = .write bytes addr v → windowOffset s.base addr = 0x04 → v.getLsbD 1 = false) :
    s.win.InFlightKept t.win := by
  have event_eq : ∀ {ev' rest'}, s.script = ev' :: rest' → ev = ev' := fun h' => (List.cons.inj (hs.symm.trans h')).1
  cases step_cases h with
  | waits hs' => rw [hs'] at hs; cases hs
  | skips _ _ _ ht => subst ht; exact .refl hb
  | writes bytes addr v r rest' hs' hr ht =>
    rw [ht]
    refine writeReg_inFlightKept (s := { s with script := rest' }) hb ?_
    rintro rfl
    exact hsrst bytes addr v (event_eq hs') hr
  | reads _ _ _ _ _ ht => subst ht; exact .refl hb
  | stores _ _ _ _ _ ht => subst ht; exact .refl hb
  | polls _ _ _ ht => subst ht; exact .refl hb
  | pollsBusy _ _ _ ht => subst ht; exact .refl hb
  | resets _ hs' => exact absurd (event_eq hs') hreset
  | ticks _ _ ht => subst ht; exact .refl hb
  | completes _ hs' =>
    rcases hs' with ⟨hs', -⟩ | hs'
    · rw [hs'] at hs; cases hs
    · exact absurd (event_eq hs') hfinish

theorem ctrl_status_not_resultOrOperand {r : Reg} (h : r ∈ resultRegs ∨ r ∈ operandRegs) : r ≠ .ctrl ∧ r ≠ .status := by
  constructor <;> rintro rfl
  · exact absurd h (by decide)
  · exact absurd h (by decide)

/-- Settles O51: the result and operand registers are neither CTRL nor STATUS. -/
theorem resultsChangeOnlyAtCompletion : Obligations.ResultsChangeOnlyAtCompletion := by
  intro s t ev rest hs h hb hfinish hreset hsrst
  obtain ⟨hbusy, hget⟩ := step_inFlightKept hs h hb hfinish hreset hsrst
  refine ⟨hbusy, fun r hr => ?_⟩
  obtain ⟨hctrl, hstatus⟩ := ctrl_status_not_resultOrOperand hr
  exact hget r hctrl hstatus

end Sys2Proof.Machine
end
